-- ==== Sys2Proof/Word.lean ====
section
/-! DEFINITION. The bit-vector types of the CCE and the names of its register files (spec 00 R6, R10; 10 R20, R41). -/

namespace Sys2Proof

/-- An operand register, an address, a length or a distance: `XLEN` = 64 bits (00 R6). -/
abbrev Word := BitVec 64

/-- One byte of either memory (00 R10). -/
abbrev Byte := BitVec 8

/-- One command word (30 R90). -/
abbrev CmdWord := BitVec 32

/-- The name of an operand register `r0` to `r15` (10 R20, `NREG` = 16). -/
abbrev Reg := Fin 16

/-- The name of a chunk register `c0` to `c3` (10 R41, `NCHUNK` = 4). -/
abbrev CReg := Fin 4

end Sys2Proof
end

