-- ==== Sys2Proof/Config.lean ====
section
/-! DEFINITION. What an instance of the CCE fixes (spec 00 R6 to R9, 10 R49) and the free values of the model.
The parameters are plain data, so a statement about every state is a statement about every instance. -/

namespace Sys2Proof

/-- A chunk width in bytes: 16, 32 or 64 (00 R6, 10 R35). -/
inductive ChunkWidth where
  | w16
  | w32
  | w64
  deriving DecidableEq, Repr

/-- The width of a `head` or `prev` entry: `EW` = 16 or 32 bits (00 R6, 44 R205). -/
inductive EntryWidth where
  | w16
  | w32
  deriving DecidableEq, Repr

/-- A selector value of `BIND`: the backend a family is bound to (10 R34). -/
inductive Backend where
  | scalar
  | vec128
  | vec256
  | vec512
  deriving DecidableEq, Repr

/-- A subset of `V128`, `V256`, `V512`: the vector backends a datapath contains (00 R7). -/
structure VecSet where
  v128 : Bool
  v256 : Bool
  v512 : Bool
  deriving DecidableEq, Repr

/-- `FILL_SUPPORTED`: the unit sizes for which the active chunk backend supports `fill_k` (00 R7, 41 R138). -/
structure FillSet where
  k1 : Bool
  k2 : Bool
  k4 : Bool
  k8 : Bool
  deriving DecidableEq, Repr

/-- The four unit sizes a fill command can have (30 R101). -/
inductive FillUnit where
  | k1
  | k2
  | k4
  | k8
  deriving DecidableEq, Repr

/-- A run of addresses `base, base + 1, ..., base + size - 1`. -/
structure Region where
  base : Nat
  size : Nat
  deriving DecidableEq, Repr

/-- The parameters of an instance that no step changes (00 R6 to R9, 10 R49).
`CAPS` is the strap, a field of `State`; `CK_BASE` is the constant `Machine.ckBase`; `TIE_ORDER` has no
architectural effect and is not represented (45 R229). The predicates `Valid` and `CmdValid` are lists of
regions: an address satisfies one iff some region of its list holds it.
DESIGN CHOICE (log entries 1, 3), safe: any set of addresses below 2^64 is such a list. -/
structure Config where
  /-- `IMPL_CC`: the vector chunk backends this instance contains. -/
  implCC : VecSet
  /-- `IMPL_CK`: the same for the checksum datapath. -/
  implCK : VecSet
  /-- `IMPL_HS`: the same for the hash-slide datapath. -/
  implHS : VecSet
  /-- `W_FALLBACK`: the chunk width of the scalar fallback. -/
  wFallback : ChunkWidth
  /-- `FILL_SUPPORTED`. -/
  fillSupported : FillSet
  /-- `EW`. -/
  entryWidth : EntryWidth
  /-- `Valid`: the data-memory addresses that exist. -/
  valid : List Region
  /-- `CmdValid`: the command-memory addresses that exist. -/
  cmdValid : List Region
  deriving DecidableEq, Repr

/-- The whole of an address space of 2^64 bytes (20 R60, R61). -/
def Region.all : Region := { base := 0, size := 2 ^ 64 }

/-- The defaults the spec names (00 R6, R7; table of open parameters of 92_eei_decisions.md), with every address
of both spaces existing. DESIGN CHOICE (log entries 1, 3), unsafe for a claim about the reset state alone. -/
def Config.default : Config where
  implCC := { v128 := true, v256 := true, v512 := true }
  implCK := { v128 := true, v256 := true, v512 := true }
  implHS := { v128 := true, v256 := true, v512 := true }
  wFallback := .w16
  fillSupported := { k1 := true, k2 := true, k4 := true, k8 := true }
  entryWidth := .w16
  valid := [Region.all]
  cmdValid := [Region.all]

/-- The strap `CAPS` = {`V128`} at `State.reset`, the spec's default in its examples (92_eei_decisions.md).
DESIGN CHOICE (log entry 2), unsafe for a claim about the reset state alone. -/
def Config.defaultStrap : BitVec 32 := 1

/-- FREE VALUE (log entry 8), safe: the `n`-th unspecified byte a run draws (00 R11 `any_bytes`, 93 U3). No body:
nothing can be proved of a value of it. -/
opaque Config.freeByte : Nat → Byte

/-- FREE VALUE (log entry 8), safe: the `n`-th unspecified 64-bit value a run draws (10 R22, 93 U1, U13). No body. -/
opaque Config.freeWord : Nat → Word

end Sys2Proof
end

