-- ==== Sys2Proof/Machine/Registry.lean ====
section
/-! DEFINITION. The capability registry and the dispatcher (spec 45): `Select`, and the chunk width it fixes. -/

namespace Sys2Proof

/-- A chunk width in bytes (10 R35). -/
def ChunkWidth.bytes : ChunkWidth → Nat
  | .w16 => 16
  | .w32 => 32
  | .w64 => 64

/-- `EB` = `EW` / 8 (00 R6). -/
def EntryWidth.bytes : EntryWidth → Nat
  | .w16 => 2
  | .w32 => 4

/-- The `k` of a fill unit (30 R101). -/
def FillUnit.bytes : FillUnit → Nat
  | .k1 => 1
  | .k2 => 2
  | .k4 => 4
  | .k8 => 8

/-- `k` is in `FILL_SUPPORTED` (41 R138). -/
def FillSet.has (f : FillSet) : FillUnit → Bool
  | .k1 => f.k1
  | .k2 => f.k2
  | .k4 => f.k4
  | .k8 => f.k8

namespace Machine

/-- The capability flag `V128`: bit 0 of `CAP` (10 R33). -/
def capV128 (caps : BitVec 32) : Bool := caps.getLsbD 0

/-- The capability flag `V256`: bit 1 of `CAP` (10 R33). -/
def capV256 (caps : BitVec 32) : Bool := caps.getLsbD 1

/-- The capability flag `V512`: bit 2 of `CAP` (10 R33). -/
def capV512 (caps : BitVec 32) : Bool := caps.getLsbD 2

/-- `Select(caps, impl)`: the widest backend both detected and implemented, else the scalar fallback (45 R224). -/
def select (caps : BitVec 32) (impl : VecSet) : Backend :=
  if capV512 caps && impl.v512 then .vec512
  else if capV256 caps && impl.v256 then .vec256
  else if capV128 caps && impl.v128 then .vec128
  else .scalar

/-- The active chunk width of a `CC_SEL` (45 R226). -/
def widthOf (fallback : ChunkWidth) : Backend → ChunkWidth
  | .scalar => fallback
  | .vec128 => .w16
  | .vec256 => .w32
  | .vec512 => .w64

end Machine

end Sys2Proof
end

