-- ==== Sys2Proof/Machine/State.lean ====
section
/-! DEFINITION. The state of the CCE as plain data (spec 10, 20, 50, 70), the reasons a step stops, and the state after
reset. -/

namespace Sys2Proof.Machine

/-- The run state, encoded in `STATUS` bits 2:0 (10 R28, R29); by its type `STATUS` takes only its four legal values
(10 R37). -/
inductive RunState where
  | idle
  | running
  | done
  | faulted
  deriving DecidableEq, Repr

/-- The seven architected fault causes (60 R260). -/
inductive Cause where
  | cmdFetchFault
  | illegalCommand
  | unsupportedFill
  | badDistance
  | overlap
  | misaligned
  | memFault
  deriving DecidableEq, Repr

/-- The dispatcher's bindings: `BIND` with its fields `CC_SEL`, `CK_SEL`, `HS_SEL` (10 R34). -/
structure Binding where
  cc : Backend
  ck : Backend
  hs : Backend
  deriving DecidableEq, Repr

/-- `BIND` as reset computes it from the strap: one `Select` per family (45 R224). -/
def bindingOf (caps : BitVec 32) (cfg : Config) : Binding where
  cc := select caps cfg.implCC
  ck := select caps cfg.implCK
  hs := select caps cfg.implHS

/-- A byte memory: (address, byte) pairs, addresses strictly rising, no byte equal to what an unlisted address reads
as. `Memory.wf` is that form. -/
abbrev Memory := List Host.Cell

/-- The content of a chunk register: a list of bytes, index 0 first (10 R41); `State.Inv` holds its length at `W`. -/
abbrev Chunk := List Byte

/-- What the host can do to a CCE (50 R242). -/
inductive HostAction where
  /-- `HostReadCsr(n)` -/
  | readCsr (n : Nat)
  /-- `HostWriteCsr(n, v)` -/
  | writeCsr (n : Nat) (v : Word)
  /-- `HostReadReg(i)` -/
  | readReg (i : Reg)
  /-- `HostWriteReg(i, v)` -/
  | writeReg (i : Reg) (v : Word)
  /-- `HostWriteCmd(a, byte)` -/
  | writeCmd (a : Word) (b : Byte)
  /-- `HostStart` -/
  | start
  /-- `HostReset` -/
  | reset
  /-- a data-memory read by the host -/
  | readMem (a : Word)
  /-- a data-memory write by the host -/
  | writeMem (a : Word) (b : Byte)
  deriving DecidableEq, Repr

/-- One move of the environment, or the sequencer's turn. A list of these in `State` is the schedule: it says, as plain
data, which agent moves next (00 R17; log entry 10). -/
inductive Event where
  /-- the sequencer takes its step -/
  | sequencer
  /-- the host acts -/
  | host (a : HostAction)
  /-- the strap input `CAPS` changes; sampled only at reset (70 R302) -/
  | setStrap (caps : BitVec 32)
  /-- another agent writes a byte of data memory between two commands (20 R79, 50 R241; log entry 13) -/
  | agentWrite (a : Word) (b : Byte)
  deriving DecidableEq, Repr

/-- Why the model stops with a fault. No architected fault of the CCE is one of these: taking such a fault is a next
state (60 R266; log entry 9). -/
inductive Fault where
  /-- Raised by `step` when it is the sequencer's turn and `STATUS` is not RUNNING: "the sequencer has no step"
  (40 R120). Safe: the machine has no transition there. -/
  | sequencerStopped
  deriving DecidableEq, Repr

/-- Why the model refuses a move. No command is refused by one of the last three. -/
inductive Refusal where
  /-- Raised by an arm of `exec` for a command without a meaning; no arm of this model does. Safe. -/
  | notModelled (mnemonic : String)
  /-- Raised by the host action `writeCmd` while `STATUS.RUN` = 1: forbidden, undefined (50 R242, R245; log entry 11).
  Safe. -/
  | cmdWriteWhileRunning
  /-- Raised by the host action `writeCmd` at an address that is not `CmdValid`: it names no byte (50 R242, 20 R61; log
  entry 11). Safe. -/
  | cmdAddressInvalid
  /-- Raised by a data-memory access of the host or another agent at an address that is not `Valid`: it names no byte
  (20 R60; log entry 11). Safe. -/
  | dataAddressInvalid
  deriving DecidableEq, Repr

/-- The state of one CCE and of the two memories it reaches (10_state section 1), with the instance's parameters, the
strap, and the model's own `pending`, `reply` and `draws`. -/
structure State where
  /-- the instance's parameters; no step changes them (00 R9) -/
  cfg : Config
  /-- the strap input `CAPS` (00 R7) -/
  strap : BitVec 32
  /-- operand registers `r0` to `r15` (10 R20) -/
  regs : Vector Word 16
  /-- the command pointer, and control register `CPC` (10 R24, R30) -/
  cpc : Word
  /-- chunk registers `c0` to `c3` (10 R41) -/
  chunks : Vector Chunk 4
  /-- `STATUS` (10 R28) -/
  run : RunState
  /-- `FCAUSE`: no fault since reset, or the cause of the one fault (10 R31) -/
  fcause : Option Cause
  /-- `FINFO` (10 R32) -/
  finfo : Word
  /-- `CAP` bits 31:0 (10 R33) -/
  cap : BitVec 32
  /-- `BIND` (10 R34) -/
  bind : Binding
  /-- `CHUNKSZ`: the active chunk width `W` (10 R35) -/
  chunksz : ChunkWidth
  /-- data memory (20 R60) -/
  mem : Memory
  /-- command memory `CmdMem` (20 R61) -/
  cmem : Memory
  /-- the model's own: the moves the environment will make, first one first (log entry 10) -/
  pending : List Event
  /-- the model's own: what the host's last read returned (log entry 10) -/
  reply : Option Word
  /-- the model's own: how many free values were drawn (log entry 8) -/
  draws : Nat
  deriving DecidableEq, Repr

/-- The machine right after reset (70 R300, R301): IDLE, `cpc`, `FCAUSE`, `FINFO` 0, `CAP` the strap, `BIND` and
`CHUNKSZ` computed, both memories with nothing listed. The parameters and the strap are the spec's defaults (log
entries 1, 2, 3). DESIGN CHOICE (log entries 4, 5), unsafe for a claim about this state alone: the spec leaves the
operand and chunk registers unspecified, and this state has them 0; the reset of the host action draws them freely. -/
def State.reset : State where
  cfg := Config.default
  strap := Config.defaultStrap
  regs := Vector.replicate 16 0
  cpc := 0
  chunks := Vector.replicate 4 (List.replicate 16 0)
  run := .idle
  fcause := none
  finfo := 0
  cap := Config.defaultStrap
  bind := bindingOf Config.defaultStrap Config.default
  chunksz := widthOf Config.default.wFallback (bindingOf Config.defaultStrap Config.default).cc
  mem := []
  cmem := []
  pending := []
  reply := none
  draws := 0

end Sys2Proof.Machine
end

