-- ==== Sys2Proof/Machine/Ops.lean ====
section
/-! DEFINITION. The named operations over memory and registers (spec 00 R11, 20), taking a fault (60 R266) and the one
way out of it, reset (60 R272, 70 R300). -/

namespace Sys2Proof.Machine

/-! ## Byte memories -/

/-- What an address nothing has written reads as, in both memories. DESIGN CHOICE (log entries 6, 7), unsafe for a
claim about the reset state alone: the spec gives no content. -/
def Memory.unlisted : Byte := 0

/-- The canonical form: addresses strictly rising, no entry equal to what an unlisted address reads as. -/
abbrev Memory.wf (m : Memory) : Prop :=
  m.Pairwise (fun c d => c.1 < d.1) ∧ ∀ c ∈ m, c.2 ≠ Memory.unlisted

/-- The byte at one address (20 R64). -/
def Memory.readByte (m : Memory) (a : Nat) : Byte :=
  match m with
  | [] => Memory.unlisted
  | (x, b) :: rest => if x = a then b else Memory.readByte rest a

/-- `MemRead(a, n)`: `n` bytes, lowest address first (00 R11). -/
def Memory.read (m : Memory) (a n : Nat) : List Byte := (List.range n).map fun i => Memory.readByte m (a + i)

/-- The listed cells of a run of bytes from address `a`. -/
def Memory.cells (a : Nat) : List Byte → Memory
  | [] => []
  | b :: bs => if b = Memory.unlisted then Memory.cells (a + 1) bs else (a, b) :: Memory.cells (a + 1) bs

/-- `MemWrite(a, n, v)`: byte `i` of `v` goes to address `a + i` (00 R11). The one write of both memories; it keeps the
canonical form. -/
def Memory.write (m : Memory) (a : Nat) (v : List Byte) : Memory :=
  if v = [] then m
  else m.filter (fun c => decide (c.1 < a)) ++ (Memory.cells a v ++ m.filter (fun c => decide (a + v.length ≤ c.1)))

/-- `LE(bytes)`: the little-endian reading (00 R11, 20 R66). -/
def le : List Byte → Nat
  | [] => 0
  | b :: bs => b.toNat + 256 * le bs

/-- `LEbytes_n(v)` (00 R11). -/
def leBytes : Nat → Nat → List Byte
  | 0, _ => []
  | n + 1, v => BitVec.ofNat 8 (v % 256) :: leBytes n (v / 256)

/-! ## Valid addresses and ranges -/

/-- A region holds an address. -/
def regionHas (r : Region) (x : Nat) : Bool := decide (r.base ≤ x) && decide (x < r.base + r.size)

/-- `Valid(x)` or `CmdValid(x)` of a list of regions (00 R8). -/
def validAddr (rs : List Region) (x : Nat) : Bool := rs.any fun r => regionHas r x

/-- Every address from `lo` up to but not including `hi` is in some region: what the first region leaves below and above
itself is covered by the others. -/
def covered : List Region → Nat → Nat → Bool
  | [], lo, hi => decide (hi ≤ lo)
  | r :: rs, lo, hi =>
    decide (hi ≤ lo) || (covered rs lo (min hi r.base) && covered rs (max lo (r.base + r.size)) hi)

/-- `ValidRange(a, n)` of a list of regions, over the unbounded integers (00 R11, R16). -/
def rangeIn (rs : List Region) (a : Int) (n : Nat) : Bool :=
  decide (n = 0) || (decide (0 ≤ a) && decide (a + n ≤ 2 ^ 64) && covered rs a.toNat (a.toNat + n))

/-- `ValidRange(a, n)` of data memory (00 R11). -/
def State.validRange (s : State) (a : Int) (n : Nat) : Bool := rangeIn s.cfg.valid a n

/-- `Disjoint(a, n, b, m)` (00 R11). -/
def disjoint (a n b m : Nat) : Bool :=
  decide (n = 0) || decide (m = 0) || decide (a + n ≤ b) || decide (b + m ≤ a)

/-! ## Registers -/

/-- `r[i]` (00 R11). -/
def State.reg (s : State) (i : Reg) : Word := s.regs[i.val]

/-- `r[i] <- v` (00 R11). -/
def State.setReg (s : State) (i : Reg) (v : Word) : State := { s with regs := s.regs.set i.val v }

/-- `c[j]` (00 R11). -/
def State.chunk (s : State) (j : CReg) : Chunk := s.chunks[j.val]

/-- `c[j] <- bytes` (00 R11). -/
def State.setChunk (s : State) (j : CReg) (v : Chunk) : State := { s with chunks := s.chunks.set j.val v }

/-- `W`, the active chunk width in bytes (10 R35). -/
def State.W (s : State) : Nat := s.chunksz.bytes

/-- `EB`, the width of a table entry in bytes (00 R6). -/
def State.EB (s : State) : Nat := s.cfg.entryWidth.bytes

/-- `MemRead` of data memory (00 R11). -/
def State.memRead (s : State) (a n : Nat) : List Byte := Memory.read s.mem a n

/-- `memory <- m`: data memory as a command leaves it. -/
def State.setMem (s : State) (m : Memory) : State := { s with mem := m }

/-- `MemWrite` to data memory (00 R11). -/
def State.memWrite (s : State) (a : Nat) (v : List Byte) : State := s.setMem (Memory.write s.mem a v)

/-- `STATUS <- r` (10 R29). -/
def State.setRun (s : State) (r : RunState) : State := { s with run := r }

/-- The advance after a command other than `END` that raised no fault: `cpc <- (cpc + 4) mod 2^64` (10 R25). -/
def State.advance (s : State) : State := { s with cpc := s.cpc + 4 }

/-! ## Free values -/

/-- `any_bytes(n)`: the next `n` unspecified bytes (00 R11, 93 U3; log entry 8). -/
def State.anyBytes (s : State) (n : Nat) : List Byte := (List.range n).map fun i => Config.freeByte (s.draws + i)

/-- Count `n` free values as drawn, so that the next draw gives others (log entry 8). -/
def State.drawn (s : State) (n : Nat) : State := { s with draws := s.draws + n }

/-! ## Taking a fault, and leaving it -/

/-- Fault entry (60 R266): exactly `STATUS`, `FCAUSE` and `FINFO` change. There is no return from a fault (60 R272);
`State.hostReset` is the one way out. -/
def State.takeFault (s : State) (c : Cause) (v : Word) : State :=
  { s with run := .faulted, fcause := some c, finfo := v }

/-- Reset as one action (70 R300 to R303): sample the strap, bind the families, fix `W`, clear the run state, and leave
operand and chunk registers unspecified, here drawn freely (10 R22, R44, 93 U1). Memories, parameters, the strap and the
environment's list are kept. -/
def State.hostReset (s : State) : State :=
  let b := bindingOf s.strap s.cfg
  let w := widthOf s.cfg.wFallback b.cc
  { s with
    cap := s.strap
    bind := b
    chunksz := w
    run := .idle
    cpc := 0
    fcause := none
    finfo := 0
    regs := Vector.ofFn fun i : Fin 16 => Config.freeWord (s.draws + i.val)
    chunks := Vector.ofFn fun j : Fin 4 => (List.range w.bytes).map fun i => Config.freeByte (s.draws + 16 + w.bytes * j.val + i)
    draws := s.draws + 16 + 4 * w.bytes }

/-- The result type of a command's meaning and of a step. -/
abbrev Result := Host.Outcome State Fault Refusal

/-- The command raises a fault: a next state, the fault taken (60 R266). -/
def raise (s : State) (c : Cause) (v : Word) : Result := .next (s.takeFault c v)

/-- The command completes and the sequencer advances (40 R120). -/
def complete (s : State) : Result := .next s.advance

end Sys2Proof.Machine
end

