-- ==== Sys2Proof/Machine/Operands.lean ====
section
/-! DEFINITION. Every reading a command gives to an operand (spec 10 R23, 30 R94, R95): the 64 bits of a register as an
address, length, count, distance or window size, its low 32 bits as a checksum state, and the immediate. -/

namespace Sys2Proof.Machine

/-- A register read as a byte address, a length, a count, a distance or a window size: all 64 bits, unsigned
(10 R23). -/
def State.num (s : State) (r : Reg) : Nat := (s.reg r).toNat

/-- A register read as a checksum state: bits 31:0, bits 63:32 ignored (43 R183). -/
def State.sumState (s : State) (r : Reg) : BitVec 32 := (s.reg r).setWidth 32

/-- `zext_64(imm20)` (30 R95). -/
def immValue (imm : Nat) : Word := (BitVec.ofNat 20 imm).setWidth 64

/-- `src = dst - dist` as an integer, negative when `dist > dst` (42 R158, 00 R16). -/
def State.backSource (s : State) (dst dist : Reg) : Int := (s.num dst : Int) - (s.num dist : Int)

end Sys2Proof.Machine
end

