-- ==== Sys2Proof/Machine/Checksum.lean ====
section
/-! DEFINITION. The rolling checksum command (spec 43). The constants are the spec's, which marks them as its general
knowledge (43 R181, R182; 93 K1; log entry 16). -/

namespace Sys2Proof.Machine

/-- `CK_BASE`, the modulus of both sub-sums (00 R6). -/
def ckBase : Nat := 65521

/-- The additive sum `A`: bits 15:0 of a state (43 R181). -/
def sumA (state : BitVec 32) : Nat := (state.extractLsb' 0 16).toNat

/-- The weighted sum `B`: bits 31:16 of a state (43 R181). -/
def sumB (state : BitVec 32) : Nat := (state.extractLsb' 16 16).toNat

/-- One byte of the recurrence (43 R182): `A = (A + d) mod CK_BASE`, then `B = (B + A) mod CK_BASE`. -/
def sumByte (p : Nat × Nat) (d : Byte) : Nat × Nat :=
  let a := (p.1 + d.toNat) % ckBase
  (a, (p.2 + a) % ckBase)

/-- `Checksum(state, d)` (43 R182): reduce both halves, take the bytes strictly in order, pack the sums. -/
def checksum (state : BitVec 32) (d : List Byte) : BitVec 32 :=
  let p := d.foldl sumByte (sumA state % ckBase, sumB state % ckBase)
  BitVec.ofNat 32 (p.2 * 65536 + p.1)

/-- `CKSUM rd, ra, rb, rc` (43 R184): state, data, `len`; the sources are read before `rd` is written. -/
def execCksum (rd ra rb rc : Reg) (s : State) : Result :=
  if s.validRange (s.num rb) (s.num rc) then
    complete (s.setReg rd ((checksum (s.sumState ra) (s.memRead (s.num rb) (s.num rc))).setWidth 64))
  else raise s .memFault (s.reg rb)

end Sys2Proof.Machine
end

