-- ==== Sys2Proof/Machine/ChunkBackend.lean ====
section
/-! DEFINITION. The chunk backend commands (spec 41): load, store and the four fills. -/

namespace Sys2Proof.Machine

/-- `CLOAD cd, ra` (41 R131): the `W` bytes at `r[ra]` into `c[cd]`, at any alignment. -/
def execCload (cd : CReg) (ra : Reg) (s : State) : Result :=
  if s.validRange (s.num ra) s.W then complete (s.setChunk cd (s.memRead (s.num ra) s.W))
  else raise s .memFault (s.reg ra)

/-- `CSTORE ra, cs` (41 R132): the `W` bytes of `c[cs]` to `r[ra]`, at any alignment. -/
def execCstore (ra : Reg) (cs : CReg) (s : State) : Result :=
  if s.validRange (s.num ra) s.W then complete (s.memWrite (s.num ra) (s.chunk cs))
  else raise s .memFault (s.reg ra)

/-- `Fill(u, k, W)` with `k` the length of the unit: byte `j` is `u[j mod k]` (41 R137). -/
def fill (u : List Byte) (W : Nat) : Chunk := (List.range W).map fun j => u.getD (j % u.length) 0

/-- The shared operation of the four fill commands (41 R133 to R138). -/
def fillChunk (k : FillUnit) (cd : CReg) (ra : Reg) (s : State) : Result :=
  if s.cfg.fillSupported.has k then
    if s.validRange (s.num ra) k.bytes then complete (s.setChunk cd (fill (s.memRead (s.num ra) k.bytes) s.W))
    else raise s .memFault (s.reg ra)
  else raise s .unsupportedFill (BitVec.ofNat 64 k.bytes)

/-- `CFILL1 cd, ra` (41 R133). -/
def execCfill1 (cd : CReg) (ra : Reg) (s : State) : Result := fillChunk .k1 cd ra s

/-- `CFILL2 cd, ra` (41 R134). -/
def execCfill2 (cd : CReg) (ra : Reg) (s : State) : Result := fillChunk .k2 cd ra s

/-- `CFILL4 cd, ra` (41 R135). -/
def execCfill4 (cd : CReg) (ra : Reg) (s : State) : Result := fillChunk .k4 cd ra s

/-- `CFILL8 cd, ra` (41 R136). -/
def execCfill8 (cd : CReg) (ra : Reg) (s : State) : Result := fillChunk .k8 cd ra s

end Sys2Proof.Machine
end

