-- ==== Sys2Proof/Machine/ChunkedCopy.lean ====
section
/-! DEFINITION. The chunked copy commands (spec 42): `CHUNKSZ`, `CPSAFE`, `CPOVL`, `CPUNR`. -/

namespace Sys2Proof.Machine

/-- `CHUNKSZ rd` (42 R150): `r[rd] <- zext_64(W)`. -/
def execChunksz (rd : Reg) (s : State) : Result := complete (s.setReg rd (BitVec.ofNat 64 s.W))

/-- The function `CopySafe` (42 R153): byte `i` of the source lands at `dst + i`. -/
def copySafe (m : Memory) (dst src len : Nat) : Memory := Memory.write m dst (Memory.read m src len)

/-- `CPSAFE ra, rb, rc` (42 R152). -/
def execCpsafe (ra rb rc : Reg) (s : State) : Result :=
  if s.num rc = 0 then complete s
  else if !disjoint (s.num rb) (s.num rc) (s.num ra) (s.num rc) then raise s .overlap (s.reg ra)
  else if !s.validRange (s.num rb) (s.num rc) then raise s .memFault (s.reg rb)
  else if !s.validRange (s.num ra) (s.num rc) then raise s .memFault (s.reg ra)
  else complete (s.setMem (copySafe s.mem (s.num ra) (s.num rb) (s.num rc)))

/-- The bytes an overlap copy produces: the `dist` bytes in front of `dst`, from `src`, repeated through `len` bytes
(42 R159, the closed form). -/
def patternBytes (m : Memory) (src dist len : Nat) : List Byte :=
  (List.range len).map fun i => Memory.readByte m (src + i % dist)

/-- The function `CopyOverlap`, in the closed form the command's rule uses (42 R158, R159). -/
def copyOverlap (m : Memory) (dst dist len : Nat) : Memory := Memory.write m dst (patternBytes m (dst - dist) dist len)

/-- The bytes `CPOVL` writes after `dst + len`: none when `dist >= W` (regime 1), otherwise `W - 1` free bytes
(42 R164; log entry 8). -/
def State.slackBytes (s : State) (dist : Nat) : List Byte := if s.W ≤ dist then [] else s.anyBytes (s.W - 1)

/-- The effect of an admitted `CPOVL` (42 R158): the pattern, then the slack. -/
def State.overlapEffect (s : State) (dst dist len : Nat) : State :=
  (s.drawn (s.slackBytes dist).length).setMem
    (Memory.write (copyOverlap s.mem dst dist len) (dst + len) (s.slackBytes dist))

/-- `CPOVL ra, rb, rc` (42 R158): `dst`, `dist`, `len`. -/
def execCpovl (ra rb rc : Reg) (s : State) : Result :=
  if s.num rb = 0 then raise s .badDistance 0
  else if s.num rc = 0 then complete s
  else if !s.validRange (s.backSource ra rb) (min (s.num rb) (s.num rc)) then raise s .memFault (s.reg ra - s.reg rb)
  else if !s.validRange (s.num ra) (s.num rc + s.W - 1) then raise s .memFault (s.reg ra)
  else complete (s.overlapEffect (s.num ra) (s.num rb) (s.num rc))

/-- The effect of an admitted `CPUNR`: the function `CopyUnrolled` (42 R167), its `W - 1` slack bytes free in every case
(log entry 8). -/
def State.unrolledEffect (s : State) (dst src len : Nat) : State :=
  (s.drawn (s.W - 1)).setMem
    (Memory.write (copySafe s.mem dst src len) (dst + len) (s.anyBytes (s.W - 1)))

/-- The two ranges of `CPUNR` are far enough apart (42 R166, R167). -/
def unrolledApart (dst src len W : Nat) : Bool := decide (src + len ≤ dst) || decide (dst + len + W - 1 ≤ src)

/-- `CPUNR ra, rb, rc` (42 R166): `dst`, `src`, `len`. -/
def execCpunr (ra rb rc : Reg) (s : State) : Result :=
  if s.num rc = 0 then complete s
  else if !unrolledApart (s.num ra) (s.num rb) (s.num rc) s.W then raise s .overlap (s.reg ra)
  else if !s.validRange (s.num rb) (s.num rc + s.W - 1) then raise s .memFault (s.reg rb)
  else if !s.validRange (s.num ra) (s.num rc + s.W - 1) then raise s .memFault (s.reg ra)
  else complete (s.unrolledEffect (s.num ra) (s.num rb) (s.num rc))

end Sys2Proof.Machine
end

