-- ==== Sys2Proof/Machine/HashSlide.lean ====
section
/-! DEFINITION. The hash-table window-slide command (spec 44). -/

namespace Sys2Proof.Machine

/-- `SlideEntry(e, w) = max(e - w, 0)` over the integers (44 R202). -/
def slideEntry (e w : Nat) : Nat := (max ((e : Int) - (w : Int)) 0).toNat

/-- Entry `i` of the table at `base` (44 R205): `EB` bytes, little-endian. -/
def entry (m : Memory) (eb base i : Nat) : Nat := le (Memory.read m (base + eb * i) eb)

/-- The bytes of a slid table of `count` entries (44 R201). -/
def slidBytes (m : Memory) (eb base count w : Nat) : List Byte :=
  (List.range count).flatMap fun i => leBytes eb (slideEntry (entry m eb base i) w)

/-- Slide every entry of one table (44 R201). -/
def slideTable (m : Memory) (eb base count w : Nat) : Memory := Memory.write m base (slidBytes m eb base count w)

/-- A table with entries has a base that is a multiple of `EB` (20 R69); a table of count 0 is not tested. -/
def tableAligned (eb base count : Nat) : Bool := decide (count = 0) || decide (base % eb = 0)

/-- `SLIDE ra, rb, rc, rd, re` (44 R201): `head`, its count, `prev`, its count, the window size. -/
def execSlide (ra rb rc rd re : Reg) (s : State) : Result :=
  if !tableAligned s.EB (s.num ra) (s.num rb) then raise s .misaligned (s.reg ra)
  else if !tableAligned s.EB (s.num rc) (s.num rd) then raise s .misaligned (s.reg rc)
  else if !s.validRange (s.num ra) (s.EB * s.num rb) then raise s .memFault (s.reg ra)
  else if !s.validRange (s.num rc) (s.EB * s.num rd) then raise s .memFault (s.reg rc)
  else if !disjoint (s.num ra) (s.EB * s.num rb) (s.num rc) (s.EB * s.num rd) then raise s .overlap (s.reg ra)
  else
    complete (s.setMem
      (slideTable (slideTable s.mem s.EB (s.num ra) (s.num rb) (s.num re)) s.EB (s.num rc) (s.num rd) (s.num re)))

end Sys2Proof.Machine
end

