-- ==== Sys2Proof/Machine/Sequencing.lean ====
section
/-! DEFINITION. The sequencing commands `END` and `SETI` (spec 40). -/

namespace Sys2Proof.Machine

/-- `END` (40 R122): `STATUS <- DONE`, the command pointer stays at this `END`. -/
def execEnd (s : State) : Result := .next (s.setRun .done)

/-- `SETI rd, imm20` (40 R123): `r[rd] <- zext_64(imm20)`. -/
def execSeti (rd : Reg) (imm : Nat) (s : State) : Result := complete (s.setReg rd (immValue imm))

end Sys2Proof.Machine
end

