-- ==== Sys2Proof/Syntax.lean ====
section
/-! DEFINITION. The fourteen commands of CCE-1 (spec 30 R96, R102), one constructor per row of the opcode table,
operands in the order of the assembler syntax. -/

namespace Sys2Proof

/-- A command. Register operands are names (30 R94); the immediate of `SETI` is the number of the assembler syntax
(30 R102), which `Instr.WellFormed` bounds by the width of its field. -/
inductive Instr where
  /-- `END` -/
  | endRun
  /-- `SETI rd, imm20` -/
  | seti (rd : Reg) (imm : Nat)
  /-- `CHUNKSZ rd` -/
  | chunksz (rd : Reg)
  /-- `CPSAFE dst, src, len` -/
  | cpsafe (ra rb rc : Reg)
  /-- `CPOVL dst, dist, len` -/
  | cpovl (ra rb rc : Reg)
  /-- `CPUNR dst, src, len` -/
  | cpunr (ra rb rc : Reg)
  /-- `CLOAD chunk, addr` -/
  | cload (cd : CReg) (ra : Reg)
  /-- `CSTORE addr, chunk` -/
  | cstore (ra : Reg) (cs : CReg)
  /-- `CFILL1 chunk, unit_addr` -/
  | cfill1 (cd : CReg) (ra : Reg)
  /-- `CFILL2 chunk, unit_addr` -/
  | cfill2 (cd : CReg) (ra : Reg)
  /-- `CFILL4 chunk, unit_addr` -/
  | cfill4 (cd : CReg) (ra : Reg)
  /-- `CFILL8 chunk, unit_addr` -/
  | cfill8 (cd : CReg) (ra : Reg)
  /-- `CKSUM result, state, data, len` -/
  | cksum (rd ra rb rc : Reg)
  /-- `SLIDE head, head_count, prev, prev_count, window_size` -/
  | slide (ra rb rc rd re : Reg)
  deriving DecidableEq, Repr

end Sys2Proof
end

