-- ==== Sys2Proof/Machine/Dispatch.lean ====
section
/-! DEFINITION. One arm per command, each one call of its meaning (spec 40 R120, `Execute` and the advance). -/

namespace Sys2Proof.Machine

def exec (i : Instr) (s : State) : Host.Outcome State Fault Refusal :=
  match i with
  | .endRun => Sys2Proof.Machine.execEnd s
  | .seti rd imm => Sys2Proof.Machine.execSeti rd imm s
  | .chunksz rd => Sys2Proof.Machine.execChunksz rd s
  | .cpsafe ra rb rc => Sys2Proof.Machine.execCpsafe ra rb rc s
  | .cpovl ra rb rc => Sys2Proof.Machine.execCpovl ra rb rc s
  | .cpunr ra rb rc => Sys2Proof.Machine.execCpunr ra rb rc s
  | .cload cd ra => Sys2Proof.Machine.execCload cd ra s
  | .cstore ra cs => Sys2Proof.Machine.execCstore ra cs s
  | .cfill1 cd ra => Sys2Proof.Machine.execCfill1 cd ra s
  | .cfill2 cd ra => Sys2Proof.Machine.execCfill2 cd ra s
  | .cfill4 cd ra => Sys2Proof.Machine.execCfill4 cd ra s
  | .cfill8 cd ra => Sys2Proof.Machine.execCfill8 cd ra s
  | .cksum rd ra rb rc => Sys2Proof.Machine.execCksum rd ra rb rc s
  | .slide ra rb rc rd re => Sys2Proof.Machine.execSlide ra rb rc rd re s

end Sys2Proof.Machine
end

