-- ==== Sys2Proof/Machine/Flags.lean ====
section
/-! DEFINITION. The CCE has no condition codes (spec 10 R50); its only status bits are those of `STATUS`. This file holds
the encodings of the control registers as their 64-bit readings (10 R27 to R35). -/

namespace Sys2Proof.Machine

/-- `STATUS`: `RUN` bit 0, `DONE` bit 1, `FAULT` bit 2, the rest 0 (10 R28, R29). -/
def RunState.status : RunState → Word
  | .idle => 0b000
  | .running => 0b001
  | .done => 0b010
  | .faulted => 0b100

/-- The cause codes (60 R260). -/
def Cause.code : Cause → Word
  | .cmdFetchFault => 1
  | .illegalCommand => 2
  | .unsupportedFill => 3
  | .badDistance => 4
  | .overlap => 5
  | .misaligned => 6
  | .memFault => 7

/-- `FCAUSE`: the code, 0 when no fault has been taken since reset (10 R31). -/
def causeCode : Option Cause → Word
  | none => 0
  | some c => c.code

/-- The selector values of `BIND` (10 R34). -/
def selectorCode : Backend → BitVec 2
  | .scalar => 0
  | .vec128 => 1
  | .vec256 => 2
  | .vec512 => 3

/-- `BIND`: `CC_SEL` bits 1:0, `CK_SEL` bits 3:2, `HS_SEL` bits 5:4, the rest 0 (10 R34). -/
def Binding.word (b : Binding) : Word :=
  (selectorCode b.hs ++ selectorCode b.ck ++ selectorCode b.cc).setWidth 64

/-- Control register `n` as a read returns it; numbers 7 and above do not exist and read 0 (10 R27). -/
def State.csr (s : State) (n : Nat) : Word :=
  match n with
  | 0 => s.run.status
  | 1 => s.cpc
  | 2 => causeCode s.fcause
  | 3 => s.finfo
  | 4 => s.cap.setWidth 64
  | 5 => s.bind.word
  | 6 => BitVec.ofNat 64 s.W
  | _ => 0

end Sys2Proof.Machine
end

