-- ==== Sys2Proof/Machine/Environment.lean ====
section
/-! DEFINITION. The host's actions and the moves of the rest of the environment (spec 50 R242, 20 R79, 70 R302). -/

namespace Sys2Proof.Machine

/-- `STATUS.RUN` = 1 (10 R28). -/
def State.isRunning (s : State) : Bool := decide (s.run = .running)

/-- `HostReadCsr(n)`: always allowed (50 R242). -/
def hostReadCsr (n : Nat) (s : State) : Result := .next { s with reply := some (s.csr n) }

/-- `HostWriteCsr(n, v)`: `CPC` while `RUN` = 0; every other write is ignored (50 R242, 10 R30). -/
def hostWriteCsr (n : Nat) (v : Word) (s : State) : Result :=
  if n = 1 ∧ s.run ≠ .running then .next { s with cpc := v } else .next s

/-- `HostReadReg(i)`: the register while `RUN` = 0, an unspecified value while `RUN` = 1 (50 R242, 93 U13; log entry
14). -/
def hostReadReg (i : Reg) (s : State) : Result :=
  if s.run = .running then .next { s.drawn 1 with reply := some (Config.freeWord s.draws) }
  else .next { s with reply := some (s.reg i) }

/-- `HostWriteReg(i, v)`: while `RUN` = 0; ignored while `RUN` = 1 (50 R242). -/
def hostWriteReg (i : Reg) (v : Word) (s : State) : Result :=
  if s.run = .running then .next s else .next (s.setReg i v)

/-- `HostWriteCmd(a, byte)`: while `RUN` = 0 and for `CmdValid(a)`; the spec gives no effect otherwise (50 R242, R245;
log entry 11). -/
def hostWriteCmd (a : Word) (b : Byte) (s : State) : Result :=
  if s.run = .running then .refused .cmdWriteWhileRunning
  else if validAddr s.cfg.cmdValid a.toNat then .next { s with cmem := Memory.write s.cmem a.toNat [b] }
  else .refused .cmdAddressInvalid

/-- `HostStart`: from IDLE or DONE, at the current `cpc`; ignored in RUNNING and FAULTED (50 R242, R244). -/
def hostStart (s : State) : Result :=
  match s.run with
  | .idle => .next (s.setRun .running)
  | .done => .next (s.setRun .running)
  | .running => .next s
  | .faulted => .next s

/-- `HostReset`: always allowed (50 R242). -/
def hostResetAction (s : State) : Result := .next s.hostReset

/-- A data-memory read by the host at a valid address (50 R242, 20 R64). -/
def hostReadMem (a : Word) (s : State) : Result :=
  if validAddr s.cfg.valid a.toNat then .next { s with reply := some ((Memory.readByte s.mem a.toNat).setWidth 64) }
  else .refused .dataAddressInvalid

/-- A data-memory write at a valid address, by the host or another agent, between two commands (50 R242, 20 R64,
R79). -/
def writeDataByte (a : Word) (b : Byte) (s : State) : Result :=
  if validAddr s.cfg.valid a.toNat then .next (s.memWrite a.toNat [b]) else .refused .dataAddressInvalid

/-- The effect of a host action (50 R242). -/
def hostAct (a : HostAction) (s : State) : Result :=
  match a with
  | .readCsr n => hostReadCsr n s
  | .writeCsr n v => hostWriteCsr n v s
  | .readReg i => hostReadReg i s
  | .writeReg i v => hostWriteReg i v s
  | .writeCmd a b => hostWriteCmd a b s
  | .start => hostStart s
  | .reset => hostResetAction s
  | .readMem a => hostReadMem a s
  | .writeMem a b => writeDataByte a b s

/-- The strap input changes; nothing sees it before the next reset (70 R302). -/
def strapChange (caps : BitVec 32) (s : State) : Result := .next { s with strap := caps }

end Sys2Proof.Machine
end

