-- ==== Sys2Proof/WellFormed.lean ====
section
/-! DEFINITION. Which command terms have an encoding. A register operand is in range by its type (spec 30 R94); the
one check left is the range of `SETI`'s immediate (30 R95, R102). -/

namespace Sys2Proof

/-- The immediate of `SETI` is a number in `0 .. 0xFFFFF` (30 R102); every other operand is a register name. -/
def Instr.wellFormed : Instr → Bool
  | .endRun => true
  | .seti _ imm => decide (imm ≤ 0xFFFFF)
  | .chunksz _ => true
  | .cpsafe _ _ _ => true
  | .cpovl _ _ _ => true
  | .cpunr _ _ _ => true
  | .cload _ _ => true
  | .cstore _ _ => true
  | .cfill1 _ _ => true
  | .cfill2 _ _ => true
  | .cfill4 _ _ => true
  | .cfill8 _ _ => true
  | .cksum _ _ _ _ => true
  | .slide _ _ _ _ _ => true

/-- The command term has an encoding. -/
abbrev Instr.WellFormed (i : Instr) : Prop := i.wellFormed = true

end Sys2Proof
end

