-- ==== Sys2Proof/Decode.lean ====
section
/-! DEFINITION. Decoding, total on any word and any bytes, refusing by name; and the encoder (spec 30 R90 to R104). -/

namespace Sys2Proof

/-- Why a word or a byte sequence is no command. The first two are the spec's `Illegal` (30 R97), told apart. -/
inductive Illegal where
  /-- The opcode byte is none of the fourteen (30 R99). -/
  | unassignedOpcode
  /-- A bit the format does not use is 1, a chunk-register field above 3 among them (30 R94, R98). -/
  | mustBeZeroBit
  /-- Fewer than four bytes: no whole word (30 R90). -/
  | truncated
  deriving DecidableEq, Repr

/-- The fourteen rows of the opcode map (30 R96). -/
inductive Op where
  | endRun | seti | chunksz | cpsafe | cpovl | cpunr | cload | cstore | cfill1 | cfill2 | cfill4 | cfill8 | cksum | slide
  deriving DecidableEq, Repr

/-- Column `opcode` of 30 R96. -/
def Op.code : Op → BitVec 8
  | .endRun => 0x01
  | .seti => 0x02
  | .chunksz => 0x10
  | .cpsafe => 0x11
  | .cpovl => 0x12
  | .cpunr => 0x13
  | .cload => 0x20
  | .cstore => 0x21
  | .cfill1 => 0x24
  | .cfill2 => 0x25
  | .cfill4 => 0x26
  | .cfill8 => 0x27
  | .cksum => 0x30
  | .slide => 0x40

/-- Column `match` of 30 R96. -/
def Op.pattern : Op → CmdWord
  | .endRun => 0x00000001
  | .seti => 0x00000002
  | .chunksz => 0x00000010
  | .cpsafe => 0x00000011
  | .cpovl => 0x00000012
  | .cpunr => 0x00000013
  | .cload => 0x00000020
  | .cstore => 0x00000021
  | .cfill1 => 0x00000024
  | .cfill2 => 0x00000025
  | .cfill4 => 0x00000026
  | .cfill8 => 0x00000027
  | .cksum => 0x00000030
  | .slide => 0x00000040

/-- Column `mask` of 30 R96. -/
def Op.mask : Op → CmdWord
  | .endRun => 0xFFFFFFFF
  | .seti => 0x000000FF
  | .chunksz => 0xFFFFF0FF
  | .cpsafe => 0xFFF000FF
  | .cpovl => 0xFFF000FF
  | .cpunr => 0xFFF000FF
  | .cload => 0xFFFF0CFF
  | .cstore => 0xFFFFC0FF
  | .cfill1 => 0xFFFF0CFF
  | .cfill2 => 0xFFFF0CFF
  | .cfill4 => 0xFFFF0CFF
  | .cfill8 => 0xFFFF0CFF
  | .cksum => 0xFF0000FF
  | .slide => 0xF00000FF

/-- The row whose opcode is the given byte (30 R97, R99). -/
def Op.ofCode (c : BitVec 8) : Option Op :=
  [Op.endRun, .seti, .chunksz, .cpsafe, .cpovl, .cpunr, .cload, .cstore, .cfill1, .cfill2, .cfill4, .cfill8, .cksum,
    .slide].find? fun o => o.code == c

/-- The 4-bit operand-register field whose lowest bit is `lo` (30 R91, R94). -/
def regField (w : CmdWord) (lo : Nat) : Reg := (w.extractLsb' lo 4).toFin

/-- The low two bits of the chunk-register field whose lowest bit is `lo`; the mask check has seen that its other two
bits are 0 (30 R92, R94). -/
def cregField (w : CmdWord) (lo : Nat) : CReg := (w.extractLsb' lo 2).toFin

/-- `imm20`: bits 31:12, unsigned (30 R95). -/
def immField (w : CmdWord) : Nat := (w.extractLsb' 12 20).toNat

/-- The command of a row with its fields read from the word (30 R92, R93). -/
def Op.build (w : CmdWord) : Op → Instr
  | .endRun => .endRun
  | .seti => .seti (regField w 8) (immField w)
  | .chunksz => .chunksz (regField w 8)
  | .cpsafe => .cpsafe (regField w 8) (regField w 12) (regField w 16)
  | .cpovl => .cpovl (regField w 8) (regField w 12) (regField w 16)
  | .cpunr => .cpunr (regField w 8) (regField w 12) (regField w 16)
  | .cload => .cload (cregField w 8) (regField w 12)
  | .cstore => .cstore (regField w 8) (cregField w 12)
  | .cfill1 => .cfill1 (cregField w 8) (regField w 12)
  | .cfill2 => .cfill2 (cregField w 8) (regField w 12)
  | .cfill4 => .cfill4 (cregField w 8) (regField w 12)
  | .cfill8 => .cfill8 (cregField w 8) (regField w 12)
  | .cksum => .cksum (regField w 8) (regField w 12) (regField w 16) (regField w 20)
  | .slide => .slide (regField w 8) (regField w 12) (regField w 16) (regField w 20) (regField w 24)

/-- `Decode(w)` (30 R97): find the row by opcode, refuse a non-zero must-be-zero bit, read the fields. -/
def decode (w : CmdWord) : Except Illegal Instr :=
  match Op.ofCode (w.extractLsb' 0 8) with
  | none => .error .unassignedOpcode
  | some o => if w &&& o.mask = o.pattern then .ok (o.build w) else .error .mustBeZeroBit

/-- The word of four bytes, the lowest address first and holding bits 7:0 (30 R90, 20 R66). -/
def wordOfBytes (b0 b1 b2 b3 : Byte) : CmdWord := b3 ++ b2 ++ b1 ++ b0

/-- Decode a byte sequence: one command, four bytes long (30 R100), and the bytes after it. -/
def decodeBytes : List Byte → Except Illegal (Instr × List Byte)
  | b0 :: b1 :: b2 :: b3 :: rest =>
    match decode (wordOfBytes b0 b1 b2 b3) with
    | .ok i => .ok (i, rest)
    | .error e => .error e
  | _ => .error .truncated

/-- The row a command belongs to. -/
def Instr.op : Instr → Op
  | .endRun => .endRun
  | .seti _ _ => .seti
  | .chunksz _ => .chunksz
  | .cpsafe _ _ _ => .cpsafe
  | .cpovl _ _ _ => .cpovl
  | .cpunr _ _ _ => .cpunr
  | .cload _ _ => .cload
  | .cstore _ _ => .cstore
  | .cfill1 _ _ => .cfill1
  | .cfill2 _ _ => .cfill2
  | .cfill4 _ _ => .cfill4
  | .cfill8 _ _ => .cfill8
  | .cksum _ _ _ _ => .cksum
  | .slide _ _ _ _ _ => .slide

/-- A word from its opcode and its fields `f0` to `f4` (30 R91, R104). -/
def packWord (op : BitVec 8) (f0 f1 f2 f3 f4 : BitVec 4) : CmdWord :=
  op.setWidth 32 ||| f0.setWidth 32 <<< 8 ||| f1.setWidth 32 <<< 12 ||| f2.setWidth 32 <<< 16 |||
    f3.setWidth 32 <<< 20 ||| f4.setWidth 32 <<< 24

/-- The 4-bit field that names an operand register (30 R94). -/
def regBits (r : Reg) : BitVec 4 := .ofFin r

/-- The 4-bit field that names a chunk register (30 R94). -/
def cregBits (c : CReg) : BitVec 4 := .ofNat 4 c.val

/-- `Encode` (30 R104): operands in field order (30 R93), unused fields 0. -/
def encode : Instr → CmdWord
  | .endRun => packWord 0x01 0 0 0 0 0
  | .seti rd imm => (0x02 : CmdWord) ||| (regBits rd).setWidth 32 <<< 8 ||| (BitVec.ofNat 20 imm).setWidth 32 <<< 12
  | .chunksz rd => packWord 0x10 (regBits rd) 0 0 0 0
  | .cpsafe ra rb rc => packWord 0x11 (regBits ra) (regBits rb) (regBits rc) 0 0
  | .cpovl ra rb rc => packWord 0x12 (regBits ra) (regBits rb) (regBits rc) 0 0
  | .cpunr ra rb rc => packWord 0x13 (regBits ra) (regBits rb) (regBits rc) 0 0
  | .cload cd ra => packWord 0x20 (cregBits cd) (regBits ra) 0 0 0
  | .cstore ra cs => packWord 0x21 (regBits ra) (cregBits cs) 0 0 0
  | .cfill1 cd ra => packWord 0x24 (cregBits cd) (regBits ra) 0 0 0
  | .cfill2 cd ra => packWord 0x25 (cregBits cd) (regBits ra) 0 0 0
  | .cfill4 cd ra => packWord 0x26 (cregBits cd) (regBits ra) 0 0 0
  | .cfill8 cd ra => packWord 0x27 (cregBits cd) (regBits ra) 0 0 0
  | .cksum rd ra rb rc => packWord 0x30 (regBits rd) (regBits ra) (regBits rb) (regBits rc) 0
  | .slide ra rb rc rd re => packWord 0x40 (regBits ra) (regBits rb) (regBits rc) (regBits rd) (regBits re)

/-- The four bytes of a word in command memory, lowest address first (30 R90). -/
def bytesOfWord (w : CmdWord) : List Byte :=
  [w.extractLsb' 0 8, w.extractLsb' 8 8, w.extractLsb' 16 8, w.extractLsb' 24 8]

/-- The word whose bits the opcode table numbers: `w` taken to `nbits` bits, every bit above them 0. -/
def tableWord (nbits w : Nat) : CmdWord := BitVec.ofNat 32 (w % 2 ^ nbits)

/-- What the decoder reads from an instruction whose bits are `w`, laid out in command memory as `bytesOfWord` says. -/
def decodeTableWord (nbits w : Nat) : Option Instr :=
  match decodeBytes (bytesOfWord (tableWord nbits w)) with
  | .ok (i, _) => some i
  | .error _ => none

end Sys2Proof
end

