-- ==== Sys2Proof/Machine/Fetch.lean ====
section
/-! DEFINITION. Fetching and decoding the next command (spec 40 R120, 60 R261, R262). -/

namespace Sys2Proof.Machine

/-- The fetch is admitted: `cpc` a multiple of 4 and all four bytes `CmdValid` (40 R120). -/
def State.fetchable (s : State) : Bool :=
  decide (s.cpc.toNat % 4 = 0) && rangeIn s.cfg.cmdValid s.cpc.toNat 4

/-- The four bytes at `cpc` in command memory (30 R90). -/
def State.fetchBytes (s : State) : List Byte := Memory.read s.cmem s.cpc.toNat 4

/-- The word at `cpc`, little-endian (30 R90, 20 R66). -/
def State.fetchWord (s : State) : CmdWord := BitVec.ofNat 32 (le s.fetchBytes)

/-- Fetch, then decode: the command at `cpc`, or the cause and information word of the fault (40 R120, 60 R271). -/
def State.fetchDecode (s : State) : Except (Cause × Word) Instr :=
  if s.fetchable then
    match decodeBytes s.fetchBytes with
    | .ok (i, _) => .ok i
    | .error _ => .error (.illegalCommand, s.fetchWord.setWidth 64)
  else .error (.cmdFetchFault, s.cpc)

/-- Place the bytes of a word at `cpc` and let the sequencer run: the host's load and start (50 R242, 70 R305; log entry
18). `cpc` is rounded down to a multiple of 4 and its four bytes are made `CmdValid`, as the fetch needs. -/
def State.placeCommand (s : State) (w : CmdWord) : State :=
  let pc : Word := s.cpc &&& ~~~3#64
  { s with
    cpc := pc
    cfg := { s.cfg with
      cmdValid := if rangeIn s.cfg.cmdValid pc.toNat 4 then s.cfg.cmdValid else { base := pc.toNat, size := 4 } :: s.cfg.cmdValid }
    cmem := Memory.write s.cmem pc.toNat (bytesOfWord w)
    run := .running
    pending := [] }

end Sys2Proof.Machine
end

