-- ==== Sys2Proof/Machine/Step.lean ====
section
/-! DEFINITION. One step (spec 40 R120, 50 R242): the environment's next move when one is pending, otherwise one command
of the sequencer. -/

namespace Sys2Proof.Machine

/-- One step of the sequencer, taken only while `STATUS` is RUNNING (40 R120): fetch, decode, execute and advance. -/
def sequencerStep (s : State) : Host.Outcome State Fault Refusal :=
  if s.isRunning then
    match s.fetchDecode with
    | .ok i => exec i s
    | .error (c, v) => raise s c v
  else .fault .sequencerStopped

/-- The move an event stands for (00 R17, 50 R242). -/
def eventAct (e : Event) (s : State) : Host.Outcome State Fault Refusal :=
  match e with
  | .sequencer => sequencerStep s
  | .host a => hostAct a s
  | .setStrap caps => strapChange caps s
  | .agentWrite a b => writeDataByte a b s

/-- One step of the whole machine: the first pending event, or, when none is pending, the sequencer (log entry 10). -/
def step (s : State) : Host.Outcome State Fault Refusal :=
  match s.pending with
  | [] => sequencerStep s
  | e :: rest => eventAct e { s with pending := rest }

/-- The state in which the very next step fetches and runs the instruction whose bits are `w` (log entry 18). -/
def State.withFetchWord (s : State) (nbits w : Nat) : State := s.placeCommand (tableWord nbits w)

end Sys2Proof.Machine
end

