-- ==== Sys2Proof/Machine/Assembler.lean ====
section
/-! DEFINITION. The assembler syntax of one line (spec 30 R102) and the pseudo-command `CFILL` (30 R103). Text is a list
of characters. -/

namespace Sys2Proof.Machine

/-- Why a line is no command. Safe: the line names no word. -/
inductive AsmError where
  /-- the mnemonic is none of the fourteen and not `CFILL` -/
  | unknownMnemonic
  /-- the operands are not those the mnemonic takes, or one of them is out of range -/
  | badOperands
  deriving DecidableEq, Repr

/-- A blank of the line (log entry 28). -/
def isBlank (c : Char) : Bool := c == ' ' || c == '\t'

/-- The line up to its comment: a `;` starts a comment that runs to the end (30 R102). -/
def stripComment (line : List Char) : List Char := line.takeWhile fun c => c != ';'

/-- Drop blanks at both ends. -/
def trimBlanks (t : List Char) : List Char := ((t.dropWhile isBlank).reverse.dropWhile isBlank).reverse

/-- The pieces of a text between commas. -/
def splitCommas : List Char → List (List Char)
  | [] => [[]]
  | c :: cs =>
    if c = ',' then [] :: splitCommas cs
    else
      match splitCommas cs with
      | [] => [[c]]
      | p :: ps => (c :: p) :: ps

/-- The operands of a line: pieces between commas without their outer blanks; none in an empty text. -/
def operandTexts (t : List Char) : List (List Char) :=
  if trimBlanks t = [] then [] else (splitCommas t).map trimBlanks

/-- The value of a digit in a base up to 16; both cases of a hexadecimal letter are read (log entry 28). -/
def digitValue (base : Nat) (c : Char) : Option Nat :=
  let n := c.toNat
  let d := if 48 ≤ n ∧ n ≤ 57 then n - 48 else if 97 ≤ n ∧ n ≤ 102 then n - 87 else if 65 ≤ n ∧ n ≤ 70 then n - 55 else base
  if d < base then some d else none

/-- Digits in a base, the most significant first, onto an accumulator. -/
def readDigits (base : Nat) : Nat → List Char → Option Nat
  | acc, [] => some acc
  | acc, c :: cs =>
    match digitValue base c with
    | some d => readDigits base (acc * base + d) cs
    | none => none

/-- A decimal number, at least one digit. -/
def readDecimal (t : List Char) : Option Nat := if t = [] then none else readDigits 10 0 t

/-- A decimal or `0x` hexadecimal number (30 R102). -/
def readNumber : List Char → Option Nat
  | '0' :: 'x' :: d :: ds => readDigits 16 0 (d :: ds)
  | t => readDecimal t

/-- An operand register `r0` to `r15` (30 R102). -/
def readReg : List Char → Option Reg
  | 'r' :: t =>
    match readDecimal t with
    | some n => if h : n < 16 then some ⟨n, h⟩ else none
    | none => none
  | _ => none

/-- A chunk register `c0` to `c3` (30 R102). -/
def readCReg : List Char → Option CReg
  | 'c' :: t =>
    match readDecimal t with
    | some n => if h : n < 4 then some ⟨n, h⟩ else none
    | none => none
  | _ => none

/-- The pseudo-command `CFILL cd, ra, k` (30 R103): the fill of that unit size; no other `k` has one. -/
def expandCfill (cd : CReg) (ra : Reg) : Nat → Option Instr
  | 1 => some (.cfill1 cd ra)
  | 2 => some (.cfill2 cd ra)
  | 4 => some (.cfill4 cd ra)
  | 8 => some (.cfill8 cd ra)
  | _ => none

/-- `SETI reg, value`: the value in `0 .. 0xFFFFF`. -/
def asmSeti (rd : Reg) (imm : Nat) : Option Instr := if imm ≤ 0xFFFFF then some (.seti rd imm) else none

/-- A command with three operand registers. -/
def asmR3 (make : Reg → Reg → Reg → Instr) : List (List Char) → Option Instr
  | [a, b, c] => do return make (← readReg a) (← readReg b) (← readReg c)
  | _ => none

/-- A command with a chunk register and an operand register. -/
def asmCR (make : CReg → Reg → Instr) : List (List Char) → Option Instr
  | [c, a] => do return make (← readCReg c) (← readReg a)
  | _ => none

/-- The command of a mnemonic and its operands, in the order of 30 R96 and R102. The spec gives the hexadecimal form to
`SETI`'s immediate alone; that the `k` of `CFILL` (30 R103) is read in either form, as the same number, is a DESIGN CHOICE
(log entry 28; safe: no command's meaning depends on it). -/
def asmCommand (mnemonic : List Char) (ops : List (List Char)) : Except AsmError Instr :=
  let known (r : Option Instr) : Except AsmError Instr := match r with
    | some i => .ok i
    | none => .error .badOperands
  if mnemonic = ['E', 'N', 'D'] then known (if ops = [] then some .endRun else none)
  else if mnemonic = ['S', 'E', 'T', 'I'] then known (match ops with
    | [r, n] => do asmSeti (← readReg r) (← readNumber n)
    | _ => none)
  else if mnemonic = ['C', 'H', 'U', 'N', 'K', 'S', 'Z'] then known (match ops with
    | [r] => do return .chunksz (← readReg r)
    | _ => none)
  else if mnemonic = ['C', 'P', 'S', 'A', 'F', 'E'] then known (asmR3 .cpsafe ops)
  else if mnemonic = ['C', 'P', 'O', 'V', 'L'] then known (asmR3 .cpovl ops)
  else if mnemonic = ['C', 'P', 'U', 'N', 'R'] then known (asmR3 .cpunr ops)
  else if mnemonic = ['C', 'L', 'O', 'A', 'D'] then known (asmCR .cload ops)
  else if mnemonic = ['C', 'S', 'T', 'O', 'R', 'E'] then known (match ops with
    | [a, c] => do return .cstore (← readReg a) (← readCReg c)
    | _ => none)
  else if mnemonic = ['C', 'F', 'I', 'L', 'L', '1'] then known (asmCR .cfill1 ops)
  else if mnemonic = ['C', 'F', 'I', 'L', 'L', '2'] then known (asmCR .cfill2 ops)
  else if mnemonic = ['C', 'F', 'I', 'L', 'L', '4'] then known (asmCR .cfill4 ops)
  else if mnemonic = ['C', 'F', 'I', 'L', 'L', '8'] then known (asmCR .cfill8 ops)
  else if mnemonic = ['C', 'F', 'I', 'L', 'L'] then known (match ops with
    | [c, a, k] => do expandCfill (← readCReg c) (← readReg a) (← readNumber k)
    | _ => none)
  else if mnemonic = ['C', 'K', 'S', 'U', 'M'] then known (match ops with
    | [d, a, b, c] => do return .cksum (← readReg d) (← readReg a) (← readReg b) (← readReg c)
    | _ => none)
  else if mnemonic = ['S', 'L', 'I', 'D', 'E'] then known (match ops with
    | [a, b, c, d, e] => do return .slide (← readReg a) (← readReg b) (← readReg c) (← readReg d) (← readReg e)
    | _ => none)
  else .error .unknownMnemonic

/-- One line of assembler text: nothing but blanks and a comment is no command; otherwise a mnemonic, then its operands
separated by commas (30 R102). There are no labels and no directives. The spec is silent on blanks: that those before the
mnemonic, and those at the end of the line or before its comment, are dropped is a DESIGN CHOICE (log entry 28; safe: no
command's meaning depends on it). -/
def assembleLine (line : List Char) : Except AsmError (Option Instr) :=
  let t := trimBlanks (stripComment line)
  if t = [] then .ok none
  else
    match asmCommand (t.takeWhile fun c => !isBlank c) (operandTexts (t.dropWhile fun c => !isBlank c)) with
    | .ok i => .ok (some i)
    | .error e => .error e

/-! The texts the syntax of 30 R102 gives registers, numbers and lines. -/

/-- `r0` to `r15`. -/
def regText (r : Reg) : List Char := 'r' :: Nat.toDigits 10 r.val

/-- `c0` to `c3`. -/
def cregText (c : CReg) : List Char := 'c' :: Nat.toDigits 10 c.val

/-- A number in decimal. -/
def decText (n : Nat) : List Char := Nat.toDigits 10 n

/-- A number in `0x` hexadecimal. -/
def hexText (n : Nat) : List Char := '0' :: 'x' :: Nat.toDigits 16 n

/-- Operands separated by commas. -/
def joinOperands : List (List Char) → List Char
  | [] => []
  | [t] => t
  | t :: u :: ts => t ++ ',' :: ' ' :: joinOperands (u :: ts)

/-- A mnemonic, then its operands. -/
def lineText (mnemonic : String) (ops : List (List Char)) : List Char :=
  mnemonic.toList ++ ' ' :: joinOperands ops

end Sys2Proof.Machine
end

