-- ==== Sys2Proof/Machine/CopyRegimes.lean ====
section
/-! DEFINITION. How the copy engine reaches the result of `CPOVL` (spec 42 R159 to R163): the reference byte loop and the
schedules of the three regimes. `exec` uses the closed form; claims prove these agree with it. -/

namespace Sys2Proof.Machine

/-- The reference byte loop: `for i = 0 .. len-1: mem[dst + i] <- mem[dst + i - dist]` (42 R159). -/
def byteLoop (m : Memory) (dst dist : Nat) : Nat → Memory
  | 0 => m
  | len + 1 =>
    let before := byteLoop m dst dist len
    Memory.write before (dst + len) [Memory.readByte before (dst + len - dist)]

/-- The three cases of the overlap copy (42 R160). -/
inductive Regime where
  /-- wide distance -/
  | wide
  /-- a distance that is a supported fill unit -/
  | fillUnit
  /-- every other distance below `W` -/
  | narrow
  deriving DecidableEq, Repr

/-- `dist` is a supported fill unit (42 R160 regime 2). -/
def fillDistance (f : FillSet) (dist : Nat) : Bool :=
  [FillUnit.k1, .k2, .k4, .k8].any fun k => f.has k && k.bytes == dist

/-- The regime of a distance (42 R160). -/
def regimeOf (f : FillSet) (W dist : Nat) : Regime :=
  if W ≤ dist then .wide else if fillDistance f dist then .fillUnit else .narrow

/-- `n` whole-chunk copies in increasing order: `Store(dst + tW, Load(src + tW))` for `t` = 0 .. n-1 (42 R161). -/
def chunkCopies (m : Memory) (dst src W : Nat) : Nat → Memory
  | 0 => m
  | n + 1 =>
    let before := chunkCopies m dst src W n
    Memory.write before (dst + n * W) (Memory.read before (src + n * W) W)

/-- Regime 1: whole chunks while they fit, then `CopySafe` for the remainder (42 R160, R161). -/
def wideCopy (m : Memory) (dst dist len W : Nat) : Memory :=
  copySafe (chunkCopies m dst (dst - dist) W (len / W)) (dst + len / W * W) (dst - dist + len / W * W) (len % W)

/-- `n` stores of one chunk at `dst`, `dst + W`, ... (42 R162). -/
def chunkStores (m : Memory) (dst W : Nat) (c : Chunk) : Nat → Memory
  | 0 => m
  | n + 1 => Memory.write (chunkStores m dst W c n) (dst + n * W) c

/-- Regime 2: the unit broadcast to a chunk and stored directly until `len` bytes are covered; the last store may run up
to `W - 1` bytes past `dst + len` (42 R162). -/
def fillCopy (m : Memory) (dst dist len W : Nat) : Memory :=
  chunkStores m dst W (fill (Memory.read m (dst - dist) dist) W) ((len + W - 1) / W)

/-- Regime 3, the schedule 42 R163 gives: `p` bytes of the pattern stand from `src` on; copy `min(p, remaining)` of them
behind themselves, then `p` grows by as much. `fuel` bounds the passes. -/
def doublingCopy (m : Memory) (src p remaining : Nat) : Nat → Memory
  | 0 => m
  | fuel + 1 =>
    if remaining = 0 then m
    else doublingCopy (copySafe m (src + p) src (min p remaining)) src (p + min p remaining) (remaining - min p remaining) fuel

/-- Regime 3 from the start: the pattern materialised is the `dist` seed bytes (42 R163). -/
def narrowCopy (m : Memory) (dst dist len : Nat) : Memory := doublingCopy m (dst - dist) dist len len

/-- The engine's result by regime (42 R160). -/
def engineCopy (f : FillSet) (W : Nat) (m : Memory) (dst dist len : Nat) : Memory :=
  match regimeOf f W dist with
  | .wide => wideCopy m dst dist len W
  | .fillUnit => fillCopy m dst dist len W
  | .narrow => narrowCopy m dst dist len

end Sys2Proof.Machine
end

