-- ==== Sys2Proof/Safety.lean ====
section
/-! DEFINITION. The terms claims are stated in: the machine invariant, which parts of two states agree, the bytes a
command may write (spec 20 R63), canonical checksum states (43 R181). -/

namespace Sys2Proof.Machine

/-- Both memories are in canonical form, and every listed data byte is a `Valid` byte of the address space (20 R60). -/
structure MemoryInv (s : State) : Prop where
  mem_wf : Memory.wf s.mem
  cmem_wf : Memory.wf s.cmem
  mem_valid : ∀ c ∈ s.mem, validAddr s.cfg.valid c.1 = true ∧ c.1 < 2 ^ 64
  cmem_valid : ∀ c ∈ s.cmem, validAddr s.cfg.cmdValid c.1 = true ∧ c.1 < 2 ^ 64

/-- `BIND` and `CHUNKSZ` are what the dispatcher computes from `CAP` (45 R224, R226), and every chunk register holds
exactly `W` bytes (10 R41). -/
structure BindingInv (s : State) : Prop where
  bind_selected : s.bind = bindingOf s.cap s.cfg
  width_selected : s.chunksz = widthOf s.cfg.wFallback s.bind.cc
  chunk_width : ∀ j : CReg, (s.chunk j).length = s.W

/-- `FCAUSE` holds a cause exactly in FAULTED (10 R29, R31), and `FINFO` is 0 as long as it holds none (10 R32). -/
structure FaultInv (s : State) : Prop where
  cause_iff : s.run = .faulted ↔ s.fcause ≠ none
  info_zero : s.fcause = none → s.finfo = 0

/-- The machine invariant: what every reachable state satisfies. -/
structure State.Inv (s : State) : Prop where
  memory : MemoryInv s
  binding : BindingInv s
  fault : FaultInv s

/-- The two states agree on what only reset or the host may change: parameters, strap, `CAP`, `BIND`, `CHUNKSZ`, command
memory, the environment's list and the host's last reply (10 R36, 20 R61). -/
def SameSystem (s t : State) : Prop :=
  t.cfg = s.cfg ∧ t.strap = s.strap ∧ t.cap = s.cap ∧ t.bind = s.bind ∧ t.chunksz = s.chunksz ∧ t.cmem = s.cmem ∧
    t.pending = s.pending ∧ t.reply = s.reply

/-- The two states agree on `STATUS`, `FCAUSE` and `FINFO`. -/
def SameStatus (s t : State) : Prop := t.run = s.run ∧ t.fcause = s.fcause ∧ t.finfo = s.finfo

/-- The two states agree on every operand register. -/
def SameRegs (s t : State) : Prop := ∀ r : Reg, t.reg r = s.reg r

/-- The two states agree on every operand register but `rd`. -/
def SameRegsBut (rd : Reg) (s t : State) : Prop := ∀ r : Reg, r ≠ rd → t.reg r = s.reg r

/-- The two states agree on every chunk register. -/
def SameChunks (s t : State) : Prop := ∀ j : CReg, t.chunk j = s.chunk j

/-- The two states agree on every chunk register but `cd`. -/
def SameChunksBut (cd : CReg) (s t : State) : Prop := ∀ j : CReg, j ≠ cd → t.chunk j = s.chunk j

/-- The two states agree on every byte of data memory. -/
def SameMem (s t : State) : Prop := ∀ a : Nat, Memory.readByte t.mem a = Memory.readByte s.mem a

/-- The two states agree on every byte of data memory outside `lo, lo + 1, ..., lo + n - 1`. -/
def SameMemOutside (lo n : Nat) (s t : State) : Prop :=
  ∀ a : Nat, ¬(lo ≤ a ∧ a < lo + n) → Memory.readByte t.mem a = Memory.readByte s.mem a

/-- The command completed: the command pointer moved on by 4 modulo 2^64 and the status is as before (10 R25). -/
def Advanced (s t : State) : Prop := t.cpc = s.cpc + 4 ∧ SameStatus s t

/-- A byte address lies in a command's "may write" set, written out from the operands as the table of 20 R63 has it. -/
def mayWrite (i : Instr) (s : State) (a : Nat) : Prop :=
  match i with
  | .cpsafe ra _ rc => s.num ra ≤ a ∧ a < s.num ra + s.num rc
  | .cpovl ra rb rc =>
    0 < s.num rc ∧ s.num ra ≤ a ∧ a < s.num ra + s.num rc + (if s.num rb < s.W then s.W - 1 else 0)
  | .cpunr ra _ rc => 0 < s.num rc ∧ s.num ra ≤ a ∧ a < s.num ra + s.num rc + (s.W - 1)
  | .cstore ra _ => s.num ra ≤ a ∧ a < s.num ra + s.W
  | .slide ra rb rc rd _ =>
    (s.num ra ≤ a ∧ a < s.num ra + s.EB * s.num rb) ∨ (s.num rc ≤ a ∧ a < s.num rc + s.EB * s.num rd)
  | .endRun | .seti _ _ | .chunksz _ | .cload _ _ | .cfill1 _ _ | .cfill2 _ _ | .cfill4 _ _ | .cfill8 _ _ => False
  | .cksum _ _ _ _ => False

/-- A byte address lies in a command's "may read" set, as the table of 20 R63 has it; the bytes `CPOVL` reads back from
what it has itself written are not in it. -/
def mayRead (i : Instr) (s : State) (a : Nat) : Prop :=
  match i with
  | .cpsafe _ rb rc => s.num rb ≤ a ∧ a < s.num rb + s.num rc
  | .cpovl ra rb rc => s.num ra ≤ a + s.num rb ∧ a + s.num rb < s.num ra + min (s.num rb) (s.num rc)
  | .cpunr _ rb rc => 0 < s.num rc ∧ s.num rb ≤ a ∧ a < s.num rb + s.num rc + (s.W - 1)
  | .cload _ ra => s.num ra ≤ a ∧ a < s.num ra + s.W
  | .cfill1 _ ra => s.num ra ≤ a ∧ a < s.num ra + 1
  | .cfill2 _ ra => s.num ra ≤ a ∧ a < s.num ra + 2
  | .cfill4 _ ra => s.num ra ≤ a ∧ a < s.num ra + 4
  | .cfill8 _ ra => s.num ra ≤ a ∧ a < s.num ra + 8
  | .cksum _ _ rb rc => s.num rb ≤ a ∧ a < s.num rb + s.num rc
  | .slide ra rb rc rd _ =>
    (s.num ra ≤ a ∧ a < s.num ra + s.EB * s.num rb) ∨ (s.num rc ≤ a ∧ a < s.num rc + s.EB * s.num rd)
  | .endRun | .seti _ _ | .chunksz _ | .cstore _ _ => False

/-- Two commands on two instances conflict at a byte: one writes what the other reads or writes (60 R291). -/
def conflictAt (i : Instr) (s : State) (j : Instr) (t : State) (a : Nat) : Prop :=
  (mayWrite i s a ∧ (mayRead j t a ∨ mayWrite j t a)) ∨ (mayWrite j t a ∧ mayRead i s a)

/-- The bytes a command is asked for: `[dst, dst + len)` of a copy, both tables of a slide (45 R231). -/
def logicalDest (i : Instr) (s : State) (a : Nat) : Prop :=
  match i with
  | .cpsafe ra _ rc | .cpovl ra _ rc | .cpunr ra _ rc => s.num ra ≤ a ∧ a < s.num ra + s.num rc
  | .slide ra rb rc rd _ =>
    (s.num ra ≤ a ∧ a < s.num ra + s.EB * s.num rb) ∨ (s.num rc ≤ a ∧ a < s.num rc + s.EB * s.num rd)
  | .endRun | .seti _ _ | .chunksz _ | .cload _ _ | .cstore _ _ | .cfill1 _ _ | .cfill2 _ _ | .cfill4 _ _ => False
  | .cfill8 _ _ | .cksum _ _ _ _ => False

/-- The commands whose results do not depend on the chunk width: copies, checksum and slide (45 R231). -/
def widthFree : Instr → Bool
  | .cpsafe _ _ _ | .cpovl _ _ _ | .cpunr _ _ _ | .cksum _ _ _ _ | .slide _ _ _ _ _ => true
  | .endRun | .seti _ _ | .chunksz _ | .cload _ _ | .cstore _ _ | .cfill1 _ _ | .cfill2 _ _ | .cfill4 _ _ => false
  | .cfill8 _ _ => false

/-- Column "reads" of 10 R21. -/
def readsReg : Instr → List Reg
  | .endRun | .seti _ _ | .chunksz _ => []
  | .cpsafe ra rb rc | .cpovl ra rb rc | .cpunr ra rb rc => [ra, rb, rc]
  | .cload _ ra | .cstore ra _ | .cfill1 _ ra | .cfill2 _ ra | .cfill4 _ ra | .cfill8 _ ra => [ra]
  | .cksum _ ra rb rc => [ra, rb, rc]
  | .slide ra rb rc rd re => [ra, rb, rc, rd, re]

/-- Column "writes" of 10 R21. -/
def writesReg : Instr → List Reg
  | .seti rd _ | .chunksz rd | .cksum rd _ _ _ => [rd]
  | .endRun | .cpsafe _ _ _ | .cpovl _ _ _ | .cpunr _ _ _ | .cload _ _ | .cstore _ _ | .cfill1 _ _ | .cfill2 _ _ => []
  | .cfill4 _ _ | .cfill8 _ _ | .slide _ _ _ _ _ => []

/-- The chunk registers a command reads: `CSTORE`'s (10 R43). -/
def readsChunk : Instr → List CReg
  | .cstore _ cs => [cs]
  | .endRun | .seti _ _ | .chunksz _ | .cpsafe _ _ _ | .cpovl _ _ _ | .cpunr _ _ _ | .cload _ _ | .cfill1 _ _ => []
  | .cfill2 _ _ | .cfill4 _ _ | .cfill8 _ _ | .cksum _ _ _ _ | .slide _ _ _ _ _ => []

/-- The chunk registers a command writes: those of `CLOAD` and the fills (10 R43). -/
def writesChunk : Instr → List CReg
  | .cload cd _ | .cfill1 cd _ | .cfill2 cd _ | .cfill4 cd _ | .cfill8 cd _ => [cd]
  | .endRun | .seti _ _ | .chunksz _ | .cpsafe _ _ _ | .cpovl _ _ _ | .cpunr _ _ _ | .cstore _ _ => []
  | .cksum _ _ _ _ | .slide _ _ _ _ _ => []

/-- Apply a function to the next state of an outcome, if there is one. -/
def mapNext (f : State → State) : Result → Result
  | .next t => .next (f t)
  | .fault r => .fault r
  | .refused r => .refused r

/-- `ValidRange(a, n)` of data memory as the spec words it (00 R11), `a` not negative. -/
def RangeValid (s : State) (a n : Nat) : Prop :=
  n = 0 ∨ (a + n ≤ 2 ^ 64 ∧ ∀ x, a ≤ x → x < a + n → validAddr s.cfg.valid x = true)

/-- `ValidRange(dst - dist, n)`: false when the difference is negative and `n > 0` (00 R11). -/
def BackRangeValid (s : State) (dst dist n : Nat) : Prop := n = 0 ∨ (dist ≤ dst ∧ RangeValid s (dst - dist) n)

/-- `Disjoint(a, n, b, m)` as the spec words it (00 R11). -/
def RangesDisjoint (a n b m : Nat) : Prop := n = 0 ∨ m = 0 ∨ a + n ≤ b ∨ b + m ≤ a

/-- The fault with cause `c` and information `v` has been taken from `s`: exactly `STATUS`, `FCAUSE` and `FINFO` differ
(60 R266). -/
def FaultTaken (s t : State) (c : Cause) (v : Word) : Prop :=
  t = { s with run := .faulted, fcause := some c, finfo := v }

/-- The next step of `s` is the sequencer's, on the state `p`: nothing is pending, or the first pending event gives the
sequencer its turn and is used up (log entry 10). -/
def SequencerTurn (s p : State) : Prop :=
  (s.pending = [] ∧ p = s) ∨ ∃ rest, s.pending = .sequencer :: rest ∧ p = { s with pending := rest }

/-- A checksum state both of whose halves are below `CK_BASE` (43 R181). -/
def Canonical (state : BitVec 32) : Prop := sumA state < ckBase ∧ sumB state < ckBase

/-- The run has ended at an `END` (00 R19). -/
def Final (s : State) : Prop := s.run = .done

end Sys2Proof.Machine
end

