-- ==== Sys2Proof/Certificates/Slice0/Obligations.lean ====
section
/-! DEFINITION. The statements for the provers, from the numbered rules of the spec. -/

open Sys2Proof Sys2Proof.Machine

/-! ## Encoding -/

/-- Decoding the encoding of any well-formed command gives that command: no field is dropped or mixed up
(30_encoding.md section 3, `Decode(Encode(c)) = c`; the spec marks it as derived). -/
def Obligations.DecodeOfEncode : Prop :=
  ∀ i : Instr, i.WellFormed → decode (encode i) = .ok i

/-- Every legal word is the encoding of the command it decodes to, and that command is well formed
(30_encoding.md section 3, `Encode(Decode(w)) = w`; the spec marks it as derived). -/
def Obligations.EncodeOfDecode : Prop :=
  ∀ (w : CmdWord) (i : Instr), decode w = .ok i → encode i = w ∧ i.WellFormed

/-- The opcode map (30 R96): opcode, match and mask of its fourteen rows; the operands of each row in its format's fields;
a word is a row's command iff it has the row's pattern under the row's mask; the patterns are disjoint; a word that
matches none is illegal. -/
def Obligations.MatchAndMaskDecide : Prop :=
  ([Op.endRun, .seti, .chunksz, .cpsafe, .cpovl, .cpunr, .cload, .cstore, .cfill1, .cfill2, .cfill4, .cfill8, .cksum,
      .slide].map fun o => (o.code.toNat, o.pattern.toNat, o.mask.toNat)) =
    [(0x01, 0x00000001, 0xFFFFFFFF), (0x02, 0x00000002, 0x000000FF), (0x10, 0x00000010, 0xFFFFF0FF),
      (0x11, 0x00000011, 0xFFF000FF), (0x12, 0x00000012, 0xFFF000FF), (0x13, 0x00000013, 0xFFF000FF),
      (0x20, 0x00000020, 0xFFFF0CFF), (0x21, 0x00000021, 0xFFFFC0FF), (0x24, 0x00000024, 0xFFFF0CFF),
      (0x25, 0x00000025, 0xFFFF0CFF), (0x26, 0x00000026, 0xFFFF0CFF), (0x27, 0x00000027, 0xFFFF0CFF),
      (0x30, 0x00000030, 0xFF0000FF), (0x40, 0x00000040, 0xF00000FF)] ∧
  (∀ (w : CmdWord) (o : Op), (∃ i, decode w = .ok i ∧ i.op = o) ↔ w &&& o.mask = o.pattern) ∧
  (∀ (w : CmdWord) (o o' : Op), w &&& o.mask = o.pattern → w &&& o'.mask = o'.pattern → o = o') ∧
  (∀ w : CmdWord, (∀ o : Op, w &&& o.mask ≠ o.pattern) → ∃ e, decode w = .error e) ∧
  decode 0x00000001 = .ok .endRun ∧
  (∀ (rd : Reg) (imm : BitVec 20), decode (imm ++ regBits rd ++ 0x02#8) = .ok (.seti rd imm.toNat)) ∧
  (∀ rd : Reg, decode (0#20 ++ regBits rd ++ 0x10#8) = .ok (.chunksz rd)) ∧
  (∀ (ra rb rc : Reg) (f : BitVec 24), f = 0#12 ++ regBits rc ++ regBits rb ++ regBits ra →
    decode (f ++ 0x11#8) = .ok (.cpsafe ra rb rc) ∧ decode (f ++ 0x12#8) = .ok (.cpovl ra rb rc) ∧
    decode (f ++ 0x13#8) = .ok (.cpunr ra rb rc)) ∧
  (∀ (cd : CReg) (ra : Reg) (f : BitVec 24), f = 0#16 ++ regBits ra ++ cregBits cd →
    decode (f ++ 0x20#8) = .ok (.cload cd ra) ∧ decode (f ++ 0x24#8) = .ok (.cfill1 cd ra) ∧
    decode (f ++ 0x25#8) = .ok (.cfill2 cd ra) ∧ decode (f ++ 0x26#8) = .ok (.cfill4 cd ra) ∧
    decode (f ++ 0x27#8) = .ok (.cfill8 cd ra)) ∧
  (∀ (ra : Reg) (cs : CReg),
    decode (0#16 ++ cregBits cs ++ regBits ra ++ 0x21#8) = .ok (.cstore ra cs)) ∧
  (∀ rd ra rb rc : Reg, decode (0#8 ++ regBits rc ++ regBits rb ++ regBits ra ++ regBits rd ++
    0x30#8) = .ok (.cksum rd ra rb rc)) ∧
  (∀ ra rb rc rd re : Reg, decode (0#4 ++ regBits re ++ regBits rd ++ regBits rc ++ regBits rb ++
    regBits ra ++ 0x40#8) = .ok (.slide ra rb rc rd re))

/-- Words written out from the encodings of the spec decode to the commands they stand for, one or more per format
(30_encoding.md section 3; 95_test_vectors.md section 2.1). -/
def Obligations.SpecWordsDecode : Prop :=
  decode 0x00000001 = .ok .endRun ∧ decode 0xFFFFFF02 = .ok (.seti 15 0xFFFFF) ∧
  decode 0x00000410 = .ok (.chunksz 4) ∧ decode 0x0003BA11 = .ok (.cpsafe 10 11 3) ∧
  decode 0x00065413 = .ok (.cpunr 4 5 6) ∧ decode 0x0000F320 = .ok (.cload 3 15) ∧
  decode 0x00003F21 = .ok (.cstore 15 3) ∧ decode 0x00007226 = .ok (.cfill4 2 7) ∧
  decode 0x003A0030 = .ok (.cksum 0 0 10 3) ∧ decode 0x05432140 = .ok (.slide 1 2 3 4 5)

/-- A used opcode with a non-zero unused bit is illegal (30 R98), and so is every opcode outside the map, the all-zero
and the all-one word among them (30 R99). A bit of a word is unused when it is above the opcode and in the row's mask. -/
def Obligations.UnusedBitsAndOpcodesIllegal : Prop :=
  (∀ (w : CmdWord) (o : Op) (k : Nat), w.extractLsb' 0 8 = o.code → 8 ≤ k → o.mask.getLsbD k = true →
      w.getLsbD k = true → ∃ e, decode w = .error e) ∧
  (∀ w : CmdWord, (∀ o : Op, w.extractLsb' 0 8 ≠ o.code) → ∃ e, decode w = .error e) ∧
  (∃ e, decode 0x00000000 = .error e) ∧ (∃ e, decode 0xFFFFFFFF = .error e)

/-- The pseudo-command `CFILL cd, ra, k` (30 R103): for `k` of 1, 2, 4, 8 the fill of that unit size, whose opcode is
0x24 + log2 k (30 R101); any other `k` is an assembly error. -/
def Obligations.PseudoFillExpands : Prop :=
  (∀ (cd : CReg) (ra : Reg), expandCfill cd ra 1 = some (.cfill1 cd ra) ∧ expandCfill cd ra 2 = some (.cfill2 cd ra) ∧
    expandCfill cd ra 4 = some (.cfill4 cd ra) ∧ expandCfill cd ra 8 = some (.cfill8 cd ra)) ∧
  (∀ (cd : CReg) (ra : Reg) (k : Nat) (i : Instr), expandCfill cd ra k = some i →
    k ∈ [1, 2, 4, 8] ∧ ((encode i).extractLsb' 0 8).toNat = 0x24 + Nat.log2 k) ∧
  (∀ (cd : CReg) (ra : Reg) (k : Nat), k ∉ [1, 2, 4, 8] → expandCfill cd ra k = none)

/-- What the assembler accepts has an encoding, which decodes to it (30_encoding.md section 5; the reading of blanks and
digits is log entry 28). -/
def Obligations.AssembledLinesEncode : Prop :=
  ∀ (line : List Char) (i : Instr), assembleLine line = .ok (some i) → i.WellFormed ∧ decode (encode i) = .ok i

/-- The text of every command assembles to that command (30_encoding.md section 5, R102, R103): mnemonic and operand order
of the fourteen commands, `SETI`'s immediate in decimal and in `0x` hexadecimal; the pseudo-command `CFILL` for its four
`k`, and an error for every other; a `;` and what follows it count for nothing. The first lines fix the texts of registers
and numbers. A line is written here with one blank after the mnemonic and after each comma (log entry 28). -/
def Obligations.CommandTextAssembles : Prop :=
  ((List.finRange 16).map regText = ["r0", "r1", "r2", "r3", "r4", "r5", "r6", "r7", "r8", "r9", "r10", "r11", "r12", "r13",
    "r14", "r15"].map String.toList ∧
    (List.finRange 4).map cregText = ["c0", "c1", "c2", "c3"].map String.toList ∧
    decText 1048575 = "1048575".toList ∧ hexText 0x103 = "0x103".toList ∧ hexText 0xFFFFF = "0xfffff".toList ∧
    lineText "CKSUM" [regText 3, regText 0, regText 1, regText 2] = "CKSUM r3, r0, r1, r2".toList) ∧
  assembleLine "END".toList = .ok (some .endRun) ∧
  (∀ (r : Reg) (n : Nat), n ≤ 0xFFFFF → assembleLine (lineText "SETI" [regText r, decText n]) = .ok (some (.seti r n)) ∧
    assembleLine (lineText "SETI" [regText r, hexText n]) = .ok (some (.seti r n))) ∧
  (∀ (r : Reg) (n : Nat), 0xFFFFF < n →
    assembleLine (lineText "SETI" [regText r, decText n]) = .error .badOperands) ∧
  (∀ r : Reg, assembleLine (lineText "CHUNKSZ" [regText r]) = .ok (some (.chunksz r))) ∧
  (∀ a b c : Reg,
    assembleLine (lineText "CPSAFE" [regText a, regText b, regText c]) = .ok (some (.cpsafe a b c)) ∧
    assembleLine (lineText "CPOVL" [regText a, regText b, regText c]) = .ok (some (.cpovl a b c)) ∧
    assembleLine (lineText "CPUNR" [regText a, regText b, regText c]) = .ok (some (.cpunr a b c))) ∧
  (∀ (c : CReg) (a : Reg),
    assembleLine (lineText "CLOAD" [cregText c, regText a]) = .ok (some (.cload c a)) ∧
    assembleLine (lineText "CSTORE" [regText a, cregText c]) = .ok (some (.cstore a c)) ∧
    assembleLine (lineText "CFILL1" [cregText c, regText a]) = .ok (some (.cfill1 c a)) ∧
    assembleLine (lineText "CFILL2" [cregText c, regText a]) = .ok (some (.cfill2 c a)) ∧
    assembleLine (lineText "CFILL4" [cregText c, regText a]) = .ok (some (.cfill4 c a)) ∧
    assembleLine (lineText "CFILL8" [cregText c, regText a]) = .ok (some (.cfill8 c a)) ∧
    assembleLine (lineText "CFILL" [cregText c, regText a, decText 1]) = .ok (some (.cfill1 c a)) ∧
    assembleLine (lineText "CFILL" [cregText c, regText a, decText 2]) = .ok (some (.cfill2 c a)) ∧
    assembleLine (lineText "CFILL" [cregText c, regText a, decText 4]) = .ok (some (.cfill4 c a)) ∧
    assembleLine (lineText "CFILL" [cregText c, regText a, decText 8]) = .ok (some (.cfill8 c a)) ∧
    ∀ k, k ∉ [1, 2, 4, 8] → assembleLine (lineText "CFILL" [cregText c, regText a, decText k]) = .error .badOperands) ∧
  (∀ d a b c : Reg,
    assembleLine (lineText "CKSUM" [regText d, regText a, regText b, regText c]) = .ok (some (.cksum d a b c))) ∧
  (∀ a b c d e : Reg,
    assembleLine (lineText "SLIDE" [regText a, regText b, regText c, regText d, regText e]) =
      .ok (some (.slide a b c d e))) ∧
  ∀ line comment : List Char, assembleLine (line ++ ';' :: comment) = assembleLine line

/-! ## The step cycle -/

/-- With nothing pending and STATUS RUNNING, when the four bytes at an aligned, valid `cpc` decode to a command, the
step is that command's execution; `exec` contains the advance of `cpc` (40_sequencing.md section 1). The same holds when
the first pending event gives the sequencer its turn, on the state without that event (log entry 10). -/
def Obligations.StepRunsDecodedInstruction : Prop :=
  ∀ (s : State) (i : Instr) (rest : List Event), s.run = .running → s.cpc.toNat % 4 = 0 →
    (∀ k < 4, validAddr s.cfg.cmdValid (s.cpc.toNat + k) = true) →
    decodeBytes (Memory.read s.cmem s.cpc.toNat 4) = .ok (i, []) →
    (s.pending = [] → step s = exec i s) ∧
    (s.pending = .sequencer :: rest → step s = exec i { s with pending := rest })

/-- `CmdFetchFault` (60 R261): a misaligned `cpc`, or one of its four bytes not `CmdValid`; FINFO is `cpc`. It is the
sequencer's turn because nothing is pending or because the first pending event says so (log entry 10). -/
def Obligations.FetchFaultTaken : Prop :=
  ∀ s p : State, SequencerTurn s p → s.run = .running →
    (s.cpc.toNat % 4 ≠ 0 ∨ ∃ k < 4, validAddr s.cfg.cmdValid (s.cpc.toNat + k) = false) →
    ∃ t, step s = .next t ∧ FaultTaken p t .cmdFetchFault s.cpc

/-- `IllegalCommand` (60 R262): the fetched word does not decode; FINFO is the word, zero-extended. The all-zero and
all-one words, an unassigned opcode, a non-zero unused bit and a chunk-register field above 3 are such words. It is the
sequencer's turn because nothing is pending or because the first pending event says so (log entry 10). -/
def Obligations.IllegalCommandTaken : Prop :=
  (∀ (s p : State) (w : CmdWord) (e : Illegal), SequencerTurn s p → s.run = .running → s.cpc.toNat % 4 = 0 →
    (∀ k < 4, validAddr s.cfg.cmdValid (s.cpc.toNat + k) = true) →
    (∀ k < 4, Memory.readByte s.cmem (s.cpc.toNat + k) = w.extractLsb' (8 * k) 8) → decode w = .error e →
    ∃ t, step s = .next t ∧ FaultTaken p t .illegalCommand (w.setWidth 64)) ∧
  (∃ e, decode 0x00000000 = .error e) ∧ (∃ e, decode 0xFFFFFFFF = .error e) ∧
  (∀ w : CmdWord, (∀ o : Op, w.extractLsb' 0 8 ≠ o.code) → ∃ e, decode w = .error e) ∧
  (∀ (w : CmdWord) (o : Op), w.extractLsb' 0 8 = o.code → w &&& o.mask ≠ o.pattern → ∃ e, decode w = .error e) ∧
  (∀ (f1 : BitVec 4) (c : BitVec 4), 4 ≤ c.toNat →
    (∀ op ∈ [0x20#8, 0x24, 0x25, 0x26, 0x27], ∃ e, decode (packWord op c f1 0 0 0) = .error e) ∧
    ∃ e, decode (packWord 0x21 f1 c 0 0 0) = .error e)

/-- When it is the sequencer's turn and STATUS is not RUNNING, there is no step. That the model says so by the stop
`sequencerStopped` is the model's choice (log entry 9); the rule it renders is "the sequencer has no step". -/
def Obligations.NoStepUnlessRunning : Prop :=
  ∀ s : State, s.run ≠ .running → (s.pending = [] ∨ ∃ rest, s.pending = .sequencer :: rest) →
    step s = .fault .sequencerStopped

/-- When it is the turn of a RUNNING sequencer it has a step, and a run stops only by `END` or a fault (40 R121); the
turn is there because nothing is pending or because the first pending event gives it (log entry 10). -/
def Obligations.RunningSequencerAlwaysSteps : Prop :=
  ∀ s p : State, SequencerTurn s p → s.run = .running →
    ∃ t, step s = .next t ∧ (t.run ≠ .running → s.fetchDecode = .ok .endRun ∨ t.run = .faulted)

/-! ## Sequencing commands -/

/-- `END` (40 R122): STATUS becomes DONE, everything else is unchanged, `cpc` and every register among it; a host that
starts again without writing `CPC` runs the same `END` again, at once. -/
def Obligations.EndStopsRun : Prop :=
  decode 0x00000001 = .ok .endRun ∧
  ∀ s : State, ∃ t, exec .endRun s = .next t ∧ t.run = .done ∧ t.run.status = 0b010#64 ∧ t = { s with run := .done } ∧
    (s.run = .running → s.fetchDecode = .ok .endRun →
      ∃ u, step { t with pending := [.host .start] } = .next u ∧ u.run = .running ∧
        ∃ v, step u = .next v ∧ v.run = .done ∧ v.cpc = s.cpc)

/-- `SETI rd, imm20` (40 R123): `rd` gets the immediate zero-extended; nothing else but `cpc` changes. -/
def Obligations.SetiLoadsConstant : Prop :=
  decode 0x00103102 = .ok (.seti 1 0x103) ∧
  ∀ (s : State) (rd : Reg) (imm : Nat), imm ≤ 0xFFFFF →
    ∃ t, exec (.seti rd imm) s = .next t ∧ (t.reg rd).toNat = imm ∧ SameRegsBut rd s t ∧ Advanced s t ∧
      SameChunks s t ∧ SameMem s t ∧ SameSystem s t ∧ t.draws = s.draws

/-- `CHUNKSZ rd` (42 R150): `rd` gets the active width, 16, 32 or 64, which is what control register CHUNKSZ reads;
nothing else but `cpc` changes. -/
def Obligations.ChunkszReadsWidth : Prop :=
  decode 0x00000410 = .ok (.chunksz 4) ∧
  ∀ (s : State) (rd : Reg),
    ∃ t, exec (.chunksz rd) s = .next t ∧ t.reg rd = s.csr 6 ∧ (t.reg rd).toNat = s.W ∧ s.W ∈ [16, 32, 64] ∧
      SameRegsBut rd s t ∧ Advanced s t ∧ SameChunks s t ∧ SameMem s t ∧ SameSystem s t ∧ t.draws = s.draws

/-! ## Copies -/

/-- `CPSAFE` (42 R152): with `len` = 0 it does and checks nothing; otherwise, in this order, Overlap(dst), MemFault(src),
MemFault(dst); admitted, it copies exactly `len` bytes and changes nothing else but `cpc`. -/
def Obligations.CpsafeCopiesExactly : Prop :=
  decode 0x00032111 = .ok (.cpsafe 1 2 3) ∧
  ∀ (s : State) (ra rb rc : Reg) (dst src len : Nat), s.num ra = dst → s.num rb = src → s.num rc = len →
    ((len = 0 ∨ (RangesDisjoint src len dst len ∧ RangeValid s src len ∧ RangeValid s dst len)) →
      ∃ t, exec (.cpsafe ra rb rc) s = .next t ∧
        (∀ i < len, Memory.readByte t.mem (dst + i) = Memory.readByte s.mem (src + i)) ∧ SameMemOutside dst len s t ∧
        Advanced s t ∧ SameRegs s t ∧ SameChunks s t ∧ SameSystem s t ∧ t.draws = s.draws) ∧
    (len ≠ 0 → ¬RangesDisjoint src len dst len →
      ∃ t, exec (.cpsafe ra rb rc) s = .next t ∧ FaultTaken s t .overlap (s.reg ra)) ∧
    (len ≠ 0 → RangesDisjoint src len dst len → ¬RangeValid s src len →
      ∃ t, exec (.cpsafe ra rb rc) s = .next t ∧ FaultTaken s t .memFault (s.reg rb)) ∧
    (len ≠ 0 → RangesDisjoint src len dst len → RangeValid s src len → ¬RangeValid s dst len →
      ∃ t, exec (.cpsafe ra rb rc) s = .next t ∧ FaultTaken s t .memFault (s.reg ra))

/-- `CPOVL` (42 R158): BadDistance(0) when `dist` = 0, before anything else; then with `len` = 0 it does and checks
nothing; then MemFault of the seed range, `src` taken modulo 2^64; then MemFault(dst) of the destination with its slack;
admitted, byte `i` of the destination is byte `i mod dist` of the seed, the slack is unchanged when `dist >= W` and
unspecified when `dist < W`, and nothing else but `cpc` changes. -/
def Obligations.CpovlExpandsBackReference : Prop :=
  decode 0x00032112 = .ok (.cpovl 1 2 3) ∧
  ∀ (s : State) (ra rb rc : Reg) (dst dist len : Nat), s.num ra = dst → s.num rb = dist → s.num rc = len →
    ((dist ≠ 0 ∧ (len = 0 ∨ (BackRangeValid s dst dist (min dist len) ∧ RangeValid s dst (len + s.W - 1)))) →
      ∃ t, exec (.cpovl ra rb rc) s = .next t ∧
        (∀ i < len, Memory.readByte t.mem (dst + i) = Memory.readByte s.mem (dst - dist + i % dist)) ∧
        SameMemOutside dst (if len = 0 then 0 else if s.W ≤ dist then len else len + s.W - 1) s t ∧
        Advanced s t ∧ SameRegs s t ∧ SameChunks s t ∧ SameSystem s t) ∧
    (dist = 0 → ∃ t, exec (.cpovl ra rb rc) s = .next t ∧ FaultTaken s t .badDistance 0) ∧
    (dist ≠ 0 → len ≠ 0 → ¬BackRangeValid s dst dist (min dist len) →
      ∃ t v, exec (.cpovl ra rb rc) s = .next t ∧ FaultTaken s t .memFault v ∧
        (v.toNat : Int) = ((dst : Int) - dist) % 2 ^ 64) ∧
    (dist ≠ 0 → len ≠ 0 → BackRangeValid s dst dist (min dist len) → ¬RangeValid s dst (len + s.W - 1) →
      ∃ t, exec (.cpovl ra rb rc) s = .next t ∧ FaultTaken s t .memFault (s.reg ra))

/-- The `W - 1` bytes after a `CPOVL` with `dist < W`, and after every `CPUNR` that copies something, are free values, one
fresh draw each, and no draw is used twice: the model's form of "unspecified" (42_chunked_copy.md sections 4 and 5; log
entry 8). A `CPOVL` with `dist >= W` draws none. The statement holds for every free value. -/
def Obligations.SlackBytesAreFree : Prop :=
  ∀ (i : Instr) (s t : State) (ra rb rc : Reg), s.run = .running → s.num rc ≠ 0 → exec i s = .next t →
    t.run = .running →
    (i = .cpovl ra rb rc → s.W ≤ s.num rb → t.draws = s.draws) ∧
    (i = .cpunr ra rb rc ∨ (i = .cpovl ra rb rc ∧ s.num rb < s.W) → t.draws = s.draws + (s.W - 1) ∧
      ∀ j < s.W - 1, Memory.readByte t.mem (s.num ra + s.num rc + j) = Config.freeByte (s.draws + j))

/-- `CPUNR` (42 R166): with `len` = 0 it does and checks nothing; otherwise, in this order, Overlap(dst), MemFault(src),
MemFault(dst), both ranges with `W - 1` bytes of slack; admitted, it copies `len` bytes, leaves the `W - 1` bytes after
them unspecified and changes nothing else but `cpc`. -/
def Obligations.CpunrCopiesBulk : Prop :=
  decode 0x00065413 = .ok (.cpunr 4 5 6) ∧
  ∀ (s : State) (ra rb rc : Reg) (dst src len : Nat), s.num ra = dst → s.num rb = src → s.num rc = len →
    ((len = 0 ∨ ((src + len ≤ dst ∨ dst + len + s.W - 1 ≤ src) ∧ RangeValid s src (len + s.W - 1) ∧
        RangeValid s dst (len + s.W - 1))) →
      ∃ t, exec (.cpunr ra rb rc) s = .next t ∧
        (∀ i < len, Memory.readByte t.mem (dst + i) = Memory.readByte s.mem (src + i)) ∧
        SameMemOutside dst (if len = 0 then 0 else len + s.W - 1) s t ∧
        Advanced s t ∧ SameRegs s t ∧ SameChunks s t ∧ SameSystem s t) ∧
    (len ≠ 0 → ¬(src + len ≤ dst ∨ dst + len + s.W - 1 ≤ src) →
      ∃ t, exec (.cpunr ra rb rc) s = .next t ∧ FaultTaken s t .overlap (s.reg ra)) ∧
    (len ≠ 0 → (src + len ≤ dst ∨ dst + len + s.W - 1 ≤ src) → ¬RangeValid s src (len + s.W - 1) →
      ∃ t, exec (.cpunr ra rb rc) s = .next t ∧ FaultTaken s t .memFault (s.reg rb)) ∧
    (len ≠ 0 → (src + len ≤ dst ∨ dst + len + s.W - 1 ≤ src) → RangeValid s src (len + s.W - 1) →
      ¬RangeValid s dst (len + s.W - 1) →
      ∃ t, exec (.cpunr ra rb rc) s = .next t ∧ FaultTaken s t .memFault (s.reg ra))

/-! ## The chunk backend -/

/-- `CLOAD` (41 R131): the chunk register gets the `W` bytes at the address, at any alignment; MemFault when one is not
valid; nothing else but `cpc` changes. -/
def Obligations.CloadLoadsChunk : Prop :=
  decode 0x00002120 = .ok (.cload 1 2) ∧
  ∀ (s : State) (cd : CReg) (ra : Reg),
    (RangeValid s (s.num ra) s.W →
      ∃ t, exec (.cload cd ra) s = .next t ∧ (t.chunk cd).length = s.W ∧
        (∀ j < s.W, (t.chunk cd)[j]? = some (Memory.readByte s.mem (s.num ra + j))) ∧ SameChunksBut cd s t ∧
        Advanced s t ∧ SameRegs s t ∧ SameMem s t ∧ SameSystem s t ∧ t.draws = s.draws) ∧
    (¬RangeValid s (s.num ra) s.W →
      ∃ t, exec (.cload cd ra) s = .next t ∧ FaultTaken s t .memFault (s.reg ra))

/-- `CSTORE` (41 R132): the `W` bytes of the chunk register go to the address, at any alignment; MemFault when one is
not valid; nothing else but `cpc` changes. The chunk register holds `W` bytes, as the invariant says. -/
def Obligations.CstoreStoresChunk : Prop :=
  decode 0x00001321 = .ok (.cstore 3 1) ∧
  ∀ (s : State) (ra : Reg) (cs : CReg), (s.chunk cs).length = s.W →
    (RangeValid s (s.num ra) s.W →
      ∃ t, exec (.cstore ra cs) s = .next t ∧
        (∀ j < s.W, some (Memory.readByte t.mem (s.num ra + j)) = (s.chunk cs)[j]?) ∧
        SameMemOutside (s.num ra) s.W s t ∧
        Advanced s t ∧ SameRegs s t ∧ SameChunks s t ∧ SameSystem s t ∧ t.draws = s.draws) ∧
    (¬RangeValid s (s.num ra) s.W →
      ∃ t, exec (.cstore ra cs) s = .next t ∧ FaultTaken s t .memFault (s.reg ra))

/-- `CFILL1`, `CFILL2`, `CFILL4`, `CFILL8` (41 R133 to R136): UnsupportedFill(k) before any memory check, then MemFault
of the `k` bytes of the unit; admitted, byte `j` of the chunk register is byte `j mod k` of the unit and nothing else but
`cpc` changes. -/
def Obligations.FillsBroadcastUnit : Prop :=
  decode 0x00001024 = .ok (.cfill1 0 1) ∧ decode 0x00001025 = .ok (.cfill2 0 1) ∧
  decode 0x00007226 = .ok (.cfill4 2 7) ∧ decode 0x0000F327 = .ok (.cfill8 3 15) ∧
  ∀ (s : State) (cd : CReg) (ra : Reg) (i : Instr) (k : Nat) (supported : Bool),
    ((i, k, supported) = (.cfill1 cd ra, 1, s.cfg.fillSupported.k1) ∨
      (i, k, supported) = (.cfill2 cd ra, 2, s.cfg.fillSupported.k2) ∨
      (i, k, supported) = (.cfill4 cd ra, 4, s.cfg.fillSupported.k4) ∨
      (i, k, supported) = (.cfill8 cd ra, 8, s.cfg.fillSupported.k8)) →
    (supported = true → RangeValid s (s.num ra) k →
      ∃ t, exec i s = .next t ∧ (t.chunk cd).length = s.W ∧
        (∀ j < s.W, (t.chunk cd)[j]? = some (Memory.readByte s.mem (s.num ra + j % k))) ∧ SameChunksBut cd s t ∧
        Advanced s t ∧ SameRegs s t ∧ SameMem s t ∧ SameSystem s t ∧ t.draws = s.draws) ∧
    (supported = false → ∃ t v, exec i s = .next t ∧ FaultTaken s t .unsupportedFill v ∧ v.toNat = k) ∧
    (supported = true → ¬RangeValid s (s.num ra) k →
      ∃ t, exec i s = .next t ∧ FaultTaken s t .memFault (s.reg ra))

/-- The two round trips (41 R139): a load then a store moves `W` bytes exactly, the ranges may overlap; a fill then a
store lays down the unit repeated through `W` bytes, the unit as it was before the fill. -/
def Obligations.ChunkRoundTrips : Prop :=
  ∀ (s t u : State) (c : CReg) (ra rb : Reg), s.run = .running → t.run = .running → u.run = .running →
    exec (.cstore rb c) t = .next u →
    (exec (.cload c ra) s = .next t →
      Memory.read u.mem (s.num rb) s.W = Memory.read s.mem (s.num ra) s.W) ∧
    (∀ i k, ((i, k) = (.cfill1 c ra, 1) ∨ (i, k) = (.cfill2 c ra, 2) ∨ (i, k) = (.cfill4 c ra, 4) ∨
        (i, k) = (.cfill8 c ra, 8)) → exec i s = .next t →
      ∀ j < s.W, Memory.readByte u.mem (s.num rb + j) = Memory.readByte s.mem (s.num ra + j % k))

/-! ## Checksum -/

/-- `CKSUM` (43_checksum.md section 2): MemFault of the data range; admitted, `rd` gets the checksum of the low 32 bits
of the state register and the `len` bytes, zero-extended, every source read before `rd` is written, and nothing else but
`cpc` changes. The value is the spec's Adler-32, which it marks as general knowledge (93 K1; log entry 16). -/
def Obligations.CksumWritesChecksum : Prop :=
  decode 0x00210030 = .ok (.cksum 0 0 1 2) ∧
  ∀ (s : State) (rd ra rb rc : Reg),
    (RangeValid s (s.num rb) (s.num rc) →
      ∃ t, exec (.cksum rd ra rb rc) s = .next t ∧
        (t.reg rd).toNat =
          (checksum ((s.reg ra).extractLsb' 0 32)
            ((List.range (s.num rc)).map fun i => Memory.readByte s.mem (s.num rb + i))).toNat ∧
        SameRegsBut rd s t ∧ Advanced s t ∧ SameChunks s t ∧ SameMem s t ∧ SameSystem s t ∧ t.draws = s.draws) ∧
    (¬RangeValid s (s.num rb) (s.num rc) →
      ∃ t, exec (.cksum rd ra rb rc) s = .next t ∧ FaultTaken s t .memFault (s.reg rb))

/-- The recurrence (43_checksum.md section 1): no byte reduces both halves modulo 65521; one more byte adds to `A`, then
`A` to `B`; the state is `B * 65536 + A`. The constants are the spec's general knowledge (93 K1; log entry 16). -/
def Obligations.ChecksumRecurrence : Prop :=
  ∀ (state : BitVec 32) (d : List Byte) (b : Byte) (A B : Nat),
    checksum state d = BitVec.ofNat 32 (B * 65536 + A) → A < 65536 → B < 65536 →
    (checksum state []).toNat = state.toNat / 65536 % 65521 * 65536 + state.toNat % 65536 % 65521 ∧
    (checksum state (d ++ [b])).toNat = (B + (A + b.toNat) % 65521) % 65521 * 65536 + (A + b.toNat) % 65521

/-- The closed form (43_checksum.md section 1): `A` is the sum of the bytes, `B` the sum weighted by the distance from
the end, both on top of the reduced input halves (93 K1; log entry 16). -/
def Obligations.ChecksumClosedForm : Prop :=
  ∀ (state : BitVec 32) (d : List Byte),
    (checksum state d).toNat =
      (state.toNat / 65536 % 65521 + d.length * (state.toNat % 65536 % 65521) +
          ((List.range d.length).map fun i => (d.length - i) * (d.getD i 0).toNat).sum) % 65521 * 65536 +
        (state.toNat % 65536 % 65521 + (d.map fun b => b.toNat).sum) % 65521

/-- Chaining, identity and canonical results (43_checksum.md section 1): a stream may be split anywhere; the empty buffer
leaves a canonical state; every result is canonical (93 K1; log entry 16). -/
def Obligations.ChecksumChains : Prop :=
  (∀ (state : BitVec 32) (x y : List Byte), checksum (checksum state x) y = checksum state (x ++ y)) ∧
  (∀ state : BitVec 32, Canonical state → checksum state [] = state) ∧
  (∀ (state : BitVec 32) (d : List Byte), Canonical (checksum state d))

/-! ## Window slide -/

/-- `SLIDE` (44 R201, R202): Misaligned(head), Misaligned(prev), MemFault(head), MemFault(prev), Overlap(head), in this
order, each table skipped when its count is 0; admitted, every entry `e` of both tables becomes `max(e - w, 0)` and
nothing else but `cpc` changes. -/
def Obligations.SlideSubtractsWindow : Prop :=
  decode 0x05432140 = .ok (.slide 1 2 3 4 5) ∧
  ∀ (s : State) (ra rb rc rd re : Reg) (head hn prev pn w : Nat), s.num ra = head → s.num rb = hn → s.num rc = prev →
    s.num rd = pn → s.num re = w →
    ((hn = 0 ∨ head % s.EB = 0) → (pn = 0 ∨ prev % s.EB = 0) → RangeValid s head (s.EB * hn) →
        RangeValid s prev (s.EB * pn) → RangesDisjoint head (s.EB * hn) prev (s.EB * pn) →
      ∃ t, exec (.slide ra rb rc rd re) s = .next t ∧
        (∀ i < hn, (entry t.mem s.EB head i : Int) = max ((entry s.mem s.EB head i : Int) - w) 0) ∧
        (∀ i < pn, (entry t.mem s.EB prev i : Int) = max ((entry s.mem s.EB prev i : Int) - w) 0) ∧
        (∀ a, ¬(head ≤ a ∧ a < head + s.EB * hn) → ¬(prev ≤ a ∧ a < prev + s.EB * pn) →
          Memory.readByte t.mem a = Memory.readByte s.mem a) ∧
        Advanced s t ∧ SameRegs s t ∧ SameChunks s t ∧ SameSystem s t ∧ t.draws = s.draws) ∧
    (¬(hn = 0 ∨ head % s.EB = 0) →
      ∃ t, exec (.slide ra rb rc rd re) s = .next t ∧ FaultTaken s t .misaligned (s.reg ra)) ∧
    ((hn = 0 ∨ head % s.EB = 0) → ¬(pn = 0 ∨ prev % s.EB = 0) →
      ∃ t, exec (.slide ra rb rc rd re) s = .next t ∧ FaultTaken s t .misaligned (s.reg rc)) ∧
    ((hn = 0 ∨ head % s.EB = 0) → (pn = 0 ∨ prev % s.EB = 0) → ¬RangeValid s head (s.EB * hn) →
      ∃ t, exec (.slide ra rb rc rd re) s = .next t ∧ FaultTaken s t .memFault (s.reg ra)) ∧
    ((hn = 0 ∨ head % s.EB = 0) → (pn = 0 ∨ prev % s.EB = 0) → RangeValid s head (s.EB * hn) →
        ¬RangeValid s prev (s.EB * pn) →
      ∃ t, exec (.slide ra rb rc rd re) s = .next t ∧ FaultTaken s t .memFault (s.reg rc)) ∧
    ((hn = 0 ∨ head % s.EB = 0) → (pn = 0 ∨ prev % s.EB = 0) → RangeValid s head (s.EB * hn) →
        RangeValid s prev (s.EB * pn) → ¬RangesDisjoint head (s.EB * hn) prev (s.EB * pn) →
      ∃ t, exec (.slide ra rb rc rd re) s = .next t ∧ FaultTaken s t .overlap (s.reg ra))

/-- Additivity (44_hash_slide.md section 2): sliding twice, by `w1` then `w2`, leaves the same memory as sliding once by
`w1 + w2`, for `w1 + w2` within 64 bits; the spec marks it as derived. -/
def Obligations.SlidesAddUp : Prop :=
  ∀ (s t u v : State) (ra rb rc rd r1 r2 r3 : Reg), s.run = .running → t.run = .running → u.run = .running →
    v.run = .running → s.num r3 = s.num r1 + s.num r2 →
    exec (.slide ra rb rc rd r1) s = .next t → exec (.slide ra rb rc rd r2) t = .next u →
    exec (.slide ra rb rc rd r3) s = .next v → SameMem u v

/-! ## The zero-length rule -/

/-- A command whose length or count is 0 touches no memory, requires no valid or aligned address, and raises none of
MemFault, Misaligned, Overlap (20 R86): `CPSAFE`, `CPUNR`, `CPOVL` with `dist` not 0, `CKSUM` and `SLIDE` on an empty
table. -/
def Obligations.ZeroLengthTouchesNothing : Prop :=
  ∀ (s : State) (ra rb rc rd re : Reg),
    (s.num rc = 0 → exec (.cpsafe ra rb rc) s = .next s.advance ∧ exec (.cpunr ra rb rc) s = .next s.advance ∧
      (s.num rb ≠ 0 → exec (.cpovl ra rb rc) s = .next s.advance) ∧
      ∃ v, exec (.cksum rd ra rb rc) s = .next (s.setReg rd v).advance) ∧
    (s.num rb = 0 → s.num rd = 0 → exec (.slide ra rb rc rd re) s = .next s.advance) ∧
    (s.num rb = 0 → (s.num rc % s.EB = 0 ∧ RangeValid s (s.num rc) (s.EB * s.num rd)) →
      ∃ t, exec (.slide ra rb rc rd re) s = .next t ∧ Advanced s t ∧
        SameMemOutside (s.num rc) (s.EB * s.num rd) s t) ∧
    (s.num rd = 0 → (s.num ra % s.EB = 0 ∧ RangeValid s (s.num ra) (s.EB * s.num rb)) →
      ∃ t, exec (.slide ra rb rc rd re) s = .next t ∧ Advanced s t ∧
        SameMemOutside (s.num ra) (s.EB * s.num rb) s t)

/-! ## Laws of the overlap copy -/

/-- The reference byte loop has the closed form the command uses: byte `dst + i` is seed byte `i mod dist`, and nothing
outside the destination changes (42_chunked_copy.md section 4; the spec derives the closed form). -/
def Obligations.ByteLoopClosedForm : Prop :=
  ∀ (m : Memory) (dst dist len : Nat), 1 ≤ dist → dist ≤ dst →
    (∀ i < len, Memory.readByte (byteLoop m dst dist len) (dst + i) = Memory.readByte m (dst - dist + i % dist)) ∧
    (∀ a, ¬(dst ≤ a ∧ a < dst + len) → Memory.readByte (byteLoop m dst dist len) a = Memory.readByte m a)

/-- Every regime of the engine computes the reference function on the destination: regime 1 writes nothing else, regimes
2 and 3 at most the slack (42_chunked_copy.md section 4, regimes 1 to 3; the schedules are log entry 22). -/
def Obligations.EngineRegimesComputeReference : Prop :=
  ∀ (f : FillSet) (w : ChunkWidth) (m : Memory) (dst dist len : Nat), 1 ≤ dist → dist ≤ dst →
    (∀ i < len, Memory.readByte (engineCopy f w.bytes m dst dist len) (dst + i) =
      Memory.readByte (byteLoop m dst dist len) (dst + i)) ∧
    (∀ a, ¬(dst ≤ a ∧ a < dst + len + (if w.bytes ≤ dist then 0 else w.bytes - 1)) →
      Memory.readByte (engineCopy f w.bytes m dst dist len) a = Memory.readByte m a)

/-- Splitting (42_chunked_copy.md section 4): two overlap copies of `a` then `b` bytes give the same `a + b` bytes as one,
and leave the same bytes outside destination and slack; the spec marks it as derived. -/
def Obligations.OverlapCopySplits : Prop :=
  ∀ (s : State) (dst d a b : Nat), 1 ≤ d → d ≤ dst →
    (∀ i < a + b, Memory.readByte ((s.overlapEffect dst d a).overlapEffect (dst + a) d b).mem (dst + i) =
      Memory.readByte (s.overlapEffect dst d (a + b)).mem (dst + i)) ∧
    (∀ x, ¬(dst ≤ x ∧ x < dst + a + b + (if s.W ≤ d then 0 else s.W - 1)) →
      Memory.readByte ((s.overlapEffect dst d a).overlapEffect (dst + a) d b).mem x = Memory.readByte s.mem x)

/-- Periodicity (42_chunked_copy.md section 4): after a completed `CPOVL` every destination byte equals the byte `dist`
before it; the spec marks it as derived. -/
def Obligations.OverlapCopyIsPeriodic : Prop :=
  ∀ (s t : State) (ra rb rc : Reg), s.run = .running → exec (.cpovl ra rb rc) s = .next t → t.run = .running →
    ∀ i < s.num rc, Memory.readByte t.mem (s.num ra + i) = Memory.readByte t.mem (s.num ra + i - s.num rb)

/-- For `dist >= len` the three copies write the same destination bytes (42_chunked_copy.md section 4; the spec marks it
as derived). -/
def Obligations.CopiesAgreeAtWideDistance : Prop :=
  ∀ (s t u v : State) (ra rb rsrc rc : Reg), s.run = .running → t.run = .running → u.run = .running →
    v.run = .running → s.num rc ≤ s.num rb → s.num rb ≤ s.num ra → s.num rsrc = s.num ra - s.num rb →
    exec (.cpovl ra rb rc) s = .next t → exec (.cpsafe ra rsrc rc) s = .next u →
    exec (.cpunr ra rsrc rc) s = .next v →
    ∀ i < s.num rc, Memory.readByte t.mem (s.num ra + i) = Memory.readByte u.mem (s.num ra + i) ∧
      Memory.readByte t.mem (s.num ra + i) = Memory.readByte v.mem (s.num ra + i)

/-! ## Rules of the whole machine -/

/-- Faults are precise (60 R266, R268): a step of the sequencer that leaves STATUS FAULTED changed exactly STATUS, FCAUSE
and FINFO; no register, chunk register or byte of memory, and not `cpc`; and the sequencer has no further step. A turn of
the sequencer that was pending is used up (log entry 10); nothing else pending changes. -/
def Obligations.FaultsArePrecise : Prop :=
  ∀ s p t : State, SequencerTurn s p → s.run = .running → step s = .next t → t.run = .faulted →
    (∃ c v, FaultTaken p t c v) ∧ ∀ q u, SequencerTurn t q → step t ≠ .next u

/-- The register table (10 R21): the contents of an operand register a command does not name change nothing it does and
are not changed by it, and a register it only writes does not influence it. -/
def Obligations.OperandRegisterUse : Prop :=
  ∀ (i : Instr) (s : State) (r : Reg) (v : Word),
    (r ∉ readsReg i → r ∉ writesReg i → exec i (s.setReg r v) = mapNext (fun t => t.setReg r v) (exec i s)) ∧
    (∀ t u, r ∉ readsReg i → r ∈ writesReg i → s.run = .running → exec i s = .next t → t.run = .running →
      exec i (s.setReg r v) = .next u → u = t) ∧
    (∀ t, r ∉ writesReg i → exec i s = .next t → t.reg r = s.reg r)

/-- Chunk registers are written only by `CLOAD` and the fills and read only by `CSTORE`; no host action but reset
reads or writes one (10 R43). -/
def Obligations.ChunkRegisterUse : Prop :=
  ∀ (s : State) (j : CReg) (v : Chunk),
    (∀ i, j ∉ readsChunk i → j ∉ writesChunk i → exec i (s.setChunk j v) = mapNext (fun t => t.setChunk j v) (exec i s)) ∧
    (∀ i t u, j ∉ readsChunk i → j ∈ writesChunk i → s.run = .running → exec i s = .next t → t.run = .running →
      exec i (s.setChunk j v) = .next u → u = t) ∧
    (∀ i t, j ∉ writesChunk i → exec i s = .next t → t.chunk j = s.chunk j) ∧
    (∀ a, a ≠ .reset → hostAct a (s.setChunk j v) = mapNext (fun t => t.setChunk j v) (hostAct a s))

/-- The command pointer (10 R25): plus 4 modulo 2^64 after a command other than `END` that completes, unchanged after
`END` and after a fault. -/
def Obligations.CommandPointerRule : Prop :=
  ∀ (i : Instr) (s t : State), s.run = .running → exec i s = .next t →
    t.cpc = if i = .endRun ∨ t.run = .faulted then s.cpc else s.cpc + 4

/-- No command writes a byte of data memory outside its "may write" set (20_memory.md section 1, the footprint table; the
spec marks it as derived). The chunk register a `CSTORE` stores holds `W` bytes, as the invariant says. -/
def Obligations.WritesWithinFootprint : Prop :=
  ∀ (i : Instr) (s t : State) (a : Nat), (∀ j, (s.chunk j).length = s.W) → exec i s = .next t → ¬mayWrite i s a →
    Memory.readByte t.mem a = Memory.readByte s.mem a

/-- `CAP`, `BIND` and `CHUNKSZ` change only at reset, and there all in one step; the parameters never change (10 R36). -/
def Obligations.CapabilityRegistersFrozen : Prop :=
  ∀ s t : State, step s = .next t → t.cfg = s.cfg ∧
    (s.pending.head? ≠ some (.host .reset) → t.cap = s.cap ∧ t.bind = s.bind ∧ t.chunksz = s.chunksz) ∧
    (s.pending.head? = some (.host .reset) → t.cap = s.strap ∧ t.bind = bindingOf s.strap s.cfg ∧
      t.chunksz = widthOf s.cfg.wFallback (select s.strap s.cfg.implCC))

/-- No command writes command memory: it changes only by the host's write, and that only while STATUS.RUN = 0
(20_memory.md sections 1 and 6). -/
def Obligations.CommandMemoryChangesOnlyByHost : Prop :=
  ∀ s t : State, step s = .next t → t.cmem ≠ s.cmem →
    s.run ≠ .running ∧ ∃ a b rest, s.pending = .host (.writeCmd a b) :: rest ∧
      validAddr s.cfg.cmdValid a.toNat = true ∧
      ∀ x, Memory.readByte t.cmem x = if x = a.toNat then b else Memory.readByte s.cmem x

/-- The run state (10 R29): its four encodings; reset gives IDLE; start leads from IDLE or DONE to RUNNING; `END` leads to
DONE and a fault to FAULTED, both from RUNNING; nothing else changes it. -/
def Obligations.RunStateTransitions : Prop :=
  (RunState.idle.status = 0b000#64 ∧ RunState.running.status = 0b001#64 ∧ RunState.done.status = 0b010#64 ∧
    RunState.faulted.status = 0b100#64) ∧
  ∀ s t : State, step s = .next t →
    (s.pending.head? = some (.host .reset) → t.run = .idle) ∧
    (s.pending.head? = some (.host .start) →
      t.run = if s.run = .idle ∨ s.run = .done then .running else s.run) ∧
    ((s.pending = [] ∨ s.pending.head? = some .sequencer) →
      s.run = .running ∧ (t.run = .done ↔ s.fetchDecode = .ok .endRun) ∧
        (t.run ≠ .done → t.run = .running ∨ (t.run = .faulted ∧ t.fcause ≠ none))) ∧
    (s.pending ≠ [] → s.pending.head? ≠ some .sequencer → s.pending.head? ≠ some (.host .reset) →
      s.pending.head? ≠ some (.host .start) → t.run = s.run)

/-- FAULTED is left only by reset; until then FCAUSE and FINFO keep the one fault (60_exceptions.md section 3;
10_state.md section 4). -/
def Obligations.FaultStateIsSticky : Prop :=
  ∀ s t : State, s.run = .faulted → step s = .next t → s.pending.head? ≠ some (.host .reset) →
    t.run = .faulted ∧ t.fcause = s.fcause ∧ t.finfo = s.finfo

/-- The machine invariant is kept by every step of every agent: both memories canonical and inside their valid
addresses, `BIND`, `CHUNKSZ` and the chunk widths as the dispatcher computes them, a cause recorded exactly in
FAULTED (10_state.md sections 1, 4, 5; 20_memory.md section 1; 45_dispatcher.md section 2). -/
def Obligations.StepKeepsInvariant : Prop :=
  ∀ s t : State, s.Inv → step s = .next t → t.Inv

/-- The invariant holds at reset (70_reset_and_hazards.md section 1). The zero registers of that state are the model's
choice (log entries 4, 5); the invariant asks nothing of them but the chunk width. -/
def Obligations.ResetMeetsInvariant : Prop :=
  State.reset.Inv

/-- The values reset leaves (70 R301): STATUS, `cpc`, FCAUSE, FINFO 0, `CAP` the strap, `BIND` computed, `CHUNKSZ` the
width of the binding. Operand and chunk registers are unspecified, so nothing is said of them. -/
def Obligations.ResetValues : Prop :=
  State.reset.csr 0 = 0 ∧ State.reset.csr 1 = 0 ∧ State.reset.csr 2 = 0 ∧ State.reset.csr 3 = 0 ∧
  State.reset.csr 4 = State.reset.strap.setWidth 64 ∧
  State.reset.bind.cc = select State.reset.strap State.reset.cfg.implCC ∧
  State.reset.bind.ck = select State.reset.strap State.reset.cfg.implCK ∧
  State.reset.bind.hs = select State.reset.strap State.reset.cfg.implHS ∧
  State.reset.csr 6 = BitVec.ofNat 64 (widthOf State.reset.cfg.wFallback State.reset.bind.cc).bytes

/-- The reset action (70 R300, R302): allowed in every run state, one step, samples the strap, binds the three families,
fixes `W`, clears STATUS, `cpc`, FCAUSE and FINFO, keeps both memories and the parameters. Operand and chunk registers
are unspecified afterwards, so nothing is said of them but that a chunk register holds `W` bytes. -/
def Obligations.HostResetEffect : Prop :=
  ∀ (s : State) (rest : List Event), s.pending = .host .reset :: rest →
    ∃ t, step s = .next t ∧ t.cap = s.strap ∧ t.bind.cc = select s.strap s.cfg.implCC ∧
      t.bind.ck = select s.strap s.cfg.implCK ∧ t.bind.hs = select s.strap s.cfg.implHS ∧
      t.chunksz = widthOf s.cfg.wFallback t.bind.cc ∧ t.run = .idle ∧ t.cpc = 0 ∧ t.fcause = none ∧ t.finfo = 0 ∧
      t.mem = s.mem ∧ t.cmem = s.cmem ∧ t.cfg = s.cfg ∧ t.strap = s.strap ∧ t.pending = rest ∧
      ∀ j : CReg, (t.chunk j).length = t.W

/-- The dispatcher (45 R224, R226): the selector of a family is that of the widest backend both detected and implemented,
else 0; `BIND` holds one such selector per family; the chunk width goes with `CC_SEL`, the fallback's default being 16. -/
def Obligations.DispatcherSelectsWidest : Prop :=
  (∀ (caps : BitVec 32) (impl : VecSet),
    (caps.getLsbD 2 = true ∧ impl.v512 = true → selectorCode (select caps impl) = 3) ∧
    (¬(caps.getLsbD 2 = true ∧ impl.v512 = true) → caps.getLsbD 1 = true ∧ impl.v256 = true →
      selectorCode (select caps impl) = 2) ∧
    (¬(caps.getLsbD 2 = true ∧ impl.v512 = true) → ¬(caps.getLsbD 1 = true ∧ impl.v256 = true) →
      caps.getLsbD 0 = true ∧ impl.v128 = true → selectorCode (select caps impl) = 1) ∧
    (¬(caps.getLsbD 2 = true ∧ impl.v512 = true) → ¬(caps.getLsbD 1 = true ∧ impl.v256 = true) →
      ¬(caps.getLsbD 0 = true ∧ impl.v128 = true) → selectorCode (select caps impl) = 0)) ∧
  (∀ (caps : BitVec 32) (cfg : Config), (bindingOf caps cfg).cc = select caps cfg.implCC ∧
    (bindingOf caps cfg).ck = select caps cfg.implCK ∧ (bindingOf caps cfg).hs = select caps cfg.implHS) ∧
  (∀ (fallback : ChunkWidth) (b : Backend), (widthOf fallback b).bytes =
    if selectorCode b = 3 then 64 else if selectorCode b = 2 then 32 else if selectorCode b = 1 then 16
    else fallback.bytes) ∧
  Config.default.wFallback.bytes = 16

/-- Reads of the control registers (10_state.md section 4, R27, R28, R31 to R35): `STATUS` shows the run state; `FCAUSE`
the code of the cause held (60_exceptions.md section 2, R260) and 0 without one; `BIND` packs its three selectors; the
unused bits read 0, and so do numbers 7 and above. -/
def Obligations.ControlRegisterReads : Prop :=
  (selectorCode .scalar = 0 ∧ selectorCode .vec128 = 1 ∧ selectorCode .vec256 = 2 ∧ selectorCode .vec512 = 3) ∧
  ∀ s : State,
    (s.run = .idle → s.csr 0 = 0b000) ∧ (s.run = .running → s.csr 0 = 0b001) ∧ (s.run = .done → s.csr 0 = 0b010) ∧
    (s.run = .faulted → s.csr 0 = 0b100) ∧ s.csr 1 = s.cpc ∧
    (s.fcause = none → s.csr 2 = 0) ∧ (s.fcause = some .cmdFetchFault → s.csr 2 = 1) ∧
    (s.fcause = some .illegalCommand → s.csr 2 = 2) ∧ (s.fcause = some .unsupportedFill → s.csr 2 = 3) ∧
    (s.fcause = some .badDistance → s.csr 2 = 4) ∧ (s.fcause = some .overlap → s.csr 2 = 5) ∧
    (s.fcause = some .misaligned → s.csr 2 = 6) ∧ (s.fcause = some .memFault → s.csr 2 = 7) ∧
    s.csr 3 = s.finfo ∧ (s.csr 4).toNat = s.cap.toNat ∧
    (s.csr 5).toNat = (selectorCode s.bind.cc).toNat + 4 * (selectorCode s.bind.ck).toNat +
      16 * (selectorCode s.bind.hs).toNat ∧
    (s.csr 6).toNat = s.W ∧ ∀ n, 7 ≤ n → s.csr n = 0

/-- `HostStart` (50 R244): from IDLE or DONE a run begins at the current `cpc`; in RUNNING and FAULTED it is ignored;
nothing else changes. -/
def Obligations.HostStartBeginsRun : Prop :=
  ∀ (s : State) (rest : List Event), s.pending = .host .start :: rest →
    (s.run = .idle ∨ s.run = .done → step s = .next { s with pending := rest, run := .running }) ∧
    (s.run = .running ∨ s.run = .faulted → step s = .next { s with pending := rest })

/-- The other host actions (50_host_interface.md section 2): a control register is always readable; `CPC` and the operand
registers are writable while STATUS.RUN = 0 and every other register write is ignored; operand registers are readable
while RUN = 0; command memory is writable while RUN = 0 at a `CmdValid` address; data memory is always reachable at a
`Valid` address. That a forbidden move is refused by name is the model's choice (log entry 11), and so is the free value
read while RUN = 1 (log entry 14). -/
def Obligations.HostActionEffects : Prop :=
  ∀ (s : State) (rest : List Event) (a : HostAction) (p : State), s.pending = .host a :: rest →
    p = { s with pending := rest } →
    (∀ n, a = .readCsr n → step s = .next { p with reply := some (s.csr n) }) ∧
    (∀ n v, a = .writeCsr n v →
      step s = .next (if n = 1 ∧ s.run ≠ .running then { p with cpc := v } else p)) ∧
    (∀ i, a = .readReg i → s.run ≠ .running → step s = .next { p with reply := some (s.reg i) }) ∧
    (∀ i, a = .readReg i → s.run = .running →
      step s = .next { p with reply := some (Config.freeWord s.draws), draws := s.draws + 1 }) ∧
    (∀ i v, a = .writeReg i v → s.run = .running → step s = .next p) ∧
    (∀ i v, a = .writeReg i v → s.run ≠ .running →
      ∃ t, step s = .next t ∧ t.reg i = v ∧ SameRegsBut i s t ∧ t = { p with regs := t.regs }) ∧
    (∀ x b, a = .writeCmd x b → s.run = .running → step s = .refused .cmdWriteWhileRunning) ∧
    (∀ x b, a = .writeCmd x b → s.run ≠ .running → validAddr s.cfg.cmdValid x.toNat = true →
      ∃ t, step s = .next t ∧ t = { p with cmem := t.cmem } ∧
        ∀ y, Memory.readByte t.cmem y = if y = x.toNat then b else Memory.readByte s.cmem y) ∧
    (∀ x, a = .readMem x → validAddr s.cfg.valid x.toNat = true →
      step s = .next { p with reply := some ((Memory.readByte s.mem x.toNat).setWidth 64) }) ∧
    (∀ x b, a = .writeMem x b → validAddr s.cfg.valid x.toNat = true →
      ∃ t, step s = .next t ∧ t = { p with mem := t.mem } ∧
        ∀ y, Memory.readByte t.mem y = if y = x.toNat then b else Memory.readByte s.mem y)

/-- What a program can observe of the binding (45_dispatcher.md section 2; the spec marks it as derived): two instances
that agree on registers, data memory and entry width but may differ in `W`, `BIND` and everything else give the same
destination bytes, the same registers and the same tables, wherever both complete. -/
def Obligations.ResultsIgnoreBackend : Prop :=
  ∀ (i : Instr) (s t s' t' : State), widthFree i = true → SameRegs s s' → SameMem s s' →
    s.cfg.entryWidth = s'.cfg.entryWidth → s.run = .running → s'.run = .running →
    exec i s = .next t → exec i s' = .next t' → t.run = .running → t'.run = .running →
    SameRegs t t' ∧ ∀ a, logicalDest i s a → Memory.readByte t.mem a = Memory.readByte t'.mem a

/-- Nothing a command does depends on where it stands: at another `cpc` it does the same, and `cpc` moves by as much
(40_sequencing.md section 4; the spec marks it as derived). -/
def Obligations.PositionIndependence : Prop :=
  ∀ (i : Instr) (s : State) (p : Word),
    exec i { s with cpc := p } = mapNext (fun t => { t with cpc := p + (t.cpc - s.cpc) }) (exec i s)

/-- Two commands on two instances over one data memory whose footprints conflict at no byte commute: either order leaves
the same memory, and each instance the same registers, chunk registers and status (60_exceptions.md section 6). The
second instance is a second state of the same machine; the model runs one (log entry 26). Both orders are compared at the
same draws of free values, so unspecified slack is the same byte in both (log entry 8). -/
def Obligations.DisjointCommandsCommute : Prop :=
  ∀ (i j : Instr) (s s' t t' u u' : State), s'.mem = s.mem → (∀ c, (s.chunk c).length = s.W) →
    (∀ c, (s'.chunk c).length = s'.W) → (∀ a, ¬conflictAt i s j s' a) →
    exec i s = .next t → exec j { s' with mem := t.mem } = .next t' →
    exec j s' = .next u' → exec i { s with mem := u'.mem } = .next u →
    SameMem t' u ∧ SameRegs t u ∧ SameRegs t' u' ∧ SameChunks t u ∧ SameChunks t' u' ∧ SameStatus t u ∧ SameStatus t' u'
end

