-- ==== Sys2Proof/Laws/Assembler.lean ====
section
/-! SUPPORT. The assembler reads back the texts of 30 R102: numbers, registers, and a line as its mnemonic and operands. -/

namespace Sys2Proof.Machine

/-- A text with at least one character and none of the line's separators. -/
def PlainText (t : List Char) : Prop := t ≠ [] ∧ ∀ c ∈ t, isBlank c = false ∧ c ≠ ',' ∧ c ≠ ';'

/-! ## Numbers and registers -/

theorem mem_toDigits {b : Nat} (hb : 1 < b) (n : Nat) : ∀ c ∈ Nat.toDigits b n, ∃ d < b, c = Nat.digitChar d := by
  induction n using Nat.strongRecOn with
  | ind n ih =>
    intro c hc
    rw [Nat.toDigits_eq_if hb] at hc
    split at hc
    · next h => exact ⟨n, h, by simpa using hc⟩
    · next h =>
      rcases List.mem_append.mp hc with hc | hc
      · exact ih _ (Nat.div_lt_self (by omega) hb) c hc
      · exact ⟨n % b, Nat.mod_lt _ (by omega), by simpa using hc⟩

theorem toDigits_ne_nil {b : Nat} (hb : 1 < b) (n : Nat) : Nat.toDigits b n ≠ [] := by
  rw [Nat.toDigits_eq_if hb]; split <;> simp

theorem plain_digitChar : ∀ d < 16, isBlank (Nat.digitChar d) = false ∧ Nat.digitChar d ≠ ',' ∧
    Nat.digitChar d ≠ ';' ∧ Nat.digitChar d ≠ 'x' := by decide

theorem digitValue_digitChar : (∀ d < 10, digitValue 10 (Nat.digitChar d) = some d) ∧
    ∀ d < 16, digitValue 16 (Nat.digitChar d) = some d := by decide

/-- Digits of a number, then a prefix of plain characters: still plain. -/
theorem plainText_toDigits {b : Nat} (h1 : 1 < b) (h2 : b ≤ 16) (pre : List Char) (n : Nat)
    (hp : ∀ c ∈ pre, isBlank c = false ∧ c ≠ ',' ∧ c ≠ ';') : PlainText (pre ++ Nat.toDigits b n) := by
  refine ⟨fun h => toDigits_ne_nil h1 n (List.append_eq_nil_iff.mp h).2, fun c hc => ?_⟩
  rcases List.mem_append.mp hc with hc | hc
  · exact hp c hc
  · obtain ⟨d, hd, rfl⟩ := mem_toDigits h1 n c hc
    have := plain_digitChar d (by omega)
    exact ⟨this.1, this.2.1, this.2.2.1⟩

theorem plainText_regText (r : Reg) : PlainText (regText r) :=
  plainText_toDigits (b := 10) (by decide) (by decide) ['r'] r.val (by simp [isBlank])

theorem plainText_cregText (c : CReg) : PlainText (cregText c) :=
  plainText_toDigits (b := 10) (by decide) (by decide) ['c'] c.val (by simp [isBlank])

theorem plainText_decText (n : Nat) : PlainText (decText n) :=
  plainText_toDigits (b := 10) (by decide) (by decide) [] n (by simp)

theorem plainText_hexText (n : Nat) : PlainText (hexText n) :=
  plainText_toDigits (b := 16) (by decide) (by decide) ['0', 'x'] n (by simp [isBlank])

theorem readDigits_append (b : Nat) (t : List Char) (c : Char) (acc : Nat) :
    readDigits b acc (t ++ [c]) = (readDigits b acc t).bind fun v => (digitValue b c).map fun d => v * b + d := by
  induction t generalizing acc with
  | nil => simp only [List.nil_append, readDigits]; cases digitValue b c <;> rfl
  | cons a t ih =>
    simp only [List.cons_append, readDigits]
    cases digitValue b a with
    | none => rfl
    | some d => exact ih _

/-- Reading the digits of a number gives the number. -/
theorem readDigits_toDigits {b : Nat} (hb : 1 < b) (hd : ∀ d < b, digitValue b (Nat.digitChar d) = some d) (n : Nat) :
    readDigits b 0 (Nat.toDigits b n) = some n := by
  induction n using Nat.strongRecOn with
  | ind n ih =>
    rw [Nat.toDigits_eq_if hb]
    split
    · next h => simp [readDigits, hd n h]
    · next h =>
      rw [readDigits_append, ih _ (Nat.div_lt_self (by omega) hb), hd _ (Nat.mod_lt _ (by omega))]
      simp [Nat.div_add_mod']

theorem readDecimal_toDigits (n : Nat) : readDecimal (Nat.toDigits 10 n) = some n := by
  rw [readDecimal, if_neg (toDigits_ne_nil (by decide) n), readDigits_toDigits (by decide) digitValue_digitChar.1]

theorem readNumber_decText (n : Nat) : readNumber (decText n) = some n := by
  have hx : ∀ ds, decText n ≠ '0' :: 'x' :: ds := fun ds h => by
    obtain ⟨d, hd, h'⟩ := mem_toDigits (b := 10) (by decide) n 'x' (by
      change 'x' ∈ decText n; rw [h]; simp)
    exact (plain_digitChar d (by omega)).2.2.2 h'.symm
  rw [readNumber]
  · exact readDecimal_toDigits n
  · exact fun d ds h => hx (d :: ds) h

theorem readNumber_hexText (n : Nat) : readNumber (hexText n) = some n := by
  have h := readDigits_toDigits (b := 16) (by decide) digitValue_digitChar.2 n
  rw [hexText]
  cases hd : Nat.toDigits 16 n with
  | nil => exact absurd hd (toDigits_ne_nil (by decide) n)
  | cons d ds => rw [readNumber, ← hd, h]

theorem readReg_regText (r : Reg) : readReg (regText r) = some r := by
  simp [regText, readReg, readDecimal_toDigits]

theorem readCReg_cregText (c : CReg) : readCReg (cregText c) = some c := by
  simp [cregText, readCReg, readDecimal_toDigits]

/-! ## Lines -/

theorem takeWhile_append_stop {p : Char → Bool} {t : List Char} (ht : ∀ c ∈ t, p c = true) {a : Char} (ha : p a = false)
    (rest : List Char) : (t ++ a :: rest).takeWhile p = t ∧ (t ++ a :: rest).dropWhile p = a :: rest := by
  induction t with
  | nil => simp [ha]
  | cons b t ih =>
    have := ih fun c hc => ht c (List.mem_cons_of_mem _ hc)
    simp [ht b (List.mem_cons_self ..), this.1, this.2]

theorem dropWhile_blank {t : List Char} (h : ∀ c ∈ t, isBlank c = false) : t.dropWhile isBlank = t := by
  cases t with
  | nil => rfl
  | cons a t => simp [h a (List.mem_cons_self ..)]

/-- Text that starts and ends without a blank is kept. -/
theorem trimBlanks_eq {a b t : List Char} (ha : PlainText a) (hb : PlainText b) : trimBlanks (a ++ (t ++ b)) = a ++ (t ++ b) := by
  have key : ∀ {a : List Char}, PlainText a → ∀ r, (a ++ r).dropWhile isBlank = a ++ r := by
    rintro (_ | ⟨c, a⟩) h r
    · exact absurd rfl h.1
    · simp [(h.2 c (List.mem_cons_self ..)).1]
  have hr : PlainText b.reverse := ⟨by simpa using hb.1, fun c hc => hb.2 c (by simpa using hc)⟩
  rw [trimBlanks, key ha, ← List.append_assoc, List.reverse_append, key hr, ← List.reverse_append, List.reverse_reverse]

theorem trimBlanks_plain {a : List Char} (ha : PlainText a) : trimBlanks a = a ∧ trimBlanks (' ' :: a) = a := by
  have h : ∀ {a : List Char}, (∀ c ∈ a, isBlank c = false) → (a.reverse.dropWhile isBlank).reverse = a := fun h => by
    rw [dropWhile_blank fun c hc => h c (by simpa using hc), List.reverse_reverse]
  have h1 : ∀ c ∈ a, isBlank c = false := fun c hc => (ha.2 c hc).1
  constructor
  · rw [trimBlanks, dropWhile_blank h1, h h1]
  · rw [trimBlanks, List.dropWhile_cons_of_pos (by decide), dropWhile_blank h1, h h1]

theorem blank_of_trimBlanks_nil {t : List Char} (h : trimBlanks t = []) : ∀ c ∈ t, isBlank c = true := by
  intro c hc
  rw [trimBlanks, List.reverse_eq_nil_iff, List.dropWhile_eq_nil_iff] at h
  rw [← List.takeWhile_append_dropWhile (p := isBlank) (l := t)] at hc
  rcases List.mem_append.mp hc with hc | hc
  · exact List.mem_takeWhile_imp hc
  · exact h c (by simpa using hc)

theorem splitCommas_plain {a : List Char} (ha : ∀ c ∈ a, c ≠ ',') :
    splitCommas a = [a] ∧ ∀ r, splitCommas (a ++ ',' :: r) = a :: splitCommas r := by
  induction a with
  | nil => simp [splitCommas]
  | cons c a ih =>
    obtain ⟨h1, h2⟩ := ih fun d hd => ha d (List.mem_cons_of_mem _ hd)
    have hc := ha c (List.mem_cons_self ..)
    exact ⟨by rw [splitCommas, if_neg hc, h1], fun r => by rw [List.cons_append, splitCommas, if_neg hc, h2]⟩

/-- The pieces of joined operands, with one blank before each. -/
theorem map_trim_splitCommas : ∀ {ops : List (List Char)}, ops ≠ [] → (∀ t ∈ ops, PlainText t) →
    (splitCommas (' ' :: joinOperands ops)).map trimBlanks = ops
  | [], h, _ => absurd rfl h
  | [t], _, h => by
    have ht := h t (List.mem_cons_self ..)
    have hs : ∀ c ∈ ' ' :: t, c ≠ ',' := by
      intro c hc; rcases List.mem_cons.mp hc with rfl | hc
      · decide
      · exact (ht.2 c hc).2.1
    rw [joinOperands, (splitCommas_plain hs).1]
    simp [(trimBlanks_plain ht).2]
  | t :: u :: ts, _, h => by
    have ht := h t (List.mem_cons_self ..)
    have hs : ∀ c ∈ ' ' :: t, c ≠ ',' := by
      intro c hc; rcases List.mem_cons.mp hc with rfl | hc
      · decide
      · exact (ht.2 c hc).2.1
    have ih := map_trim_splitCommas (ops := u :: ts) (by simp) fun x hx => h x (List.mem_cons_of_mem _ hx)
    rw [joinOperands, ← List.cons_append, (splitCommas_plain hs).2, List.map_cons, ih, (trimBlanks_plain ht).2]

/-- Joined operands end in a plain text. -/
theorem joinOperands_end : ∀ {ops : List (List Char)}, ops ≠ [] → (∀ t ∈ ops, PlainText t) →
    ∃ p b, joinOperands ops = p ++ b ∧ PlainText b
  | [], h, _ => absurd rfl h
  | [t], _, h => ⟨[], t, rfl, h t (List.mem_cons_self ..)⟩
  | t :: u :: ts, _, h => by
    obtain ⟨p, b, hp, hb⟩ := joinOperands_end (ops := u :: ts) (by simp) fun x hx => h x (List.mem_cons_of_mem _ hx)
    exact ⟨t ++ ',' :: ' ' :: p, b, by rw [joinOperands, hp]; simp, hb⟩

theorem joinOperands_no_comment : ∀ {ops : List (List Char)}, (∀ t ∈ ops, PlainText t) → ∀ c ∈ joinOperands ops, c ≠ ';'
  | [], _, c, hc => by simp [joinOperands] at hc
  | [t], h, c, hc => ((h t (List.mem_cons_self ..)).2 c hc).2.2
  | t :: u :: ts, h, c, hc => by
    rw [joinOperands] at hc
    rcases List.mem_append.mp hc with hc | hc
    · exact ((h t (List.mem_cons_self ..)).2 c hc).2.2
    · rcases List.mem_cons.mp hc with rfl | hc
      · decide
      · rcases List.mem_cons.mp hc with rfl | hc
        · decide
        · exact joinOperands_no_comment (fun x hx => h x (List.mem_cons_of_mem _ hx)) c hc

theorem stripComment_eq {t : List Char} (h : ∀ c ∈ t, c ≠ ';') : stripComment t = t :=
  List.takeWhile_eq_self_iff.mpr fun c hc => by simpa using h c hc

theorem stripComment_comment (line comment : List Char) : stripComment (line ++ ';' :: comment) = stripComment line := by
  induction line with
  | nil => rfl
  | cons a t ih =>
    simp only [stripComment, List.cons_append, List.takeWhile_cons] at ih ⊢
    rw [ih]

/-- A line assembles as the command of its mnemonic and operands. -/
theorem assembleLine_lineText {m : String} {ops : List (List Char)} (hm : PlainText m.toList) (hne : ops ≠ [])
    (ho : ∀ t ∈ ops, PlainText t) : assembleLine (lineText m ops) = (asmCommand m.toList ops).map some := by
  obtain ⟨p, b, hp, hb⟩ := joinOperands_end hne ho
  have hs : stripComment (lineText m ops) = lineText m ops := stripComment_eq fun c hc => by
    rcases List.mem_append.mp hc with hc | hc
    · exact (hm.2 c hc).2.2
    · rcases List.mem_cons.mp hc with rfl | hc
      · decide
      · exact joinOperands_no_comment ho c hc
  have ht : trimBlanks (lineText m ops) = lineText m ops := by
    rw [lineText, hp]; exact trimBlanks_eq (t := ' ' :: p) hm hb
  have hn : lineText m ops ≠ [] := by simp [lineText]
  obtain ⟨h1, h2⟩ := takeWhile_append_stop (p := fun c => !isBlank c) (t := m.toList)
    (fun c hc => by simp [(hm.2 c hc).1]) (a := ' ') (by decide) (joinOperands ops)
  have hj : trimBlanks (' ' :: joinOperands ops) ≠ [] := fun h => by
    obtain ⟨c, b, rfl⟩ := List.exists_cons_of_ne_nil hb.1
    have := blank_of_trimBlanks_nil h c (by simp [hp])
    rw [(hb.2 c (List.mem_cons_self ..)).1] at this
    cases this
  rw [assembleLine, hs, ht, if_neg hn, lineText, h1, h2, operandTexts, if_neg hj, map_trim_splitCommas hne ho]
  cases asmCommand m.toList ops <;> rfl

end Sys2Proof.Machine
end

