-- ==== Sys2Proof/Laws/Memory.lean ====
section
/-! SUPPORT. What the memory operations do: read after write, the canonical form kept, what a valid range is. -/

namespace Sys2Proof.Machine

/-! ## Reading one byte -/

@[simp] theorem Memory.readByte_nil (a : Nat) : Memory.readByte [] a = Memory.unlisted := rfl

theorem Memory.readByte_cons (c : Host.Cell) (m : Memory) (a : Nat) :
    Memory.readByte (c :: m) a = if c.1 = a then c.2 else Memory.readByte m a := rfl

/-- Addresses the list does not hold read as unlisted. -/
theorem Memory.readByte_of_forall_ne {m : Memory} {a : Nat} (h : ∀ c ∈ m, c.1 ≠ a) :
    Memory.readByte m a = Memory.unlisted := by
  induction m with
  | nil => rfl
  | cons c m ih =>
    rw [Memory.readByte_cons, if_neg (h c (by simp)), ih fun d hd => h d (by simp [hd])]

theorem Memory.readByte_append (m n : Memory) (a : Nat) :
    Memory.readByte (m ++ n) a = if ∃ c ∈ m, c.1 = a then Memory.readByte m a else Memory.readByte n a := by
  induction m with
  | nil => simp
  | cons c m ih =>
    by_cases h : c.1 = a
    · simp [Memory.readByte_cons, h]
    · simp [Memory.readByte_cons, h, ih]

theorem Memory.readByte_filter {p : Nat → Bool} {a : Nat} (h : p a = true) (m : Memory) :
    Memory.readByte (m.filter fun c => p c.1) a = Memory.readByte m a := by
  induction m with
  | nil => rfl
  | cons c m ih =>
    by_cases hc : p c.1 = true
    · simp [hc, Memory.readByte_cons, ih]
    · have : c.1 ≠ a := fun e => hc (e ▸ h)
      simp [hc, Memory.readByte_cons, this, ih]

theorem Memory.cells_bounds {a : Nat} {v : List Byte} {c : Host.Cell} (h : c ∈ Memory.cells a v) :
    a ≤ c.1 ∧ c.1 < a + v.length ∧ c.2 ≠ Memory.unlisted := by
  induction v generalizing a with
  | nil => simp [Memory.cells] at h
  | cons b v ih =>
    rw [Memory.cells] at h
    split at h
    · obtain ⟨h1, h2, h3⟩ := ih h
      exact ⟨by omega, by simp only [List.length_cons]; omega, h3⟩
    · rcases List.mem_cons.mp h with rfl | h
      · simp_all
      · obtain ⟨h1, h2, h3⟩ := ih h
        exact ⟨by omega, by simp only [List.length_cons]; omega, h3⟩

theorem Memory.readByte_cells (a : Nat) (v : List Byte) (i : Nat) :
    Memory.readByte (Memory.cells a v) (a + i) = v.getD i Memory.unlisted := by
  induction v generalizing a i with
  | nil => simp [Memory.cells]
  | cons b v ih =>
    cases i with
    | zero =>
      rw [Memory.cells]
      split
      · rename_i hb
        rw [Memory.readByte_of_forall_ne fun c hc => ?_]
        · simp [hb]
        · have := Memory.cells_bounds hc; omega
      · simp [Memory.readByte_cons]
    | succ i =>
      have e : a + (i + 1) = a + 1 + i := by omega
      rw [Memory.cells]
      split
      · rw [e, ih]; simp
      · rw [Memory.readByte_cons, if_neg (by simp), e, ih]; simp

/-- Read after write: inside the written run the new byte, elsewhere the old one. -/
theorem Memory.readByte_write (m : Memory) (a : Nat) (v : List Byte) (x : Nat) :
    Memory.readByte (Memory.write m a v) x =
      if a ≤ x ∧ x < a + v.length then v.getD (x - a) Memory.unlisted else Memory.readByte m x := by
  unfold Memory.write
  by_cases hv : v = []
  · subst hv; rw [if_pos rfl, if_neg (by simp)]
  rw [if_neg hv, Memory.readByte_append, Memory.readByte_append]
  by_cases hlow : x < a
  · rw [if_neg (by omega : ¬(a ≤ x ∧ x < a + v.length))]
    split
    · exact Memory.readByte_filter (p := fun y => decide (y < a)) (by simpa using hlow) m
    · rename_i hno
      have none : ∀ c ∈ m, c.1 ≠ x := fun c hc e => hno ⟨c, by simp [hc]; omega, e⟩
      rw [Memory.readByte_of_forall_ne none, if_neg, Memory.readByte_of_forall_ne]
      · intro c hc; exact none c (List.mem_filter.mp hc).1
      · rintro ⟨c, hc, e⟩; have := Memory.cells_bounds hc; omega
  rw [if_neg (by rintro ⟨c, hc, e⟩; have := (List.mem_filter.mp hc).2; simp at this; omega)]
  by_cases hin : x < a + v.length
  · rw [if_pos (⟨by omega, hin⟩ : a ≤ x ∧ x < a + v.length)]
    have hx : x = a + (x - a) := by omega
    split
    · rw [hx, Memory.readByte_cells]; simp
    · rename_i hno
      have : Memory.readByte (Memory.cells a v) x = Memory.unlisted :=
        Memory.readByte_of_forall_ne fun c hc e => hno ⟨c, hc, e⟩
      rw [hx, Memory.readByte_cells] at this
      rw [this]
      exact Memory.readByte_of_forall_ne fun c hc e => by
        have := (List.mem_filter.mp hc).2; simp at this; omega
  · rw [if_neg (by omega : ¬(a ≤ x ∧ x < a + v.length)),
      if_neg (by rintro ⟨c, hc, e⟩; have := Memory.cells_bounds hc; omega)]
    exact Memory.readByte_filter (p := fun y => decide (a + v.length ≤ y)) (by simp; omega) m

/-- Byte `i` of a written run. -/
theorem Memory.readByte_write_inside (m : Memory) (a : Nat) {v : List Byte} {i : Nat} (h : i < v.length) :
    Memory.readByte (Memory.write m a v) (a + i) = v[i] := by
  rw [Memory.readByte_write, if_pos (by omega), Nat.add_sub_cancel_left, List.getD_eq_getElem?_getD,
    List.getElem?_eq_getElem h, Option.getD_some]

/-- A byte outside a written run. -/
theorem Memory.readByte_write_outside (m : Memory) {a x : Nat} {v : List Byte} (h : ¬(a ≤ x ∧ x < a + v.length)) :
    Memory.readByte (Memory.write m a v) x = Memory.readByte m x := by
  rw [Memory.readByte_write, if_neg h]

@[simp] theorem Memory.write_nil (m : Memory) (a : Nat) : Memory.write m a [] = m := rfl

/-! ## Reading a run -/

@[simp] theorem Memory.read_length (m : Memory) (a n : Nat) : (Memory.read m a n).length = n := by simp [Memory.read]

@[simp] theorem Memory.read_getElem (m : Memory) (a n i : Nat) (h : i < (Memory.read m a n).length) :
    (Memory.read m a n)[i] = Memory.readByte m (a + i) := by simp [Memory.read]

theorem Memory.read_congr {m m' : Memory} {a a' n : Nat}
    (h : ∀ i < n, Memory.readByte m (a + i) = Memory.readByte m' (a' + i)) : Memory.read m a n = Memory.read m' a' n := by
  apply List.ext_getElem <;> simp_all

/-! ## The canonical form -/

theorem Memory.cells_sorted (a : Nat) (v : List Byte) : (Memory.cells a v).Pairwise fun c d => c.1 < d.1 := by
  induction v generalizing a with
  | nil => simp [Memory.cells]
  | cons b v ih =>
    rw [Memory.cells]
    split
    · exact ih _
    · exact List.pairwise_cons.mpr ⟨fun c hc => by have := Memory.cells_bounds hc; simp; omega, ih _⟩

/-- A cell of a written memory is an old cell or lies in the written run. -/
theorem Memory.mem_write {m : Memory} {a : Nat} {v : List Byte} {c : Host.Cell} (h : c ∈ Memory.write m a v) :
    c ∈ m ∨ (a ≤ c.1 ∧ c.1 < a + v.length ∧ c.2 ≠ Memory.unlisted) := by
  unfold Memory.write at h
  split at h
  · exact .inl h
  · rcases List.mem_append.mp h with h | h
    · exact .inl (List.mem_filter.mp h).1
    · rcases List.mem_append.mp h with h | h
      · exact .inr (Memory.cells_bounds h)
      · exact .inl (List.mem_filter.mp h).1

/-- A write keeps the canonical form. -/
theorem Memory.write_wf {m : Memory} (h : Memory.wf m) (a : Nat) (v : List Byte) : Memory.wf (Memory.write m a v) := by
  refine ⟨?_, fun c hc => ?_⟩
  · unfold Memory.write
    split
    · exact h.1
    · refine List.pairwise_append.mpr ⟨h.1.filter _, List.pairwise_append.mpr
        ⟨Memory.cells_sorted a v, h.1.filter _, fun c hc d hd => ?_⟩, fun c hc d hd => ?_⟩
      · have h1 := Memory.cells_bounds hc
        have h2 := (List.mem_filter.mp hd).2
        simp at h2; omega
      · have h1 := (List.mem_filter.mp hc).2
        simp at h1
        rcases List.mem_append.mp hd with hd | hd
        · have := Memory.cells_bounds hd; omega
        · have := (List.mem_filter.mp hd).2
          simp at this; omega
  · rcases Memory.mem_write hc with hc | hc
    · exact h.2 c hc
    · exact hc.2.2

theorem Memory.readByte_eq_of_mem {m : Memory} (h : Memory.wf m) {c : Host.Cell} (hc : c ∈ m) :
    Memory.readByte m c.1 = c.2 := by
  induction m with
  | nil => simp at hc
  | cons d m ih =>
    have hs := List.pairwise_cons.mp h.1
    rcases List.mem_cons.mp hc with rfl | hc
    · simp [Memory.readByte_cons]
    · have hne : d.1 ≠ c.1 := Nat.ne_of_lt (hs.1 c hc)
      rw [Memory.readByte_cons, if_neg hne, ih ⟨hs.2, fun e he => h.2 e (by simp [he])⟩ hc]

/-- Two canonical memories that read alike at every address are the same list. -/
theorem Memory.eq_of_readByte_eq {m n : Memory} (hm : Memory.wf m) (hn : Memory.wf n)
    (h : ∀ a, Memory.readByte m a = Memory.readByte n a) : m = n := by
  have sub : ∀ {p q : Memory}, Memory.wf p → Memory.wf q → (∀ a, Memory.readByte p a = Memory.readByte q a) →
      ∀ c ∈ p, c ∈ q := by
    intro p q hp hq hpq c hc
    by_contra hnot
    have hread : Memory.readByte q c.1 = c.2 := by rw [← hpq, Memory.readByte_eq_of_mem hp hc]
    by_cases hex : ∃ d ∈ q, d.1 = c.1
    · obtain ⟨d, hd, he⟩ := hex
      have : d.2 = c.2 := by rw [← hread, ← he, Memory.readByte_eq_of_mem hq hd]
      exact hnot (by rw [show c = d from Prod.ext he.symm this.symm]; exact hd)
    · rw [Memory.readByte_of_forall_ne fun d hd e => hex ⟨d, hd, e⟩] at hread
      exact hp.2 c hc hread.symm
  have nod : ∀ {p : Memory}, Memory.wf p → p.Nodup := fun hp =>
    hp.1.imp fun {c d} hlt e => by rw [e] at hlt; exact Nat.lt_irrefl _ hlt
  have perm : m.Perm n := (List.perm_ext_iff_of_nodup (nod hm) (nod hn)).mpr fun c =>
    ⟨sub hm hn h c, sub hn hm (fun a => (h a).symm) c⟩
  exact perm.eq_of_pairwise (fun a b _ _ h1 h2 => absurd h1 (Nat.lt_asymm h2)) hm.1 hn.1

/-! ## Little-endian numbers -/

@[simp] theorem leBytes_length (n v : Nat) : (leBytes n v).length = n := by
  induction n generalizing v with
  | zero => rfl
  | succ n ih => simp [leBytes, ih]

theorem le_lt (v : List Byte) : le v < 256 ^ v.length := by
  induction v with
  | nil => simp [le]
  | cons b v ih =>
    have := b.isLt
    simp only [le, List.length_cons, Nat.pow_succ]
    omega

theorem le_leBytes (n v : Nat) : le (leBytes n v) = v % 256 ^ n := by
  induction n generalizing v with
  | zero => simp [le, leBytes, Nat.mod_one]
  | succ n ih =>
    have h : v % (256 * 256 ^ n) = v % 256 + 256 * (v / 256 % 256 ^ n) := Nat.mod_mul
    rw [Nat.pow_succ, Nat.mul_comm (256 ^ n), h]
    simp only [le, leBytes, ih, BitVec.toNat_ofNat]
    omega

/-! ## Valid ranges -/

theorem validAddr_cons (r : Region) (rs : List Region) (x : Nat) :
    validAddr (r :: rs) x = true ↔ (r.base ≤ x ∧ x < r.base + r.size) ∨ validAddr rs x = true := by
  simp [validAddr, regionHas]

/-- `covered` says exactly that every address of the run is valid. -/
theorem covered_iff (rs : List Region) (lo hi : Nat) :
    covered rs lo hi = true ↔ ∀ x, lo ≤ x → x < hi → validAddr rs x = true := by
  induction rs generalizing lo hi with
  | nil =>
    simp only [covered, decide_eq_true_eq, validAddr, List.any_nil, Bool.false_eq_true]
    exact ⟨fun h x h1 h2 => by omega, fun h => by
      by_contra hc
      exact h lo (Nat.le_refl _) (by omega)⟩
  | cons r rs ih =>
    simp only [covered, Bool.or_eq_true, Bool.and_eq_true, decide_eq_true_eq, ih, validAddr_cons]
    constructor
    · rintro (h | ⟨h1, h2⟩) x hx hy
      · omega
      · by_cases hb : x < r.base
        · exact .inr (h1 x hx (by omega))
        · by_cases ht : x < r.base + r.size
          · exact .inl ⟨by omega, ht⟩
          · exact .inr (h2 x (by omega) hy)
    · intro h
      by_cases he : hi ≤ lo
      · exact .inl he
      · refine .inr ⟨fun x hx hy => ?_, fun x hx hy => ?_⟩
        · exact (h x hx (by omega)).resolve_left (by omega)
        · exact (h x (by omega) hy).resolve_left (by omega)

/-- The meaning of `ValidRange` (00 R11). -/
theorem rangeIn_iff (rs : List Region) (a : Int) (n : Nat) :
    rangeIn rs a n = true ↔
      n = 0 ∨ (0 ≤ a ∧ a + n ≤ 2 ^ 64 ∧ ∀ x : Nat, a ≤ x → (x : Int) < a + n → validAddr rs x = true) := by
  simp only [rangeIn, Bool.or_eq_true, Bool.and_eq_true, decide_eq_true_eq, covered_iff]
  constructor
  · rintro (h | ⟨⟨h1, h2⟩, h3⟩)
    · exact .inl h
    · exact .inr ⟨h1, h2, fun x hx hy => h3 x (by omega) (by omega)⟩
  · rintro (h | ⟨h1, h2, h3⟩)
    · exact .inl h
    · exact .inr ⟨⟨h1, h2⟩, fun x hx hy => h3 x (by omega) (by omega)⟩

/-- `ValidRange` at an address given as a number. -/
theorem State.validRange_iff (s : State) (a n : Nat) :
    s.validRange a n = true ↔
      n = 0 ∨ (a + n ≤ 2 ^ 64 ∧ ∀ x, a ≤ x → x < a + n → validAddr s.cfg.valid x = true) := by
  unfold State.validRange
  rw [rangeIn_iff]
  constructor
  · rintro (h | ⟨_, h2, h3⟩)
    · exact .inl h
    · exact .inr ⟨by omega, fun x hx hy => h3 x (by omega) (by omega)⟩
  · rintro (h | ⟨h2, h3⟩)
    · exact .inl h
    · exact .inr ⟨by omega, by omega, fun x hx hy => h3 x (by omega) (by omega)⟩

/-- The meaning of `Disjoint` (00 R11). -/
theorem disjoint_iff (a n b m : Nat) : disjoint a n b m = true ↔ n = 0 ∨ m = 0 ∨ a + n ≤ b ∨ b + m ≤ a := by
  simp only [disjoint, Bool.or_eq_true, decide_eq_true_eq, or_assoc]

/-! ## Free bytes -/

@[simp] theorem State.anyBytes_length (s : State) (n : Nat) : (s.anyBytes n).length = n := by simp [State.anyBytes]

end Sys2Proof.Machine
end

