-- ==== Sys2Proof/Laws/State.lean ====
section
/-! SUPPORT. One lemma per field per update of `State`, and the reads of registers and operands after an update. -/

namespace Sys2Proof.Machine

/-! ## `State.setReg` -/

@[simp] theorem State.setReg_cfg (s : State) (i : Reg) (v : Word) : (s.setReg i v).cfg = s.cfg := rfl
@[simp] theorem State.setReg_strap (s : State) (i : Reg) (v : Word) : (s.setReg i v).strap = s.strap := rfl
@[simp] theorem State.setReg_regs (s : State) (i : Reg) (v : Word) : (s.setReg i v).regs = s.regs.set i.val v := rfl
@[simp] theorem State.setReg_cpc (s : State) (i : Reg) (v : Word) : (s.setReg i v).cpc = s.cpc := rfl
@[simp] theorem State.setReg_chunks (s : State) (i : Reg) (v : Word) : (s.setReg i v).chunks = s.chunks := rfl
@[simp] theorem State.setReg_run (s : State) (i : Reg) (v : Word) : (s.setReg i v).run = s.run := rfl
@[simp] theorem State.setReg_fcause (s : State) (i : Reg) (v : Word) : (s.setReg i v).fcause = s.fcause := rfl
@[simp] theorem State.setReg_finfo (s : State) (i : Reg) (v : Word) : (s.setReg i v).finfo = s.finfo := rfl
@[simp] theorem State.setReg_cap (s : State) (i : Reg) (v : Word) : (s.setReg i v).cap = s.cap := rfl
@[simp] theorem State.setReg_bind (s : State) (i : Reg) (v : Word) : (s.setReg i v).bind = s.bind := rfl
@[simp] theorem State.setReg_chunksz (s : State) (i : Reg) (v : Word) : (s.setReg i v).chunksz = s.chunksz := rfl
@[simp] theorem State.setReg_mem (s : State) (i : Reg) (v : Word) : (s.setReg i v).mem = s.mem := rfl
@[simp] theorem State.setReg_cmem (s : State) (i : Reg) (v : Word) : (s.setReg i v).cmem = s.cmem := rfl
@[simp] theorem State.setReg_pending (s : State) (i : Reg) (v : Word) : (s.setReg i v).pending = s.pending := rfl
@[simp] theorem State.setReg_reply (s : State) (i : Reg) (v : Word) : (s.setReg i v).reply = s.reply := rfl
@[simp] theorem State.setReg_draws (s : State) (i : Reg) (v : Word) : (s.setReg i v).draws = s.draws := rfl

/-! ## `State.setChunk` -/

@[simp] theorem State.setChunk_cfg (s : State) (j : CReg) (v : Chunk) : (s.setChunk j v).cfg = s.cfg := rfl
@[simp] theorem State.setChunk_strap (s : State) (j : CReg) (v : Chunk) : (s.setChunk j v).strap = s.strap := rfl
@[simp] theorem State.setChunk_regs (s : State) (j : CReg) (v : Chunk) : (s.setChunk j v).regs = s.regs := rfl
@[simp] theorem State.setChunk_cpc (s : State) (j : CReg) (v : Chunk) : (s.setChunk j v).cpc = s.cpc := rfl
@[simp] theorem State.setChunk_chunks (s : State) (j : CReg) (v : Chunk) : (s.setChunk j v).chunks = s.chunks.set j.val v := rfl
@[simp] theorem State.setChunk_run (s : State) (j : CReg) (v : Chunk) : (s.setChunk j v).run = s.run := rfl
@[simp] theorem State.setChunk_fcause (s : State) (j : CReg) (v : Chunk) : (s.setChunk j v).fcause = s.fcause := rfl
@[simp] theorem State.setChunk_finfo (s : State) (j : CReg) (v : Chunk) : (s.setChunk j v).finfo = s.finfo := rfl
@[simp] theorem State.setChunk_cap (s : State) (j : CReg) (v : Chunk) : (s.setChunk j v).cap = s.cap := rfl
@[simp] theorem State.setChunk_bind (s : State) (j : CReg) (v : Chunk) : (s.setChunk j v).bind = s.bind := rfl
@[simp] theorem State.setChunk_chunksz (s : State) (j : CReg) (v : Chunk) : (s.setChunk j v).chunksz = s.chunksz := rfl
@[simp] theorem State.setChunk_mem (s : State) (j : CReg) (v : Chunk) : (s.setChunk j v).mem = s.mem := rfl
@[simp] theorem State.setChunk_cmem (s : State) (j : CReg) (v : Chunk) : (s.setChunk j v).cmem = s.cmem := rfl
@[simp] theorem State.setChunk_pending (s : State) (j : CReg) (v : Chunk) : (s.setChunk j v).pending = s.pending := rfl
@[simp] theorem State.setChunk_reply (s : State) (j : CReg) (v : Chunk) : (s.setChunk j v).reply = s.reply := rfl
@[simp] theorem State.setChunk_draws (s : State) (j : CReg) (v : Chunk) : (s.setChunk j v).draws = s.draws := rfl

/-! ## `State.setMem` -/

@[simp] theorem State.setMem_cfg (s : State) (m : Memory) : (s.setMem m).cfg = s.cfg := rfl
@[simp] theorem State.setMem_strap (s : State) (m : Memory) : (s.setMem m).strap = s.strap := rfl
@[simp] theorem State.setMem_regs (s : State) (m : Memory) : (s.setMem m).regs = s.regs := rfl
@[simp] theorem State.setMem_cpc (s : State) (m : Memory) : (s.setMem m).cpc = s.cpc := rfl
@[simp] theorem State.setMem_chunks (s : State) (m : Memory) : (s.setMem m).chunks = s.chunks := rfl
@[simp] theorem State.setMem_run (s : State) (m : Memory) : (s.setMem m).run = s.run := rfl
@[simp] theorem State.setMem_fcause (s : State) (m : Memory) : (s.setMem m).fcause = s.fcause := rfl
@[simp] theorem State.setMem_finfo (s : State) (m : Memory) : (s.setMem m).finfo = s.finfo := rfl
@[simp] theorem State.setMem_cap (s : State) (m : Memory) : (s.setMem m).cap = s.cap := rfl
@[simp] theorem State.setMem_bind (s : State) (m : Memory) : (s.setMem m).bind = s.bind := rfl
@[simp] theorem State.setMem_chunksz (s : State) (m : Memory) : (s.setMem m).chunksz = s.chunksz := rfl
@[simp] theorem State.setMem_mem (s : State) (m : Memory) : (s.setMem m).mem = m := rfl
@[simp] theorem State.setMem_cmem (s : State) (m : Memory) : (s.setMem m).cmem = s.cmem := rfl
@[simp] theorem State.setMem_pending (s : State) (m : Memory) : (s.setMem m).pending = s.pending := rfl
@[simp] theorem State.setMem_reply (s : State) (m : Memory) : (s.setMem m).reply = s.reply := rfl
@[simp] theorem State.setMem_draws (s : State) (m : Memory) : (s.setMem m).draws = s.draws := rfl

/-! ## `State.memWrite` -/

@[simp] theorem State.memWrite_cfg (s : State) (a : Nat) (v : List Byte) : (s.memWrite a v).cfg = s.cfg := rfl
@[simp] theorem State.memWrite_strap (s : State) (a : Nat) (v : List Byte) : (s.memWrite a v).strap = s.strap := rfl
@[simp] theorem State.memWrite_regs (s : State) (a : Nat) (v : List Byte) : (s.memWrite a v).regs = s.regs := rfl
@[simp] theorem State.memWrite_cpc (s : State) (a : Nat) (v : List Byte) : (s.memWrite a v).cpc = s.cpc := rfl
@[simp] theorem State.memWrite_chunks (s : State) (a : Nat) (v : List Byte) : (s.memWrite a v).chunks = s.chunks := rfl
@[simp] theorem State.memWrite_run (s : State) (a : Nat) (v : List Byte) : (s.memWrite a v).run = s.run := rfl
@[simp] theorem State.memWrite_fcause (s : State) (a : Nat) (v : List Byte) : (s.memWrite a v).fcause = s.fcause := rfl
@[simp] theorem State.memWrite_finfo (s : State) (a : Nat) (v : List Byte) : (s.memWrite a v).finfo = s.finfo := rfl
@[simp] theorem State.memWrite_cap (s : State) (a : Nat) (v : List Byte) : (s.memWrite a v).cap = s.cap := rfl
@[simp] theorem State.memWrite_bind (s : State) (a : Nat) (v : List Byte) : (s.memWrite a v).bind = s.bind := rfl
@[simp] theorem State.memWrite_chunksz (s : State) (a : Nat) (v : List Byte) : (s.memWrite a v).chunksz = s.chunksz := rfl
@[simp] theorem State.memWrite_mem (s : State) (a : Nat) (v : List Byte) : (s.memWrite a v).mem = Memory.write s.mem a v := rfl
@[simp] theorem State.memWrite_cmem (s : State) (a : Nat) (v : List Byte) : (s.memWrite a v).cmem = s.cmem := rfl
@[simp] theorem State.memWrite_pending (s : State) (a : Nat) (v : List Byte) : (s.memWrite a v).pending = s.pending := rfl
@[simp] theorem State.memWrite_reply (s : State) (a : Nat) (v : List Byte) : (s.memWrite a v).reply = s.reply := rfl
@[simp] theorem State.memWrite_draws (s : State) (a : Nat) (v : List Byte) : (s.memWrite a v).draws = s.draws := rfl

/-! ## `State.setRun` -/

@[simp] theorem State.setRun_cfg (s : State) (r : RunState) : (s.setRun r).cfg = s.cfg := rfl
@[simp] theorem State.setRun_strap (s : State) (r : RunState) : (s.setRun r).strap = s.strap := rfl
@[simp] theorem State.setRun_regs (s : State) (r : RunState) : (s.setRun r).regs = s.regs := rfl
@[simp] theorem State.setRun_cpc (s : State) (r : RunState) : (s.setRun r).cpc = s.cpc := rfl
@[simp] theorem State.setRun_chunks (s : State) (r : RunState) : (s.setRun r).chunks = s.chunks := rfl
@[simp] theorem State.setRun_run (s : State) (r : RunState) : (s.setRun r).run = r := rfl
@[simp] theorem State.setRun_fcause (s : State) (r : RunState) : (s.setRun r).fcause = s.fcause := rfl
@[simp] theorem State.setRun_finfo (s : State) (r : RunState) : (s.setRun r).finfo = s.finfo := rfl
@[simp] theorem State.setRun_cap (s : State) (r : RunState) : (s.setRun r).cap = s.cap := rfl
@[simp] theorem State.setRun_bind (s : State) (r : RunState) : (s.setRun r).bind = s.bind := rfl
@[simp] theorem State.setRun_chunksz (s : State) (r : RunState) : (s.setRun r).chunksz = s.chunksz := rfl
@[simp] theorem State.setRun_mem (s : State) (r : RunState) : (s.setRun r).mem = s.mem := rfl
@[simp] theorem State.setRun_cmem (s : State) (r : RunState) : (s.setRun r).cmem = s.cmem := rfl
@[simp] theorem State.setRun_pending (s : State) (r : RunState) : (s.setRun r).pending = s.pending := rfl
@[simp] theorem State.setRun_reply (s : State) (r : RunState) : (s.setRun r).reply = s.reply := rfl
@[simp] theorem State.setRun_draws (s : State) (r : RunState) : (s.setRun r).draws = s.draws := rfl

/-! ## `State.advance` -/

@[simp] theorem State.advance_cfg (s : State) : s.advance.cfg = s.cfg := rfl
@[simp] theorem State.advance_strap (s : State) : s.advance.strap = s.strap := rfl
@[simp] theorem State.advance_regs (s : State) : s.advance.regs = s.regs := rfl
@[simp] theorem State.advance_cpc (s : State) : s.advance.cpc = s.cpc + 4 := rfl
@[simp] theorem State.advance_chunks (s : State) : s.advance.chunks = s.chunks := rfl
@[simp] theorem State.advance_run (s : State) : s.advance.run = s.run := rfl
@[simp] theorem State.advance_fcause (s : State) : s.advance.fcause = s.fcause := rfl
@[simp] theorem State.advance_finfo (s : State) : s.advance.finfo = s.finfo := rfl
@[simp] theorem State.advance_cap (s : State) : s.advance.cap = s.cap := rfl
@[simp] theorem State.advance_bind (s : State) : s.advance.bind = s.bind := rfl
@[simp] theorem State.advance_chunksz (s : State) : s.advance.chunksz = s.chunksz := rfl
@[simp] theorem State.advance_mem (s : State) : s.advance.mem = s.mem := rfl
@[simp] theorem State.advance_cmem (s : State) : s.advance.cmem = s.cmem := rfl
@[simp] theorem State.advance_pending (s : State) : s.advance.pending = s.pending := rfl
@[simp] theorem State.advance_reply (s : State) : s.advance.reply = s.reply := rfl
@[simp] theorem State.advance_draws (s : State) : s.advance.draws = s.draws := rfl

/-! ## `State.drawn` -/

@[simp] theorem State.drawn_cfg (s : State) (n : Nat) : (s.drawn n).cfg = s.cfg := rfl
@[simp] theorem State.drawn_strap (s : State) (n : Nat) : (s.drawn n).strap = s.strap := rfl
@[simp] theorem State.drawn_regs (s : State) (n : Nat) : (s.drawn n).regs = s.regs := rfl
@[simp] theorem State.drawn_cpc (s : State) (n : Nat) : (s.drawn n).cpc = s.cpc := rfl
@[simp] theorem State.drawn_chunks (s : State) (n : Nat) : (s.drawn n).chunks = s.chunks := rfl
@[simp] theorem State.drawn_run (s : State) (n : Nat) : (s.drawn n).run = s.run := rfl
@[simp] theorem State.drawn_fcause (s : State) (n : Nat) : (s.drawn n).fcause = s.fcause := rfl
@[simp] theorem State.drawn_finfo (s : State) (n : Nat) : (s.drawn n).finfo = s.finfo := rfl
@[simp] theorem State.drawn_cap (s : State) (n : Nat) : (s.drawn n).cap = s.cap := rfl
@[simp] theorem State.drawn_bind (s : State) (n : Nat) : (s.drawn n).bind = s.bind := rfl
@[simp] theorem State.drawn_chunksz (s : State) (n : Nat) : (s.drawn n).chunksz = s.chunksz := rfl
@[simp] theorem State.drawn_mem (s : State) (n : Nat) : (s.drawn n).mem = s.mem := rfl
@[simp] theorem State.drawn_cmem (s : State) (n : Nat) : (s.drawn n).cmem = s.cmem := rfl
@[simp] theorem State.drawn_pending (s : State) (n : Nat) : (s.drawn n).pending = s.pending := rfl
@[simp] theorem State.drawn_reply (s : State) (n : Nat) : (s.drawn n).reply = s.reply := rfl
@[simp] theorem State.drawn_draws (s : State) (n : Nat) : (s.drawn n).draws = s.draws + n := rfl

/-! ## `State.takeFault` -/

@[simp] theorem State.takeFault_cfg (s : State) (c : Cause) (v : Word) : (s.takeFault c v).cfg = s.cfg := rfl
@[simp] theorem State.takeFault_strap (s : State) (c : Cause) (v : Word) : (s.takeFault c v).strap = s.strap := rfl
@[simp] theorem State.takeFault_regs (s : State) (c : Cause) (v : Word) : (s.takeFault c v).regs = s.regs := rfl
@[simp] theorem State.takeFault_cpc (s : State) (c : Cause) (v : Word) : (s.takeFault c v).cpc = s.cpc := rfl
@[simp] theorem State.takeFault_chunks (s : State) (c : Cause) (v : Word) : (s.takeFault c v).chunks = s.chunks := rfl
@[simp] theorem State.takeFault_run (s : State) (c : Cause) (v : Word) : (s.takeFault c v).run = .faulted := rfl
@[simp] theorem State.takeFault_fcause (s : State) (c : Cause) (v : Word) : (s.takeFault c v).fcause = some c := rfl
@[simp] theorem State.takeFault_finfo (s : State) (c : Cause) (v : Word) : (s.takeFault c v).finfo = v := rfl
@[simp] theorem State.takeFault_cap (s : State) (c : Cause) (v : Word) : (s.takeFault c v).cap = s.cap := rfl
@[simp] theorem State.takeFault_bind (s : State) (c : Cause) (v : Word) : (s.takeFault c v).bind = s.bind := rfl
@[simp] theorem State.takeFault_chunksz (s : State) (c : Cause) (v : Word) : (s.takeFault c v).chunksz = s.chunksz := rfl
@[simp] theorem State.takeFault_mem (s : State) (c : Cause) (v : Word) : (s.takeFault c v).mem = s.mem := rfl
@[simp] theorem State.takeFault_cmem (s : State) (c : Cause) (v : Word) : (s.takeFault c v).cmem = s.cmem := rfl
@[simp] theorem State.takeFault_pending (s : State) (c : Cause) (v : Word) : (s.takeFault c v).pending = s.pending := rfl
@[simp] theorem State.takeFault_reply (s : State) (c : Cause) (v : Word) : (s.takeFault c v).reply = s.reply := rfl
@[simp] theorem State.takeFault_draws (s : State) (c : Cause) (v : Word) : (s.takeFault c v).draws = s.draws := rfl

/-! ## `State.hostReset` -/

@[simp] theorem State.hostReset_cfg (s : State) : s.hostReset.cfg = s.cfg := rfl
@[simp] theorem State.hostReset_strap (s : State) : s.hostReset.strap = s.strap := rfl
@[simp] theorem State.hostReset_cpc (s : State) : s.hostReset.cpc = 0 := rfl
@[simp] theorem State.hostReset_run (s : State) : s.hostReset.run = .idle := rfl
@[simp] theorem State.hostReset_fcause (s : State) : s.hostReset.fcause = none := rfl
@[simp] theorem State.hostReset_finfo (s : State) : s.hostReset.finfo = 0 := rfl
@[simp] theorem State.hostReset_cap (s : State) : s.hostReset.cap = s.strap := rfl
@[simp] theorem State.hostReset_bind (s : State) : s.hostReset.bind = bindingOf s.strap s.cfg := rfl
@[simp] theorem State.hostReset_chunksz (s : State) : s.hostReset.chunksz = widthOf s.cfg.wFallback (bindingOf s.strap s.cfg).cc := rfl
@[simp] theorem State.hostReset_mem (s : State) : s.hostReset.mem = s.mem := rfl
@[simp] theorem State.hostReset_cmem (s : State) : s.hostReset.cmem = s.cmem := rfl
@[simp] theorem State.hostReset_pending (s : State) : s.hostReset.pending = s.pending := rfl
@[simp] theorem State.hostReset_reply (s : State) : s.hostReset.reply = s.reply := rfl
@[simp] theorem State.hostReset_regs (s : State) :
    s.hostReset.regs = Vector.ofFn fun i : Fin 16 => Config.freeWord (s.draws + i.val) := rfl
@[simp] theorem State.hostReset_draws (s : State) : s.hostReset.draws = s.draws + 16 + 4 * s.hostReset.W := rfl

/-! ## Registers and operands after an update -/

theorem State.reg_eq (s : State) (i : Reg) : s.reg i = s.regs[i.val] := rfl

@[simp] theorem State.reg_setReg_same (s : State) (i : Reg) (v : Word) : (s.setReg i v).reg i = v := by
  simp [State.reg, State.setReg]

theorem State.reg_setReg_ne (s : State) {i j : Reg} (v : Word) (h : j ≠ i) : (s.setReg i v).reg j = s.reg j := by
  have : i.val ≠ j.val := fun e => h (Fin.ext e.symm)
  simp [State.reg, State.setReg, this]

@[simp] theorem State.chunk_setChunk_same (s : State) (i : CReg) (v : Chunk) : (s.setChunk i v).chunk i = v := by
  simp [State.chunk, State.setChunk]

theorem State.chunk_setChunk_ne (s : State) {i j : CReg} (v : Chunk) (h : j ≠ i) :
    (s.setChunk i v).chunk j = s.chunk j := by
  have : i.val ≠ j.val := fun e => h (Fin.ext e.symm)
  simp [State.chunk, State.setChunk, this]

theorem State.hostReset_chunk_length (s : State) (j : CReg) : (s.hostReset.chunk j).length = s.hostReset.W := by
  simp [State.chunk, State.hostReset, State.W]

@[simp] theorem State.chunk_setReg (s : State) (i : Reg) (v : Word) (j0 : CReg) : (s.setReg i v).chunk j0 = s.chunk j0 := rfl
@[simp] theorem State.W_setReg (s : State) (i : Reg) (v : Word) : (s.setReg i v).W = s.W := rfl
@[simp] theorem State.EB_setReg (s : State) (i : Reg) (v : Word) : (s.setReg i v).EB = s.EB := rfl
@[simp] theorem State.validRange_setReg (s : State) (i : Reg) (v : Word) (x : Int) (k : Nat) : (s.setReg i v).validRange x k = s.validRange x k := rfl
@[simp] theorem State.reg_setChunk (s : State) (j : CReg) (v : Chunk) (i0 : Reg) : (s.setChunk j v).reg i0 = s.reg i0 := rfl
@[simp] theorem State.num_setChunk (s : State) (j : CReg) (v : Chunk) (r0 : Reg) : (s.setChunk j v).num r0 = s.num r0 := rfl
@[simp] theorem State.W_setChunk (s : State) (j : CReg) (v : Chunk) : (s.setChunk j v).W = s.W := rfl
@[simp] theorem State.EB_setChunk (s : State) (j : CReg) (v : Chunk) : (s.setChunk j v).EB = s.EB := rfl
@[simp] theorem State.validRange_setChunk (s : State) (j : CReg) (v : Chunk) (x : Int) (k : Nat) : (s.setChunk j v).validRange x k = s.validRange x k := rfl
@[simp] theorem State.reg_setMem (s : State) (m : Memory) (i0 : Reg) : (s.setMem m).reg i0 = s.reg i0 := rfl
@[simp] theorem State.chunk_setMem (s : State) (m : Memory) (j0 : CReg) : (s.setMem m).chunk j0 = s.chunk j0 := rfl
@[simp] theorem State.num_setMem (s : State) (m : Memory) (r0 : Reg) : (s.setMem m).num r0 = s.num r0 := rfl
@[simp] theorem State.W_setMem (s : State) (m : Memory) : (s.setMem m).W = s.W := rfl
@[simp] theorem State.EB_setMem (s : State) (m : Memory) : (s.setMem m).EB = s.EB := rfl
@[simp] theorem State.validRange_setMem (s : State) (m : Memory) (x : Int) (k : Nat) : (s.setMem m).validRange x k = s.validRange x k := rfl
@[simp] theorem State.reg_memWrite (s : State) (a : Nat) (v : List Byte) (i0 : Reg) : (s.memWrite a v).reg i0 = s.reg i0 := rfl
@[simp] theorem State.chunk_memWrite (s : State) (a : Nat) (v : List Byte) (j0 : CReg) : (s.memWrite a v).chunk j0 = s.chunk j0 := rfl
@[simp] theorem State.num_memWrite (s : State) (a : Nat) (v : List Byte) (r0 : Reg) : (s.memWrite a v).num r0 = s.num r0 := rfl
@[simp] theorem State.W_memWrite (s : State) (a : Nat) (v : List Byte) : (s.memWrite a v).W = s.W := rfl
@[simp] theorem State.EB_memWrite (s : State) (a : Nat) (v : List Byte) : (s.memWrite a v).EB = s.EB := rfl
@[simp] theorem State.validRange_memWrite (s : State) (a : Nat) (v : List Byte) (x : Int) (k : Nat) : (s.memWrite a v).validRange x k = s.validRange x k := rfl
@[simp] theorem State.reg_setRun (s : State) (r : RunState) (i0 : Reg) : (s.setRun r).reg i0 = s.reg i0 := rfl
@[simp] theorem State.chunk_setRun (s : State) (r : RunState) (j0 : CReg) : (s.setRun r).chunk j0 = s.chunk j0 := rfl
@[simp] theorem State.num_setRun (s : State) (r : RunState) (r0 : Reg) : (s.setRun r).num r0 = s.num r0 := rfl
@[simp] theorem State.W_setRun (s : State) (r : RunState) : (s.setRun r).W = s.W := rfl
@[simp] theorem State.EB_setRun (s : State) (r : RunState) : (s.setRun r).EB = s.EB := rfl
@[simp] theorem State.validRange_setRun (s : State) (r : RunState) (x : Int) (k : Nat) : (s.setRun r).validRange x k = s.validRange x k := rfl
@[simp] theorem State.reg_advance (s : State) (i0 : Reg) : s.advance.reg i0 = s.reg i0 := rfl
@[simp] theorem State.chunk_advance (s : State) (j0 : CReg) : s.advance.chunk j0 = s.chunk j0 := rfl
@[simp] theorem State.num_advance (s : State) (r0 : Reg) : s.advance.num r0 = s.num r0 := rfl
@[simp] theorem State.W_advance (s : State) : s.advance.W = s.W := rfl
@[simp] theorem State.EB_advance (s : State) : s.advance.EB = s.EB := rfl
@[simp] theorem State.validRange_advance (s : State) (x : Int) (k : Nat) : s.advance.validRange x k = s.validRange x k := rfl
@[simp] theorem State.reg_drawn (s : State) (n : Nat) (i0 : Reg) : (s.drawn n).reg i0 = s.reg i0 := rfl
@[simp] theorem State.chunk_drawn (s : State) (n : Nat) (j0 : CReg) : (s.drawn n).chunk j0 = s.chunk j0 := rfl
@[simp] theorem State.num_drawn (s : State) (n : Nat) (r0 : Reg) : (s.drawn n).num r0 = s.num r0 := rfl
@[simp] theorem State.W_drawn (s : State) (n : Nat) : (s.drawn n).W = s.W := rfl
@[simp] theorem State.EB_drawn (s : State) (n : Nat) : (s.drawn n).EB = s.EB := rfl
@[simp] theorem State.validRange_drawn (s : State) (n : Nat) (x : Int) (k : Nat) : (s.drawn n).validRange x k = s.validRange x k := rfl
@[simp] theorem State.reg_takeFault (s : State) (c : Cause) (v : Word) (i0 : Reg) : (s.takeFault c v).reg i0 = s.reg i0 := rfl
@[simp] theorem State.chunk_takeFault (s : State) (c : Cause) (v : Word) (j0 : CReg) : (s.takeFault c v).chunk j0 = s.chunk j0 := rfl
@[simp] theorem State.num_takeFault (s : State) (c : Cause) (v : Word) (r0 : Reg) : (s.takeFault c v).num r0 = s.num r0 := rfl
@[simp] theorem State.W_takeFault (s : State) (c : Cause) (v : Word) : (s.takeFault c v).W = s.W := rfl
@[simp] theorem State.EB_takeFault (s : State) (c : Cause) (v : Word) : (s.takeFault c v).EB = s.EB := rfl
@[simp] theorem State.validRange_takeFault (s : State) (c : Cause) (v : Word) (x : Int) (k : Nat) : (s.takeFault c v).validRange x k = s.validRange x k := rfl

end Sys2Proof.Machine
end

