-- ==== Sys2Proof/Laws/Commands.lean ====
section
/-! SUPPORT. What the shared operations of the commands do: one lemma each, for callers to cite. -/

namespace Sys2Proof.Machine

/-! ## Copies -/

/-- `CopySafe`, byte by byte (42 R153). -/
theorem copySafe_readByte (m : Memory) (dst src len x : Nat) :
    Memory.readByte (copySafe m dst src len) x =
      if dst ≤ x ∧ x < dst + len then Memory.readByte m (src + (x - dst)) else Memory.readByte m x := by
  unfold copySafe
  rw [Memory.readByte_write, Memory.read_length]
  split
  · rw [List.getD_eq_getElem?_getD, List.getElem?_eq_getElem (by simp; omega), Memory.read_getElem, Option.getD_some]
  · rfl

@[simp] theorem patternBytes_length (m : Memory) (src dist len : Nat) : (patternBytes m src dist len).length = len := by
  simp [patternBytes]

/-- The closed form of the overlap copy, byte by byte (42 R159). -/
theorem copyOverlap_readByte (m : Memory) (dst dist len x : Nat) :
    Memory.readByte (copyOverlap m dst dist len) x =
      if dst ≤ x ∧ x < dst + len then Memory.readByte m (dst - dist + (x - dst) % dist) else Memory.readByte m x := by
  unfold copyOverlap
  rw [Memory.readByte_write, patternBytes_length]
  split
  · rename_i h
    rw [List.getD_eq_getElem?_getD, List.getElem?_eq_getElem (by simp; omega)]
    simp [patternBytes]
  · rfl

theorem State.slackBytes_length (s : State) (dist : Nat) :
    (s.slackBytes dist).length = if s.W ≤ dist then 0 else s.W - 1 := by
  unfold State.slackBytes
  split <;> simp

/-- What an admitted `CPOVL` leaves at each address (42 R158, R164). -/
theorem State.overlapEffect_readByte (s : State) (dst dist len x : Nat) :
    Memory.readByte (s.overlapEffect dst dist len).mem x =
      if dst + len ≤ x ∧ x < dst + len + (s.slackBytes dist).length then
        (s.slackBytes dist).getD (x - (dst + len)) Memory.unlisted
      else if dst ≤ x ∧ x < dst + len then Memory.readByte s.mem (dst - dist + (x - dst) % dist)
      else Memory.readByte s.mem x := by
  unfold State.overlapEffect
  rw [State.setMem_mem, Memory.readByte_write, copyOverlap_readByte]

/-- What an admitted `CPUNR` leaves at each address (42 R167). -/
theorem State.unrolledEffect_readByte (s : State) (dst src len x : Nat) :
    Memory.readByte (s.unrolledEffect dst src len).mem x =
      if dst + len ≤ x ∧ x < dst + len + (s.W - 1) then (s.anyBytes (s.W - 1)).getD (x - (dst + len)) Memory.unlisted
      else if dst ≤ x ∧ x < dst + len then Memory.readByte s.mem (src + (x - dst))
      else Memory.readByte s.mem x := by
  unfold State.unrolledEffect
  rw [State.setMem_mem, Memory.readByte_write, copySafe_readByte, State.anyBytes_length]

/-- An admitted `CPOVL` changes data memory and the count of draws only. -/
theorem State.overlapEffect_frame (s : State) (dst dist len : Nat) :
    s.overlapEffect dst dist len =
      { s with mem := (s.overlapEffect dst dist len).mem, draws := s.draws + (s.slackBytes dist).length } := rfl

/-- An admitted `CPUNR` changes data memory and the count of draws only. -/
theorem State.unrolledEffect_frame (s : State) (dst src len : Nat) :
    s.unrolledEffect dst src len =
      { s with mem := (s.unrolledEffect dst src len).mem, draws := s.draws + (s.W - 1) } := rfl

/-! ## Chunks -/

@[simp] theorem fill_length (u : List Byte) (W : Nat) : (fill u W).length = W := by simp [fill]

/-- Byte `j` of a fill (41 R137). -/
theorem fill_getElem (u : List Byte) (W j : Nat) (h : j < (fill u W).length) :
    (fill u W)[j] = u.getD (j % u.length) 0 := by simp [fill]

theorem ChunkWidth.bytes_pos (w : ChunkWidth) : 16 ≤ w.bytes := by cases w <;> simp [ChunkWidth.bytes]

theorem State.W_pos (s : State) : 16 ≤ s.W := ChunkWidth.bytes_pos _

/-! ## Checksum -/

theorem sumA_lt (state : BitVec 32) : sumA state < 65536 := by
  unfold sumA; exact (state.extractLsb' 0 16).isLt

theorem sumB_lt (state : BitVec 32) : sumB state < 65536 := by
  unfold sumB; exact (state.extractLsb' 16 16).isLt

theorem sumA_eq (state : BitVec 32) : sumA state = state.toNat % 65536 := by
  simp [sumA, BitVec.extractLsb'_toNat]

theorem sumB_eq (state : BitVec 32) : sumB state = state.toNat / 65536 := by
  have := state.isLt
  simp only [sumB, BitVec.extractLsb'_toNat, Nat.shiftRight_eq_div_pow]
  omega

/-- A packed pair of sums below 2^16 reads back. -/
theorem sums_of_pack {a b : Nat} (ha : a < 65536) (hb : b < 65536) :
    sumA (BitVec.ofNat 32 (b * 65536 + a)) = a ∧ sumB (BitVec.ofNat 32 (b * 65536 + a)) = b := by
  rw [sumA_eq, sumB_eq, BitVec.toNat_ofNat]
  omega

theorem sumByte_lt (p : Nat × Nat) (d : Byte) : (sumByte p d).1 < ckBase ∧ (sumByte p d).2 < ckBase := by
  simp only [sumByte, ckBase]
  omega

theorem foldl_sumByte_lt {p : Nat × Nat} (h : p.1 < ckBase ∧ p.2 < ckBase) (d : List Byte) :
    (d.foldl sumByte p).1 < ckBase ∧ (d.foldl sumByte p).2 < ckBase := by
  induction d generalizing p with
  | nil => exact h
  | cons b d ih => exact ih (sumByte_lt p b)

/-- The two sums of a checksum are those of the recurrence (43 R182). -/
theorem sums_checksum (state : BitVec 32) (d : List Byte) :
    (sumA (checksum state d), sumB (checksum state d)) =
      d.foldl sumByte (sumA state % ckBase, sumB state % ckBase) := by
  have h := foldl_sumByte_lt (p := (sumA state % ckBase, sumB state % ckBase))
    ⟨Nat.mod_lt _ (by simp [ckBase]), Nat.mod_lt _ (by simp [ckBase])⟩ d
  have hc : ckBase < 65536 := by simp [ckBase]
  have := sums_of_pack (Nat.lt_trans h.1 hc) (Nat.lt_trans h.2 hc)
  exact Prod.ext this.1 this.2

/-! ## Slide -/

/-- The saturating difference as natural-number subtraction (44 R202). -/
theorem slideEntry_eq (e w : Nat) : slideEntry e w = e - w := by
  unfold slideEntry; omega

theorem EntryWidth.bytes_pos (w : EntryWidth) : 0 < w.bytes := by cases w <;> simp [EntryWidth.bytes]

@[simp] theorem slidBytes_length (m : Memory) (eb base count w : Nat) :
    (slidBytes m eb base count w).length = eb * count := by
  induction count with
  | zero => simp [slidBytes]
  | succ n ih =>
    unfold slidBytes at ih ⊢
    rw [List.range_succ, List.flatMap_append, List.length_append, ih]
    simp [Nat.mul_succ]

/-- Byte `k` of entry `i` of a slid table. -/
theorem slidBytes_getElem? (m : Memory) {eb base count w i k : Nat} (hi : i < count) (hk : k < eb) :
    (slidBytes m eb base count w)[eb * i + k]? = (leBytes eb (slideEntry (entry m eb base i) w))[k]? := by
  induction count with
  | zero => omega
  | succ n ih =>
    have hl := slidBytes_length m eb base n w
    unfold slidBytes at ih hl ⊢
    rw [List.range_succ, List.flatMap_append]
    by_cases hn : i < n
    · have : eb * i + k < eb * n := by
        have : eb * (i + 1) ≤ eb * n := Nat.mul_le_mul_left _ (by omega)
        rw [Nat.mul_succ] at this
        omega
      rw [List.getElem?_append_left (by rw [hl]; exact this)]
      exact ih hn
    · obtain rfl : i = n := by omega
      rw [List.getElem?_append_right (by rw [hl]; omega), hl]
      simp

/-- A slid table: each entry is the saturating difference (44 R202), each byte outside it as before. -/
theorem slideTable_spec (m : Memory) (eb base count w : Nat) :
    (∀ i < count, entry (slideTable m eb base count w) eb base i = (entry m eb base i - w) % 256 ^ eb) ∧
      ∀ x, ¬(base ≤ x ∧ x < base + eb * count) →
        Memory.readByte (slideTable m eb base count w) x = Memory.readByte m x := by
  refine ⟨fun i hi => ?_, fun x hx => Memory.readByte_write_outside m (by simpa using hx)⟩
  have hr : Memory.read (slideTable m eb base count w) (base + eb * i) eb =
      leBytes eb (slideEntry (entry m eb base i) w) := by
    apply List.ext_getElem?
    intro k
    by_cases hk : k < eb
    · rw [List.getElem?_eq_getElem (by simpa using hk), Memory.read_getElem]
      have hb : eb * i + k < eb * count := by
        have : eb * (i + 1) ≤ eb * count := Nat.mul_le_mul_left _ (by omega)
        rw [Nat.mul_succ] at this
        omega
      unfold slideTable
      rw [Nat.add_assoc, Memory.readByte_write_inside m base (by simpa using hb), ← List.getElem?_eq_getElem,
        slidBytes_getElem? m hi hk]
    · rw [List.getElem?_eq_none (by simpa using hk), List.getElem?_eq_none (by simpa using hk)]
  unfold entry at hr ⊢
  rw [hr, le_leBytes, slideEntry_eq]

/-- An entry is below 2^EW. -/
theorem entry_lt (m : Memory) (eb base i : Nat) : entry m eb base i < 256 ^ eb := by
  simpa [entry] using le_lt (Memory.read m (base + eb * i) eb)

/-! ## The canonical form is kept -/

/-- The memories of the reset state are canonical. -/
theorem State.reset_mem_wf : Memory.wf State.reset.mem ∧ Memory.wf State.reset.cmem := by
  decide

theorem copySafe_wf {m : Memory} (h : Memory.wf m) (dst src len : Nat) : Memory.wf (copySafe m dst src len) :=
  Memory.write_wf h _ _

theorem copyOverlap_wf {m : Memory} (h : Memory.wf m) (dst dist len : Nat) : Memory.wf (copyOverlap m dst dist len) :=
  Memory.write_wf h _ _

theorem State.overlapEffect_wf {s : State} (h : Memory.wf s.mem) (dst dist len : Nat) :
    Memory.wf (s.overlapEffect dst dist len).mem :=
  Memory.write_wf (copyOverlap_wf h _ _ _) _ _

theorem State.unrolledEffect_wf {s : State} (h : Memory.wf s.mem) (dst src len : Nat) :
    Memory.wf (s.unrolledEffect dst src len).mem :=
  Memory.write_wf (copySafe_wf h _ _ _) _ _

theorem slideTable_wf {m : Memory} (h : Memory.wf m) (eb base count w : Nat) :
    Memory.wf (slideTable m eb base count w) :=
  Memory.write_wf h _ _

theorem State.memWrite_wf {s : State} (h : Memory.wf s.mem) (a : Nat) (v : List Byte) :
    Memory.wf (s.memWrite a v).mem :=
  Memory.write_wf h _ _

end Sys2Proof.Machine
end

