-- ==== Sys2Proof/Laws/PerInstr.lean ====
section
/-! SUPPORT. Per command: its encoding matches its row of the opcode map under the row's mask (spec 30 R96, R98). -/

namespace Sys2Proof.Laws.EncodingPattern

/-- The encoding of a command has its row's fixed bits: opcode and must-be-zero bits (30 R96). -/
def Statement (i : Instr) : Prop := encode i &&& i.op.mask = i.op.pattern

/-- The bits of a packed word under a mask, from the bits of the opcode and the fields. -/
theorem packWord_and_eq {op : BitVec 8} {f0 f1 f2 f3 f4 : BitVec 4} {mask pattern : CmdWord}
    (h : ∀ k : Fin 32, ((packWord op f0 f1 f2 f3 f4).getLsbD k && mask.getLsbD k) = pattern.getLsbD k) :
    packWord op f0 f1 f2 f3 f4 &&& mask = pattern := by
  apply BitVec.eq_of_getLsbD_eq
  intro k hk
  simpa only [BitVec.getLsbD_and] using h ⟨k, hk⟩

/-- The high two bits of a chunk-register field are 0 (30 R94). -/
theorem cregBits_high (c : CReg) : (cregBits c)[2] = false ∧ (cregBits c)[3] = false := by
  revert c; decide

/-- Where each bit of a packed word comes from (30 R91). -/
theorem packWord_getLsbD (op : BitVec 8) (f0 f1 f2 f3 f4 : BitVec 4) (k : Nat) :
    (packWord op f0 f1 f2 f3 f4).getLsbD k =
      if k < 8 then op.getLsbD k else if k < 12 then f0.getLsbD (k - 8) else if k < 16 then f1.getLsbD (k - 12)
      else if k < 20 then f2.getLsbD (k - 16) else if k < 24 then f3.getLsbD (k - 20)
      else if k < 28 then f4.getLsbD (k - 24) else false := by
  by_cases hk : k < 28
  · simp only [packWord, BitVec.getLsbD_or, BitVec.getLsbD_shiftLeft, BitVec.getLsbD_setWidth]
    interval_cases k <;> simp
  · simp only [packWord, BitVec.getLsbD_or, BitVec.getLsbD_shiftLeft, BitVec.getLsbD_setWidth]
    rw [BitVec.getLsbD_of_ge op k (by omega), BitVec.getLsbD_of_ge f0 (k - 8) (by omega),
      BitVec.getLsbD_of_ge f1 (k - 12) (by omega), BitVec.getLsbD_of_ge f2 (k - 16) (by omega),
      BitVec.getLsbD_of_ge f3 (k - 20) (by omega), BitVec.getLsbD_of_ge f4 (k - 24) (by omega)]
    simp only [Bool.and_false, Bool.or_false]
    repeat' split
    all_goals first | omega | rfl

theorem endRun : Statement .endRun := by unfold Statement; decide

theorem seti (rd : Reg) (imm : Nat) : Statement (.seti rd imm) := by
  show encode (.seti rd imm) &&& 0x000000FF#32 = 0x00000002#32
  apply BitVec.eq_of_getLsbD_eq
  intro k hk
  simp only [encode, BitVec.getLsbD_and, BitVec.getLsbD_or, BitVec.getLsbD_shiftLeft, BitVec.getLsbD_setWidth]
  interval_cases k <;> simp

theorem chunksz (rd : Reg) : Statement (.chunksz rd) :=
  packWord_and_eq fun k => by rw [packWord_getLsbD]; fin_cases k <;> simp [Instr.op, Op.mask, Op.pattern]

theorem cpsafe (ra rb rc : Reg) : Statement (.cpsafe ra rb rc) :=
  packWord_and_eq fun k => by rw [packWord_getLsbD]; fin_cases k <;> simp [Instr.op, Op.mask, Op.pattern]

theorem cpovl (ra rb rc : Reg) : Statement (.cpovl ra rb rc) :=
  packWord_and_eq fun k => by rw [packWord_getLsbD]; fin_cases k <;> simp [Instr.op, Op.mask, Op.pattern]

theorem cpunr (ra rb rc : Reg) : Statement (.cpunr ra rb rc) :=
  packWord_and_eq fun k => by rw [packWord_getLsbD]; fin_cases k <;> simp [Instr.op, Op.mask, Op.pattern]

theorem cload (cd : CReg) (ra : Reg) : Statement (.cload cd ra) :=
  packWord_and_eq fun k => by
    rw [packWord_getLsbD]; fin_cases k <;> simp [Instr.op, Op.mask, Op.pattern, cregBits_high]

theorem cstore (ra : Reg) (cs : CReg) : Statement (.cstore ra cs) :=
  packWord_and_eq fun k => by
    rw [packWord_getLsbD]; fin_cases k <;> simp [Instr.op, Op.mask, Op.pattern, cregBits_high]

theorem cfill1 (cd : CReg) (ra : Reg) : Statement (.cfill1 cd ra) :=
  packWord_and_eq fun k => by
    rw [packWord_getLsbD]; fin_cases k <;> simp [Instr.op, Op.mask, Op.pattern, cregBits_high]

theorem cfill2 (cd : CReg) (ra : Reg) : Statement (.cfill2 cd ra) :=
  packWord_and_eq fun k => by
    rw [packWord_getLsbD]; fin_cases k <;> simp [Instr.op, Op.mask, Op.pattern, cregBits_high]

theorem cfill4 (cd : CReg) (ra : Reg) : Statement (.cfill4 cd ra) :=
  packWord_and_eq fun k => by
    rw [packWord_getLsbD]; fin_cases k <;> simp [Instr.op, Op.mask, Op.pattern, cregBits_high]

theorem cfill8 (cd : CReg) (ra : Reg) : Statement (.cfill8 cd ra) :=
  packWord_and_eq fun k => by
    rw [packWord_getLsbD]; fin_cases k <;> simp [Instr.op, Op.mask, Op.pattern, cregBits_high]

theorem cksum (rd ra rb rc : Reg) : Statement (.cksum rd ra rb rc) :=
  packWord_and_eq fun k => by rw [packWord_getLsbD]; fin_cases k <;> simp [Instr.op, Op.mask, Op.pattern]

theorem slide (ra rb rc rd re : Reg) : Statement (.slide ra rb rc rd re) :=
  packWord_and_eq fun k => by rw [packWord_getLsbD]; fin_cases k <;> simp [Instr.op, Op.mask, Op.pattern]

end Sys2Proof.Laws.EncodingPattern
end

