-- ==== Sys2Proof/Laws/Decode.lean ====
section
/-! SUPPORT. The fields of a packed word, and the word of four bytes laid out and read back (spec 30 R90 to R94, R104). -/

namespace Sys2Proof

open Laws.EncodingPattern (packWord_getLsbD)

theorem regBits_toFin (r : Reg) : (regBits r).toFin = r := rfl

theorem opcode_packWord (op : BitVec 8) (f0 f1 f2 f3 f4 : BitVec 4) :
    (packWord op f0 f1 f2 f3 f4).extractLsb' 0 8 = op := by
  apply BitVec.eq_of_getLsbD_eq
  intro k hk
  rw [BitVec.getLsbD_extractLsb', packWord_getLsbD]
  interval_cases k <;> simp

/-- The five operand fields of a packed word (30 R91). -/
theorem fields_packWord (op : BitVec 8) (f0 f1 f2 f3 f4 : BitVec 4) :
    (packWord op f0 f1 f2 f3 f4).extractLsb' 8 4 = f0 ∧ (packWord op f0 f1 f2 f3 f4).extractLsb' 12 4 = f1 ∧
      (packWord op f0 f1 f2 f3 f4).extractLsb' 16 4 = f2 ∧ (packWord op f0 f1 f2 f3 f4).extractLsb' 20 4 = f3 ∧
      (packWord op f0 f1 f2 f3 f4).extractLsb' 24 4 = f4 := by
  refine ⟨?_, ?_, ?_, ?_, ?_⟩ <;>
    (apply BitVec.eq_of_getLsbD_eq; intro k hk; rw [BitVec.getLsbD_extractLsb', packWord_getLsbD];
     interval_cases k <;> simp)

/-- A chunk-register field in `f0` or `f1` reads back (30 R94). -/
theorem cregField_packWord (op : BitVec 8) (f0 f1 f2 f3 f4 : BitVec 4) :
    (packWord op f0 f1 f2 f3 f4).extractLsb' 8 2 = f0.setWidth 2 ∧
      (packWord op f0 f1 f2 f3 f4).extractLsb' 12 2 = f1.setWidth 2 := by
  refine ⟨?_, ?_⟩ <;>
    (apply BitVec.eq_of_getLsbD_eq; intro k hk; rw [BitVec.getLsbD_extractLsb', packWord_getLsbD];
     interval_cases k <;> simp)

theorem cregBits_toFin (c : CReg) : ((cregBits c).setWidth 2).toFin = c := by revert c; decide

/-- The bytes of a word, put together again, are the word (30 R90). -/
theorem wordOfBytes_bytesOfWord (w : CmdWord) :
    wordOfBytes (w.extractLsb' 0 8) (w.extractLsb' 8 8) (w.extractLsb' 16 8) (w.extractLsb' 24 8) = w := by
  apply BitVec.eq_of_getLsbD_eq
  intro k hk
  simp only [wordOfBytes, BitVec.getLsbD_append, BitVec.getLsbD_extractLsb']
  interval_cases k <;> simp

theorem decodeBytes_bytesOfWord (w : CmdWord) (rest : List Byte) :
    decodeBytes (bytesOfWord w ++ rest) =
      match decode w with
      | .ok i => .ok (i, rest)
      | .error e => .error e := by
  show (match decode (wordOfBytes (w.extractLsb' 0 8) (w.extractLsb' 8 8) (w.extractLsb' 16 8) (w.extractLsb' 24 8)) with
    | .ok i => Except.ok (i, rest)
    | .error e => .error e) = _
  rw [wordOfBytes_bytesOfWord]

end Sys2Proof
end

