-- ==== Sys2Proof/Laws/Step.lean ====
section
/-! SUPPORT. What fetch, a command and a step can do, said once. -/

namespace Sys2Proof.Machine

/-- The fetch is admitted exactly when `cpc` is aligned and its four bytes are `CmdValid` (40 R120). -/
theorem State.fetchable_iff (s : State) :
    s.fetchable = true ↔ s.cpc.toNat % 4 = 0 ∧ ∀ k < 4, validAddr s.cfg.cmdValid (s.cpc.toNat + k) = true := by
  have hc := s.cpc.isLt
  simp only [State.fetchable, Bool.and_eq_true, decide_eq_true_eq, rangeIn_iff]
  constructor
  · rintro ⟨h1, h | ⟨h2, h3, h4⟩⟩
    · omega
    · exact ⟨h1, fun k hk => h4 _ (by omega) (by omega)⟩
  · rintro ⟨h1, h2⟩
    refine ⟨h1, .inr ⟨by omega, by omega, fun x hx hy => ?_⟩⟩
    have := h2 (x - s.cpc.toNat) (by omega)
    rwa [show s.cpc.toNat + (x - s.cpc.toNat) = x by omega] at this

/-- With nothing pending, a step is the sequencer's. -/
theorem step_of_pending_nil {s : State} (h : s.pending = []) : step s = sequencerStep s := by
  unfold step; rw [h]

/-- With an event pending, a step is that event's. -/
theorem step_of_pending_cons {s : State} {e : Event} {rest : List Event} (h : s.pending = e :: rest) :
    step s = eventAct e { s with pending := rest } := by
  unfold step; rw [h]

theorem sequencerStep_of_running {s : State} (h : s.run = .running) :
    sequencerStep s = match s.fetchDecode with
      | .ok i => exec i s
      | .error (c, v) => raise s c v := by
  unfold sequencerStep State.isRunning; exact if_pos (by simp [h])

theorem sequencerStep_of_not_running {s : State} (h : s.run ≠ .running) :
    sequencerStep s = .fault .sequencerStopped := by
  unfold sequencerStep State.isRunning; rw [if_neg (by simp [h])]

/-- Everything a command can do: take a fault, stop the run, or complete and advance with the run state, the fault
registers, `cpc`, the parameters and the fixed registers as they were. -/
theorem exec_cases (i : Instr) (s : State) :
    (∃ c v, exec i s = .next (s.takeFault c v)) ∨ (i = .endRun ∧ exec i s = .next (s.setRun .done)) ∨
      (i ≠ .endRun ∧ ∃ t : State, exec i s = .next t.advance ∧
        t = { s with regs := t.regs, chunks := t.chunks, mem := t.mem, draws := t.draws }) := by
  cases i <;>
    simp only [exec, execEnd, execSeti, execChunksz, execCpsafe, execCpovl, execCpunr, execCload, execCstore,
      execCfill1, execCfill2, execCfill4, execCfill8, fillChunk, execCksum, execSlide, raise, complete]
  case endRun => simp
  all_goals repeat' split
  all_goals first
    | exact .inl ⟨_, _, rfl⟩
    | exact .inr (.inr ⟨by simp, _, rfl, rfl⟩)

end Sys2Proof.Machine
end

