-- ==== Sys2Proof/Laws/Outcomes.lean ====
section
/-! SUPPORT. Everything each memory command can do, said once: it takes a fault,
  or its checks hold and the next state is
the one its rule gives. The checks are in the words of the claims. -/

namespace Sys2Proof.Machine

theorem State.validRange_iff_rangeValid (s : State) (a n : Nat) : s.validRange a n = true ↔ RangeValid s a n :=
  State.validRange_iff s a n

/-- The seed range of `CPOVL`, which may start below 0. -/
theorem State.validRange_sub_iff (s : State) (dst dist n : Nat) :
    s.validRange ((dst : Int) - dist) n = true ↔ BackRangeValid s dst dist n := by
  unfold State.validRange BackRangeValid RangeValid
  rw [rangeIn_iff]
  constructor
  · rintro (h | ⟨h1, h2, h3⟩)
    · exact .inl h
    · exact .inr ⟨by omega, .inr ⟨by omega, fun x hx hy => h3 x (by omega) (by omega)⟩⟩
  · rintro (h | ⟨h1, h | ⟨h2, h3⟩⟩)
    · exact .inl h
    · exact .inl h
    · exact .inr ⟨by omega, by omega, fun x hx hy => h3 x (by omega) (by omega)⟩

theorem disjoint_iff_rangesDisjoint (a n b m : Nat) : disjoint a n b m = true ↔ RangesDisjoint a n b m :=
  disjoint_iff a n b m

/-- A taken fault leaves the run state FAULTED. -/
theorem not_takeFault_of_running {s t : State} (ht : t.run = .running) : ¬∃ c v, t = s.takeFault c v := by
  rintro ⟨c, v, rfl⟩; cases ht

theorem rangeValid_of_not {s : State} {a n : Nat} (h : ¬ (!s.validRange a n) = true) : RangeValid s a n := by
  rw [← State.validRange_iff_rangeValid]; simpa using h

theorem exec_cpsafe_outcome {s t : State} {ra rb rc : Reg} (h : exec (.cpsafe ra rb rc) s = .next t) :
    (∃ c v, t = s.takeFault c v) ∨ (s.num rc = 0 ∧ t = s.advance) ∨
    (s.num rc ≠ 0 ∧ RangesDisjoint (s.num rb) (s.num rc) (s.num ra) (s.num rc) ∧
      RangeValid s (s.num rb) (s.num rc) ∧ RangeValid s (s.num ra) (s.num rc) ∧
      t = (s.setMem (copySafe s.mem (s.num ra) (s.num rb) (s.num rc))).advance) := by
  simp only [exec, execCpsafe, raise, complete] at h
  split at h
  · rename_i h0; injection h with h; exact .inr (.inl ⟨h0, h.symm⟩)
  rename_i h0
  split at h
  · injection h with h; exact .inl ⟨_, _, h.symm⟩
  rename_i h1
  split at h
  · injection h with h; exact .inl ⟨_, _, h.symm⟩
  rename_i h2
  split at h
  · injection h with h; exact .inl ⟨_, _, h.symm⟩
  rename_i h3
  injection h with h
  exact .inr (.inr ⟨h0, (disjoint_iff_rangesDisjoint _ _ _ _).mp (by simpa using h1), rangeValid_of_not h2,
    rangeValid_of_not h3, h.symm⟩)

theorem exec_cpunr_outcome {s t : State} {ra rb rc : Reg} (h : exec (.cpunr ra rb rc) s = .next t) :
    (∃ c v, t = s.takeFault c v) ∨ (s.num rc = 0 ∧ t = s.advance) ∨
    (s.num rc ≠ 0 ∧ unrolledApart (s.num ra) (s.num rb) (s.num rc) s.W = true ∧
      RangeValid s (s.num rb) (s.num rc + s.W - 1) ∧ RangeValid s (s.num ra) (s.num rc + s.W - 1) ∧
      t = (s.unrolledEffect (s.num ra) (s.num rb) (s.num rc)).advance) := by
  simp only [exec, execCpunr, raise, complete] at h
  split at h
  · rename_i h0; injection h with h; exact .inr (.inl ⟨h0, h.symm⟩)
  rename_i h0
  split at h
  · injection h with h; exact .inl ⟨_, _, h.symm⟩
  rename_i h1
  split at h
  · injection h with h; exact .inl ⟨_, _, h.symm⟩
  rename_i h2
  split at h
  · injection h with h; exact .inl ⟨_, _, h.symm⟩
  rename_i h3
  injection h with h
  exact .inr (.inr ⟨h0, by simpa using h1, rangeValid_of_not h2, rangeValid_of_not h3, h.symm⟩)

theorem exec_cpovl_outcome {s t : State} {ra rb rc : Reg} (h : exec (.cpovl ra rb rc) s = .next t) :
    (∃ c v, t = s.takeFault c v) ∨ (s.num rb ≠ 0 ∧ s.num rc = 0 ∧ t = s.advance) ∨
    (s.num rb ≠ 0 ∧ s.num rc ≠ 0 ∧ BackRangeValid s (s.num ra) (s.num rb) (min (s.num rb) (s.num rc)) ∧
      RangeValid s (s.num ra) (s.num rc + s.W - 1) ∧
      t = (s.overlapEffect (s.num ra) (s.num rb) (s.num rc)).advance) := by
  simp only [exec, execCpovl, raise, complete] at h
  split at h
  · injection h with h; exact .inl ⟨_, _, h.symm⟩
  rename_i hd
  split at h
  · rename_i h0; injection h with h; exact .inr (.inl ⟨hd, h0, h.symm⟩)
  rename_i h0
  split at h
  · injection h with h; exact .inl ⟨_, _, h.symm⟩
  rename_i h2
  split at h
  · injection h with h; exact .inl ⟨_, _, h.symm⟩
  rename_i h3
  injection h with h
  simp [State.backSource] at h2
  exact .inr (.inr ⟨hd, h0, (State.validRange_sub_iff _ _ _ _).mp h2, rangeValid_of_not h3, h.symm⟩)

theorem exec_cload_outcome {s t : State} {cd : CReg} {ra : Reg} (h : exec (.cload cd ra) s = .next t) :
    (∃ c v, t = s.takeFault c v) ∨ (RangeValid s (s.num ra) s.W ∧
      t = (s.setChunk cd (s.memRead (s.num ra) s.W)).advance) := by
  simp only [exec, execCload, raise, complete] at h
  split at h <;> injection h with h
  · rename_i h1; exact .inr ⟨(State.validRange_iff_rangeValid _ _ _).mp h1, h.symm⟩
  · exact .inl ⟨_, _, h.symm⟩

theorem exec_cstore_outcome {s t : State} {cd : CReg} {ra : Reg} (h : exec (.cstore ra cd) s = .next t) :
    (∃ c v, t = s.takeFault c v) ∨ (RangeValid s (s.num ra) s.W ∧
      t = (s.memWrite (s.num ra) (s.chunk cd)).advance) := by
  simp only [exec, execCstore, raise, complete] at h
  split at h <;> injection h with h
  · rename_i h1; exact .inr ⟨(State.validRange_iff_rangeValid _ _ _).mp h1, h.symm⟩
  · exact .inl ⟨_, _, h.symm⟩

theorem fillChunk_outcome {s t : State} {k : FillUnit} {cd : CReg} {ra : Reg} (h : fillChunk k cd ra s = .next t) :
    (∃ c v, t = s.takeFault c v) ∨ (RangeValid s (s.num ra) k.bytes ∧
      t = (s.setChunk cd (fill (s.memRead (s.num ra) k.bytes) s.W)).advance) := by
  simp only [fillChunk, raise, complete] at h
  split at h
  · split at h <;> injection h with h
    · rename_i h1; exact .inr ⟨(State.validRange_iff_rangeValid _ _ _).mp h1, h.symm⟩
    · exact .inl ⟨_, _, h.symm⟩
  · injection h with h; exact .inl ⟨_, _, h.symm⟩

theorem exec_cksum_outcome {s t : State} {rd ra rb rc : Reg} (h : exec (.cksum rd ra rb rc) s = .next t) :
    (∃ c v, t = s.takeFault c v) ∨ (RangeValid s (s.num rb) (s.num rc) ∧
      t = (s.setReg rd ((checksum (s.sumState ra) (s.memRead (s.num rb) (s.num rc))).setWidth 64)).advance) := by
  simp only [exec, execCksum, raise, complete] at h
  split at h <;> injection h with h
  · rename_i h1; exact .inr ⟨(State.validRange_iff_rangeValid _ _ _).mp h1, h.symm⟩
  · exact .inl ⟨_, _, h.symm⟩

theorem exec_slide_outcome {s t : State} {ra rb rc rd re : Reg} (h : exec (.slide ra rb rc rd re) s = .next t) :
    (∃ c v, t = s.takeFault c v) ∨ (RangeValid s (s.num ra) (s.EB * s.num rb) ∧
      RangeValid s (s.num rc) (s.EB * s.num rd) ∧
      RangesDisjoint (s.num ra) (s.EB * s.num rb) (s.num rc) (s.EB * s.num rd) ∧
      t = (s.setMem (slideTable (slideTable s.mem s.EB (s.num ra) (s.num rb) (s.num re)) s.EB (s.num rc) (s.num rd) (s.num re))).advance) := by
  simp only [exec, execSlide, raise, complete] at h
  split at h
  · injection h with h; exact .inl ⟨_, _, h.symm⟩
  split at h
  · injection h with h; exact .inl ⟨_, _, h.symm⟩
  split at h
  · injection h with h; exact .inl ⟨_, _, h.symm⟩
  rename_i h1
  split at h
  · injection h with h; exact .inl ⟨_, _, h.symm⟩
  rename_i h2
  split at h
  · injection h with h; exact .inl ⟨_, _, h.symm⟩
  rename_i h3
  injection h with h
  exact .inr ⟨rangeValid_of_not h1, rangeValid_of_not h2,
    (disjoint_iff_rangesDisjoint _ _ _ _).mp (by simpa using h3), h.symm⟩

end Sys2Proof.Machine
end

