-- ==== Sys2Proof/Tests/Slice0.lean ====
section
/-! SUPPORT. Tests on values of the spec (its vectors are named E, X, V in 95_test_vectors.md), and a concrete witness for
the hypotheses of every obligation that has some. -/

namespace Sys2Proof.Tests

open Sys2Proof Sys2Proof.Machine

/-! ## Helpers -/

/-- What a next state shows under `f`. -/
def seen {α : Type} (f : State → α) : Result → Option α
  | .next t => some (f t)
  | _ => none

/-- The run state, the cause and the information word. -/
def faultOf (t : State) : RunState × Option Cause × Word := (t.run, t.fcause, t.finfo)

/-- A running machine with `W` = 16, the valid bytes `lo` to `hi` - 1 of both spaces, some registers and some bytes. -/
def at16 (lo hi : Nat) (rs : List (Reg × Word)) (m : Memory) : State :=
  rs.foldl (fun s p => s.setReg p.1 p.2)
    { State.reset with
      run := .running, mem := m,
      cfg := { Config.default with valid := [⟨lo, hi - lo⟩], cmdValid := [⟨lo, hi - lo⟩] } }

/-- The bytes "ABCAB" at 0x100. -/
def abcab : Memory := Memory.write [] 0x100 [0x41, 0x42, 0x43, 0x41, 0x42]

/-- `Valid` of a range, from the computed check. -/
theorem rangeValid_of {s : State} {a n : Nat} (h : s.validRange a n = true) : RangeValid s a n :=
  (State.validRange_iff s a n).mp h

/-- The negation likewise. -/
theorem not_rangeValid_of {s : State} {a n : Nat} (h : s.validRange a n = false) : ¬RangeValid s a n := fun c => by
  rw [(State.validRange_iff s a n).mpr c] at h; cases h

theorem rangesDisjoint_of {a n b m : Nat} (h : disjoint a n b m = true) : RangesDisjoint a n b m :=
  (disjoint_iff a n b m).mp h

theorem not_rangesDisjoint_of {a n b m : Nat} (h : disjoint a n b m = false) : ¬RangesDisjoint a n b m := fun c => by
  rw [(disjoint_iff a n b m).mpr c] at h; cases h

/-! ## Well-formedness and encoding -/

/-- 0x100000 is above the 20 bits of the immediate (30 R102). -/
theorem test_illformed_seti : (Instr.seti 0 0x100000).wellFormed = false := by decide

theorem test_wellformed_seti : (Instr.seti 15 0xFFFFF).WellFormed := by decide

/-- E1 to E9. -/
theorem test_legal_words_1 :
    decode 0x00000001 = .ok .endRun ∧ decode 0x00103102 = .ok (.seti 1 0x103) ∧
    decode 0xFFFFFF02 = .ok (.seti 15 0xFFFFF) ∧ decode 0x00000002 = .ok (.seti 0 0) ∧
    decode 0x00000410 = .ok (.chunksz 4) ∧ decode 0x00032111 = .ok (.cpsafe 1 2 3) ∧
    decode 0x0003BA11 = .ok (.cpsafe 10 11 3) ∧ decode 0x00032112 = .ok (.cpovl 1 2 3) ∧
    decode 0x00065413 = .ok (.cpunr 4 5 6) := by decide

/-- E10 to E21. -/
theorem test_legal_words_2 :
    decode 0x00002120 = .ok (.cload 1 2) ∧ decode 0x0000F320 = .ok (.cload 3 15) ∧
    decode 0x00001321 = .ok (.cstore 3 1) ∧ decode 0x00003F21 = .ok (.cstore 15 3) ∧
    decode 0x00001024 = .ok (.cfill1 0 1) ∧ decode 0x00001025 = .ok (.cfill2 0 1) ∧
    decode 0x00007226 = .ok (.cfill4 2 7) ∧ decode 0x0000F327 = .ok (.cfill8 3 15) ∧
    decode 0x00210030 = .ok (.cksum 0 0 1 2) ∧ decode 0x003A0030 = .ok (.cksum 0 0 10 3) ∧
    decode 0x05432140 = .ok (.slide 1 2 3 4 5) ∧ decode 0x0FFFFF40 = .ok (.slide 15 15 15 15 15) := by decide

/-- The encoder on E2, E7, E11, E13, E17, E19 and E20. -/
theorem test_encode_words :
    encode (.seti 1 0x103) = 0x00103102 ∧ encode (.cpsafe 10 11 3) = 0x0003BA11 ∧ encode (.cload 3 15) = 0x0000F320 ∧
    encode (.cstore 15 3) = 0x00003F21 ∧ encode (.cfill8 3 15) = 0x0000F327 ∧ encode (.cksum 0 0 10 3) = 0x003A0030 ∧
    encode (.slide 1 2 3 4 5) = 0x05432140 := by decide

/-- X1 to X13. -/
theorem test_illegal_words :
    [0x00000000, 0xFFFFFFFF, 0x00000101, 0x00001410, 0x00132112, 0x00002420, 0x00004321, 0x00012120, 0x01210030,
      0x15432140, 0x00001022, 0x00001028, 0x00000003].all (fun w : CmdWord => (decode w).toOption.isNone) = true := by
  decide

/-- The bytes of E2 in command memory. -/
theorem test_decode_bytes : decodeBytes [0x02, 0x31, 0x10, 0x00, 0x77] = .ok (.seti 1 0x103, [0x77]) := by decide

/-- Three bytes are no word. -/
theorem test_decode_truncated : decodeBytes [0x01, 0x00, 0x00] = .error .truncated := by decide

/-- The table's numbering: a row of 8 bits has the rest 0. -/
theorem test_decode_table_word :
    decodeTableWord 32 0x05432140 = some (.slide 1 2 3 4 5) ∧ decodeTableWord 8 0x01 = some .endRun ∧
    decodeTableWord 32 0x00001022 = none := by decide

/-! ## Assembler -/

theorem test_asm_slide :
    assembleLine "SLIDE r1, r2, r3, r4, r5 ; both tables".toList = .ok (some (.slide 1 2 3 4 5)) := by decide

theorem test_asm_seti :
    assembleLine "SETI r1, 0x103".toList = .ok (some (.seti 1 0x103)) ∧
    assembleLine "SETI r1, 1048576".toList = .error .badOperands := by decide

theorem test_asm_pseudo :
    assembleLine "CFILL c2, r7, 4".toList = .ok (some (.cfill4 2 7)) ∧
    assembleLine "CFILL c2, r7, 3".toList = .error .badOperands ∧
    assembleLine "NOP".toList = .error .unknownMnemonic ∧ assembleLine "  ; only a comment".toList = .ok none := by decide

/-- The two points log entry 28 settles beside the spec's words: blanks before the mnemonic, a hexadecimal `k`. -/
theorem test_asm_choices :
    assembleLine "  END  ; stop".toList = .ok (some .endRun) ∧
    assembleLine "CFILL c2, r7, 0x4".toList = .ok (some (.cfill4 2 7)) := by decide

/-- Every field of a text in its own place. -/
theorem test_asm_text :
    lineText "SLIDE" [regText 1, regText 2, regText 3, regText 4, regText 15] = "SLIDE r1, r2, r3, r4, r15".toList := by
  decide

/-! ## Sequencing and host actions -/

/-- The first step after placing E2 in the reset state runs it. -/
theorem test_step_from_reset :
    seen (fun t => (t.reg 1, t.cpc, t.run)) (step (State.reset.withFetchWord 32 0x00103102)) =
      some (0x103, 4, .running) := by decide

/-- V-SQ-1. -/
theorem test_end_stops :
    seen (fun t => (t.csr 0, t.cpc)) (step (State.withFetchWord { State.reset with cpc := 0x10 } 32 1)) =
      some (0b010, 0x10) := by decide

/-- V-SQ-8: the command pointer wraps. -/
theorem test_cpc_wraps :
    seen (fun t => (t.reg 0, t.cpc))
      (step (State.withFetchWord { State.reset with cpc := 0xFFFFFFFFFFFFFFFC } 32 2)) = some (0, 0) := by decide

/-- V-SQ-10: `SETI` clears bits 63:20. -/
theorem test_seti_clears_high :
    seen (fun t => t.reg 1) (exec (.seti 1 0) (State.reset.setReg 1 0xFFFFFFFFFFFFFFFF)) = some 0 := by decide

/-- V-SQ-3 and V-SQ-5: a misaligned `cpc`; two of four bytes not valid. -/
theorem test_fetch_faults :
    seen faultOf (step { State.reset with run := .running, cpc := 2 }) = some (.faulted, some .cmdFetchFault, 2) ∧
    seen faultOf (step { at16 0 0x102 [] [] with cpc := 0x100 }) = some (.faulted, some .cmdFetchFault, 0x100) := by
  decide

/-- V-SQ-7: the word is the information. -/
theorem test_illegal_command :
    seen (fun t => (faultOf t, t.cpc)) (step (State.withFetchWord { State.reset with cpc := 0x20 } 32 0x2420)) =
      some ((.faulted, some .illegalCommand, 0x2420), 0x20) := by decide

/-- V-SQ-11 and V-SQ-12: FAULTED ignores `HostStart` and is left by `HostReset`. -/
theorem test_leave_fault :
    let s := { (at16 0 4 [] []).takeFault .overlap 7 with pending := [.host .start] }
    seen faultOf (step s) = some (.faulted, some .overlap, 7) ∧
    seen (fun t => (faultOf t, t.cpc)) (step { s with pending := [.host .reset] }) = some ((.idle, none, 0), 0) := by
  decide

/-- V-SQ-13: while RUNNING, a register write and a `CPC` write are ignored. -/
theorem test_running_ignores_host :
    let s := at16 0 4 [] []
    seen (fun t => (t.reg 3, t.cpc)) (step { s with pending := [.host (.writeReg 3 5)] }) = some (0, 0) ∧
    seen (fun t => (t.reg 3, t.cpc)) (step { s with pending := [.host (.writeCsr 1 8)] }) = some (0, 0) := by decide

/-! ## Dispatcher -/

/-- V-DP-1, V-DP-2, V-DP-4, V-DP-6: `BIND` and `CHUNKSZ` after a reset with that strap. -/
theorem test_bind_from_caps :
    [0#32, 1, 3, 5].map (fun c => ((State.hostReset { State.reset with strap := c }).csr 5,
      (State.hostReset { State.reset with strap := c }).csr 6)) = [(0x00, 16), (0x15, 16), (0x2A, 32), (0x3F, 64)] := by
  decide

/-- V-DP-9 and V-DP-11: narrower implemented sets. -/
theorem test_bind_narrow_impl :
    (bindingOf 7 { Config.default with
      implCC := ⟨true, false, false⟩, implHS := ⟨true, true, false⟩ }).word = 0x2D ∧
    (bindingOf 6 { Config.default with
      implCC := ⟨true, false, false⟩, implCK := ⟨false, true, false⟩, implHS := ⟨false, false, true⟩ }).word = 0x38 := by
  decide

/-- `CHUNKSZ` on a machine with 32-byte chunks. -/
theorem test_chunksz : seen (fun t => t.reg 4) (exec (.chunksz 4) { State.reset with chunksz := .w32 }) = some 32 := by
  decide

/-! ## Copies -/

/-- V-CS-1. -/
theorem test_cpsafe_copies :
    seen (fun t => Memory.read t.mem 0x200 6)
      (exec (.cpsafe 1 2 3) (at16 0x100 0x300 [(1, 0x200), (2, 0x100), (3, 5)] abcab)) =
      some [0x41, 0x42, 0x43, 0x41, 0x42, 0x00] := by decide

/-- V-CS-8 and V-CS-12: overlap before validity; source before destination. -/
theorem test_cpsafe_faults :
    seen faultOf (exec (.cpsafe 1 2 3) (at16 0x100 0x300 [(1, 2), (2, 0), (3, 4)] [])) =
      some (.faulted, some .overlap, 2) ∧
    seen faultOf (exec (.cpsafe 1 2 3) (at16 0x100 0x300 [(1, 0x400), (2, 0xFE), (3, 4)] [])) =
      some (.faulted, some .memFault, 0xFE) := by decide

/-- V-OV-20: the back-reference (3, 8) on "ABC", eight bytes. -/
theorem test_cpovl_expands :
    seen (fun t => Memory.read t.mem 0x100 11)
      (exec (.cpovl 1 2 3) (at16 0x100 0x200 [(1, 0x103), (2, 3), (3, 8)] (Memory.write [] 0x100 [0x41, 0x42, 0x43]))) =
      some [0x41, 0x42, 0x43, 0x41, 0x42, 0x43, 0x41, 0x42, 0x43, 0x41, 0x42] := by decide

/-- V-OV-19, V-OV-26 and V-OV-22: distance 0 first; a source below 0; the slack invalid. -/
theorem test_cpovl_faults :
    seen faultOf (exec (.cpovl 1 2 3) (at16 0x100 0x200 [] [])) = some (.faulted, some .badDistance, 0) ∧
    seen faultOf (exec (.cpovl 1 2 3) (at16 0x100 0x200 [(1, 2), (2, 3), (3, 1)] [])) =
      some (.faulted, some .memFault, 0xFFFFFFFFFFFFFFFF) ∧
    seen faultOf (exec (.cpovl 1 2 3) (at16 0x100 0x200 [(1, 0x1F0), (2, 3), (3, 2)] [])) =
      some (.faulted, some .memFault, 0x1F0) := by decide

/-- V-UN-4: the source's slack may reach into the destination. -/
theorem test_cpunr_copies :
    seen (fun t => Memory.read t.mem 0x108 8)
      (exec (.cpunr 1 2 3) (at16 0x100 0x200 [(1, 0x108), (2, 0x100), (3, 8)]
        (Memory.write [] 0x100 [0x30, 0x31, 0x32, 0x33, 0x34, 0x35, 0x36, 0x37]))) =
      some [0x30, 0x31, 0x32, 0x33, 0x34, 0x35, 0x36, 0x37] := by decide

/-- V-UN-6 and V-UN-7: a source inside the destination's slack; a source range that leaves valid memory. -/
theorem test_cpunr_faults :
    seen faultOf (exec (.cpunr 1 2 3) (at16 0x100 0x200 [(1, 0x140), (2, 0x14F), (3, 1)] [])) =
      some (.faulted, some .overlap, 0x140) ∧
    seen faultOf (exec (.cpunr 1 2 3) (at16 0x100 0x200 [(1, 0x100), (2, 0x1E8), (3, 10)] [])) =
      some (.faulted, some .memFault, 0x1E8) := by decide

/-! ## Chunk backend -/

/-- The first 17 bytes of the source buffer of section 3.1, at 0x2000. -/
def source : Memory :=
  Memory.write [] 0x2000
    [0x03, 0x0A, 0x11, 0x18, 0x1F, 0x26, 0x2D, 0x34, 0x3B, 0x42, 0x49, 0x50, 0x57, 0x5E, 0x65, 0x6C, 0x73]

/-- V-CB-7 and V-CB-9: an unaligned load whose range ends where valid memory ends; one byte further it faults. -/
theorem test_cload :
    seen (fun t => t.chunk 1) (exec (.cload 1 2) (at16 0x2000 0x2011 [(2, 0x2001)] source)) =
      some [0x0A, 0x11, 0x18, 0x1F, 0x26, 0x2D, 0x34, 0x3B, 0x42, 0x49, 0x50, 0x57, 0x5E, 0x65, 0x6C, 0x73] ∧
    seen faultOf (exec (.cload 0 2) (at16 0x2000 0x2011 [(2, 0x2010)] source)) =
      some (.faulted, some .memFault, 0x2010) := by decide

/-- V-CB-8: an unaligned store leaves its neighbours. -/
theorem test_cstore :
    seen (fun t => (Memory.read t.mem 0x3002 3, Memory.read t.mem 0x3012 2))
      (exec (.cstore 3 1) ((at16 0x3000 0x3100 [(3, 0x3003)] (Memory.write [] 0x3000 (List.replicate 32 0xEE))).setChunk 1
        (Memory.read source 0x2001 16))) = some ([0xEE, 0x0A, 0x11], [0x73, 0xEE]) := by decide

/-- V-FL-2 and V-FL-3. -/
theorem test_cfill2_cfill4 :
    seen (fun t => t.chunk 0) (exec (.cfill2 0 1) (at16 0 64 [] (Memory.write [] 0 [0xAB, 0xCD]))) =
      some [0xAB, 0xCD, 0xAB, 0xCD, 0xAB, 0xCD, 0xAB, 0xCD, 0xAB, 0xCD, 0xAB, 0xCD, 0xAB, 0xCD, 0xAB, 0xCD] ∧
    seen (fun t => t.chunk 0) (exec (.cfill4 0 1) (at16 0 64 [] (Memory.write [] 0 [0xDE, 0xAD, 0xBE, 0xEF]))) =
      some [0xDE, 0xAD, 0xBE, 0xEF, 0xDE, 0xAD, 0xBE, 0xEF, 0xDE, 0xAD, 0xBE, 0xEF, 0xDE, 0xAD, 0xBE, 0xEF] := by decide

/-- V-FL-1 and V-FL-4. -/
theorem test_cfill1_cfill8 :
    seen (fun t => t.chunk 0) (exec (.cfill1 0 1) (at16 0 64 [] (Memory.write [] 0 [0x5A]))) =
      some (List.replicate 16 0x5A) ∧
    seen (fun t => t.chunk 0) (exec (.cfill8 0 1) (at16 0 64 [] (Memory.write [] 0 [1, 2, 3, 4, 5, 6, 7, 8]))) =
      some [1, 2, 3, 4, 5, 6, 7, 8, 1, 2, 3, 4, 5, 6, 7, 8] := by decide

/-- V-FL-9, V-FL-10 and V-FL-11: four valid bytes; and a unit size that is not supported, before any memory check. -/
theorem test_cfill_faults :
    seen (fun t => t.run) (exec (.cfill4 0 1) (at16 0x2000 0x2004 [(1, 0x2000)] [])) = some .running ∧
    seen faultOf (exec (.cfill8 0 1) (at16 0x2000 0x2004 [(1, 0x2000)] [])) = some (.faulted, some .memFault, 0x2000) ∧
    seen faultOf (exec (.cfill8 0 1) { at16 0x2000 0x2004 [] [] with
      cfg := { Config.default with fillSupported := ⟨true, true, true, false⟩ } }) =
      some (.faulted, some .unsupportedFill, 8) := by decide

/-! ## Checksum -/

/-- V-CK-4, V-CK-14, V-CK-16, V-CK-17 and V-CK-22. -/
theorem test_checksum_values :
    checksum 1 [0x57, 0x69, 0x6B, 0x69, 0x70, 0x65, 0x64, 0x69, 0x61] = 0x11E60398 ∧
    checksum 0 [0x61, 0x62, 0x63] = 0x024A0126 ∧ checksum 0xFFF0FFF0 [0xFF] = 0x00FD00FE ∧
    checksum 0x12345678 [0x68, 0x65, 0x6C, 0x6C, 0x6F] = 0xC8C2588C ∧ checksum 0xFFFFFFFF [1] = 0x001D000F := by decide

/-- V-CK-28 and V-CK-25 (the result register is the data address; the upper half of the state register is ignored), V-CK-26
and V-CK-27. -/
theorem test_cksum :
    seen (fun t => t.reg 1) (exec (.cksum 1 0 1 2) (at16 0x500 0x600
      [(0, 0xDEADBEEF00000001), (1, 0x500), (2, 3)] (Memory.write [] 0x500 [0x61, 0x62, 0x63]))) =
      some 0x024D0127 ∧
    seen faultOf (exec (.cksum 0 0 1 2) (at16 0x100 0x200 [(0, 1), (1, 0x1FE), (2, 4)] [])) =
      some (.faulted, some .memFault, 0x1FE) ∧
    seen (fun t => t.reg 5) (exec (.cksum 5 0 1 2) (at16 0x100 0x200 [(0, 1)] [])) = some 1 := by decide

/-! ## Window slide -/

/-- V-SL-14. -/
theorem test_slide_tables :
    seen (fun t => (Memory.read t.mem 0x600 6, Memory.read t.mem 0x610 8))
      (exec (.slide 1 2 3 4 5) (at16 0x600 0x700 [(1, 0x600), (2, 3), (3, 0x610), (4, 4), (5, 6)]
        (Memory.write (Memory.write [] 0x600 [0x05, 0, 0, 0, 0x0C, 0]) 0x610 [0xFF, 0xFF, 6, 0, 7, 0, 0, 0x80]))) =
      some ([0, 0, 0, 0, 6, 0], [0xF9, 0xFF, 0, 0, 1, 0, 0xFA, 0x7F]) := by decide

/-- V-SL-20, V-SL-22 and V-SL-26. -/
theorem test_slide_faults :
    seen faultOf (exec (.slide 1 2 3 4 5) (at16 0x600 0x700 [(1, 0x601), (2, 1), (3, 0x800), (4, 1)] [])) =
      some (.faulted, some .misaligned, 0x601) ∧
    seen faultOf (exec (.slide 1 2 3 4 5) (at16 0x600 0x700 [(1, 0x600), (2, 1), (3, 0x800), (4, 1)] [])) =
      some (.faulted, some .memFault, 0x800) ∧
    seen faultOf (exec (.slide 1 2 1 2 5) (at16 0x600 0x700 [(1, 0x600), (2, 1), (5, 6)] [])) =
      some (.faulted, some .overlap, 0x600) := by decide

/-! ## Witnesses for the hypotheses of the obligations, one per statement and clause -/

theorem wit_encodeOfDecode : decode 0xFFFFFF02 = .ok (.seti 15 0xFFFFF) := by decide

theorem wit_matchAndMaskDecide :
    (0x0003BA11 &&& Op.cpsafe.mask = Op.cpsafe.pattern) ∧ ∀ o : Op, (0x00000000 : CmdWord) &&& o.mask ≠ o.pattern :=
  ⟨by decide, fun o => by cases o <;> decide⟩

/-- The lowest and the highest bit a mask can ask 0 of. -/
theorem wit_unusedBits :
    ((0x00000101 : CmdWord).extractLsb' 0 8 = Op.endRun.code ∧ Op.endRun.mask.getLsbD 8 = true ∧
      (0x00000101 : CmdWord).getLsbD 8 = true) ∧
    ((0x85432140 : CmdWord).extractLsb' 0 8 = Op.slide.code ∧ Op.slide.mask.getLsbD 31 = true ∧
      (0x85432140 : CmdWord).getLsbD 31 = true) := by decide

theorem wit_unassignedOpcode : ∀ o : Op, (0x00001022 : CmdWord).extractLsb' 0 8 ≠ o.code := fun o => by
  cases o <;> decide

theorem wit_pseudoFill : expandCfill 3 15 8 = some (.cfill8 3 15) ∧ 0 ∉ [1, 2, 4, 8] ∧ 16 ∉ [1, 2, 4, 8] := by decide

/-- An `END` at the last four valid bytes, RUNNING; and the same with the sequencer's turn pending. -/
def atEnd : State := { at16 0 0x104 [] [] with cpc := 0x100, cmem := Memory.write [] 0x100 (bytesOfWord 1) }

theorem wit_stepRuns :
    atEnd.run = .running ∧ atEnd.cpc.toNat % 4 = 0 ∧
    (∀ k < 4, validAddr atEnd.cfg.cmdValid (atEnd.cpc.toNat + k) = true) ∧
    decodeBytes (Memory.read atEnd.cmem atEnd.cpc.toNat 4) = .ok (.endRun, []) ∧ atEnd.pending = [] ∧
    ({ atEnd with pending := [.sequencer] } : State).pending = .sequencer :: [] := by decide

theorem wit_endAgain : atEnd.run = .running ∧ atEnd.fetchDecode = .ok .endRun := by decide

/-- The sequencer's turn, pending before other events. -/
def turnFirst (s : State) : State := { s with pending := .sequencer :: s.pending }

theorem turnFirst_turn (s : State) : SequencerTurn (turnFirst s) s := .inr ⟨s.pending, rfl, rfl⟩

theorem turn_of_idleQueue {s : State} (h : s.pending = []) : SequencerTurn s s := .inl ⟨h, rfl⟩

/-- Both forms of the sequencer's turn, at a `cpc` with an invalid byte and at a misaligned one. -/
theorem wit_fetchFault :
    let s : State := { at16 0 0x106 [] [] with cpc := 0x104 }
    let u : State := { at16 0 0x106 [] [] with cpc := 1 }
    (SequencerTurn s s ∧ s.run = .running ∧ validAddr s.cfg.cmdValid (s.cpc.toNat + 2) = false) ∧
      (SequencerTurn (turnFirst s) s ∧ (turnFirst s).run = .running ∧
        validAddr (turnFirst s).cfg.cmdValid ((turnFirst s).cpc.toNat + 2) = false) ∧
      (SequencerTurn (turnFirst u) u ∧ (turnFirst u).run = .running ∧ (turnFirst u).cpc.toNat % 4 ≠ 0) :=
  ⟨⟨turn_of_idleQueue rfl, by decide, by decide⟩, ⟨turnFirst_turn _, by decide, by decide⟩, turnFirst_turn _, by decide,
    by decide⟩

/-- Both forms of the sequencer's turn. -/
theorem wit_illegalCommand :
    let s : State := { atEnd with cmem := Memory.write [] 0x100 (bytesOfWord 0x101) }
    (SequencerTurn s s ∧ SequencerTurn (turnFirst s) s) ∧
      (∀ u ∈ [s, turnFirst s], u.run = .running ∧ u.cpc.toNat % 4 = 0 ∧
        (∀ k < 4, validAddr u.cfg.cmdValid (u.cpc.toNat + k) = true) ∧
        ∀ k < 4, Memory.readByte u.cmem (u.cpc.toNat + k) = (0x101 : CmdWord).extractLsb' (8 * k) 8) ∧
      decode 0x101 = .error .mustBeZeroBit ∧ (0x101 : CmdWord).extractLsb' 0 8 = Op.endRun.code ∧
      (0x101 : CmdWord) &&& Op.endRun.mask ≠ Op.endRun.pattern ∧ 4 ≤ (4 : BitVec 4).toNat :=
  ⟨⟨turn_of_idleQueue rfl, turnFirst_turn _⟩, by decide, by decide⟩

theorem wit_noStep :
    (State.reset.run ≠ .running ∧ State.reset.pending = []) ∧
    (({ State.reset with pending := [.sequencer] } : State).run ≠ .running) := by decide

theorem wit_running :
    (SequencerTurn (at16 0 4 [] []) (at16 0 4 [] []) ∧ (at16 0 4 [] []).run = .running) ∧
    (SequencerTurn (turnFirst (at16 0 4 [] [])) (at16 0 4 [] []) ∧ (turnFirst (at16 0 4 [] [])).run = .running) :=
  ⟨⟨turn_of_idleQueue rfl, by decide⟩, turnFirst_turn _, by decide⟩

theorem wit_seti : 0xFFFFF ≤ 0xFFFFF := Nat.le_refl _

/-- The ends of the ranges of `SETI`'s immediate and of `CFILL`'s `k`. -/
theorem wit_commandText : 0xFFFFF ≤ 0xFFFFF ∧ 0xFFFFF < 0x100000 ∧ 0 ∉ [1, 2, 4, 8] ∧ 3 ∉ [1, 2, 4, 8] := by decide

/-! ### Copies: valid bytes 0x100 to 0x2FF, `W` = 16 -/

/-- Three operand registers. -/
def ops3 (a b c : Word) : State := at16 0x100 0x300 [(1, a), (2, b), (3, c)] []

/-- V-CS-7 (adjacent ranges), V-CS-11 (ending where valid memory ends), V-CS-3 (`len` = 0). -/
theorem wit_cpsafe_completes :
    (RangesDisjoint ((ops3 0x105 0x100 5).num 2) 5 ((ops3 0x105 0x100 5).num 1) 5 ∧
      RangeValid (ops3 0x105 0x100 5) 0x100 5 ∧ RangeValid (ops3 0x105 0x100 5) 0x105 5) ∧
    RangeValid (ops3 0x2FC 0x100 4) 0x2FC 4 ∧ (ops3 0 8 0).num 3 = 0 :=
  ⟨⟨rangesDisjoint_of (by decide), rangeValid_of (by decide), rangeValid_of (by decide)⟩, rangeValid_of (by decide),
    by decide⟩

/-- V-CS-6, V-CS-9 and V-CS-10. -/
theorem wit_cpsafe_faults :
    ((ops3 0x100 0x100 1).num 3 ≠ 0 ∧ ¬RangesDisjoint 0x100 1 0x100 1) ∧
    ((ops3 0x200 0xFE 4).num 3 ≠ 0 ∧ RangesDisjoint 0xFE 4 0x200 4 ∧ ¬RangeValid (ops3 0x200 0xFE 4) 0xFE 4) ∧
    ((ops3 0x2FE 0x100 4).num 3 ≠ 0 ∧ RangesDisjoint 0x100 4 0x2FE 4 ∧ RangeValid (ops3 0x2FE 0x100 4) 0x100 4 ∧
      ¬RangeValid (ops3 0x2FE 0x100 4) 0x2FE 4) :=
  ⟨⟨by decide, not_rangesDisjoint_of (by decide)⟩,
    ⟨by decide, rangesDisjoint_of (by decide), not_rangeValid_of (by decide)⟩,
    ⟨by decide, rangesDisjoint_of (by decide), rangeValid_of (by decide), not_rangeValid_of (by decide)⟩⟩

/-- V-OV-20 (`dist` < `W`), `dist` = `W` up to the last valid byte, and V-OV-16 (`len` = 0). -/
theorem wit_cpovl_completes :
    ((ops3 0x103 3 8).num 2 ≠ 0 ∧ BackRangeValid (ops3 0x103 3 8) 0x103 3 (min 3 8) ∧
      RangeValid (ops3 0x103 3 8) 0x103 (8 + (ops3 0x103 3 8).W - 1)) ∧
    ((ops3 0x2F0 16 1).num 2 ≠ 0 ∧ BackRangeValid (ops3 0x2F0 16 1) 0x2F0 16 (min 16 1) ∧
      RangeValid (ops3 0x2F0 16 1) 0x2F0 (1 + (ops3 0x2F0 16 1).W - 1)) ∧
    ((ops3 0 3 0).num 2 ≠ 0 ∧ (ops3 0 3 0).num 3 = 0) :=
  ⟨⟨by decide, .inr ⟨by decide, rangeValid_of (by decide)⟩, rangeValid_of (by decide)⟩,
    ⟨by decide, .inr ⟨by decide, rangeValid_of (by decide)⟩, rangeValid_of (by decide)⟩, by decide⟩

/-- V-OV-18, V-OV-26 (a source below 0), V-OV-25, and the slack one byte too long. -/
theorem wit_cpovl_faults :
    (ops3 0x103 0 0).num 2 = 0 ∧
    ((ops3 2 3 1).num 2 ≠ 0 ∧ (ops3 2 3 1).num 3 ≠ 0 ∧ ¬BackRangeValid (ops3 2 3 1) 2 3 (min 3 1)) ∧
    ((ops3 0x102 3 4).num 3 ≠ 0 ∧ ¬BackRangeValid (ops3 0x102 3 4) 0x102 3 (min 3 4)) ∧
    ((ops3 0x2F0 16 2).num 2 ≠ 0 ∧ (ops3 0x2F0 16 2).num 3 ≠ 0 ∧
      BackRangeValid (ops3 0x2F0 16 2) 0x2F0 16 (min 16 2) ∧
      ¬RangeValid (ops3 0x2F0 16 2) 0x2F0 (2 + (ops3 0x2F0 16 2).W - 1)) :=
  ⟨by decide,
    ⟨by decide, by decide, fun h => h.elim (by decide) fun h => absurd h.1 (by decide)⟩,
    ⟨by decide, fun h => h.elim (by decide) fun h => not_rangeValid_of (by decide) h.2⟩,
    ⟨by decide, by decide, .inr ⟨by decide, rangeValid_of (by decide)⟩, not_rangeValid_of (by decide)⟩⟩

/-- An admitted `CPOVL` completes. -/
theorem cpovl_completes {s : State} (hr : s.run = .running) (h1 : s.num 2 ≠ 0) (h2 : s.num 3 ≠ 0)
    (h3 : s.validRange (s.backSource 1 2) (min (s.num 2) (s.num 3)) = true)
    (h4 : s.validRange (s.num 1) (s.num 3 + s.W - 1) = true) :
    ∃ t, exec (.cpovl 1 2 3) s = .next t ∧ t.run = .running :=
  ⟨(s.overlapEffect (s.num 1) (s.num 2) (s.num 3)).advance, by simp [exec, execCpovl, h1, h2, h3, h4, complete], hr⟩

/-- A narrow and a wide `CPOVL` that complete (V-OV-20, V-OV-12's shape). -/
theorem wit_cpovl_runs :
    (ops3 0x103 3 8).run = .running ∧ (ops3 0x103 3 8).num 3 ≠ 0 ∧ (ops3 0x103 3 8).num 2 < (ops3 0x103 3 8).W ∧
    (∃ t, exec (.cpovl 1 2 3) (ops3 0x103 3 8) = .next t ∧ t.run = .running) ∧
    ∃ t, exec (.cpovl 1 2 3) (ops3 0x110 16 33) = .next t ∧ t.run = .running :=
  ⟨by decide, by decide, by decide, cpovl_completes (by decide) (by decide) (by decide) (by decide) (by decide),
    cpovl_completes (by decide) (by decide) (by decide) (by decide) (by decide)⟩

/-- An admitted `CPUNR` completes. -/
theorem cpunr_completes {s : State} (hr : s.run = .running) (h2 : s.num 3 ≠ 0)
    (h3 : unrolledApart (s.num 1) (s.num 2) (s.num 3) s.W = true) (h4 : s.validRange (s.num 2) (s.num 3 + s.W - 1) = true)
    (h5 : s.validRange (s.num 1) (s.num 3 + s.W - 1) = true) :
    ∃ t, exec (.cpunr 1 2 3) s = .next t ∧ t.run = .running :=
  ⟨(s.unrolledEffect (s.num 1) (s.num 2) (s.num 3)).advance, by simp [exec, execCpunr, h2, h3, h4, h5, complete], hr⟩

/-- A `CPUNR` that completes (V-UN-4), and a `CPOVL` with `dist` = `W` (42 R166, R158). -/
theorem wit_slackBytes :
    ((ops3 0x108 0x100 8).run = .running ∧ (ops3 0x108 0x100 8).num 3 ≠ 0 ∧
      ∃ t, exec (.cpunr 1 2 3) (ops3 0x108 0x100 8) = .next t ∧ t.run = .running) ∧
    (ops3 0x110 16 33).num 3 ≠ 0 ∧ (ops3 0x110 16 33).W ≤ (ops3 0x110 16 33).num 2 :=
  ⟨⟨by decide, by decide, cpunr_completes (by decide) (by decide) (by decide) (by decide) (by decide)⟩, by decide,
    by decide⟩

/-- V-UN-4 (`src + len = dst`), V-UN-5 (`dst + len + W - 1 = src`), V-UN-2. -/
theorem wit_cpunr_completes :
    ((0x100 + 8 ≤ 0x108 ∨ 0x108 + 8 + (ops3 0x108 0x100 8).W - 1 ≤ 0x100) ∧
      RangeValid (ops3 0x108 0x100 8) 0x100 (8 + (ops3 0x108 0x100 8).W - 1) ∧
      RangeValid (ops3 0x108 0x100 8) 0x108 (8 + (ops3 0x108 0x100 8).W - 1)) ∧
    (0x150 + 1 ≤ 0x140 ∨ 0x140 + 1 + (ops3 0x140 0x150 1).W - 1 ≤ 0x150) ∧ (ops3 0 0 0).num 3 = 0 :=
  ⟨⟨by decide, rangeValid_of (by decide), rangeValid_of (by decide)⟩, by decide, by decide⟩

/-- V-UN-6, V-UN-7 and V-UN-8, at the end of the valid bytes. -/
theorem wit_cpunr_faults :
    ((ops3 0x140 0x14F 1).num 3 ≠ 0 ∧ ¬(0x14F + 1 ≤ 0x140 ∨ 0x140 + 1 + (ops3 0x140 0x14F 1).W - 1 ≤ 0x14F)) ∧
    ((ops3 0x100 0x2E8 10).num 3 ≠ 0 ∧
      (0x2E8 + 10 ≤ 0x100 ∨ 0x100 + 10 + (ops3 0x100 0x2E8 10).W - 1 ≤ 0x2E8) ∧
      ¬RangeValid (ops3 0x100 0x2E8 10) 0x2E8 (10 + (ops3 0x100 0x2E8 10).W - 1)) ∧
    ((ops3 0x2E8 0x100 10).num 3 ≠ 0 ∧
      (0x100 + 10 ≤ 0x2E8 ∨ 0x2E8 + 10 + (ops3 0x2E8 0x100 10).W - 1 ≤ 0x100) ∧
      RangeValid (ops3 0x2E8 0x100 10) 0x100 (10 + (ops3 0x2E8 0x100 10).W - 1) ∧
      ¬RangeValid (ops3 0x2E8 0x100 10) 0x2E8 (10 + (ops3 0x2E8 0x100 10).W - 1)) :=
  ⟨by decide, ⟨by decide, by decide, not_rangeValid_of (by decide)⟩,
    ⟨by decide, by decide, rangeValid_of (by decide), not_rangeValid_of (by decide)⟩⟩

/-! ### Chunks -/

/-- The last chunk of valid memory, and one byte further. -/
theorem wit_cload_cstore :
    RangeValid (ops3 0x2F0 0 0) ((ops3 0x2F0 0 0).num 1) (ops3 0x2F0 0 0).W ∧
    ¬RangeValid (ops3 0x2F1 0 0) ((ops3 0x2F1 0 0).num 1) (ops3 0x2F1 0 0).W ∧
    ((ops3 0x2F0 0 0).chunk 2).length = (ops3 0x2F0 0 0).W :=
  ⟨rangeValid_of (by decide), not_rangeValid_of (by decide), by decide⟩

/-- A machine without `fill_8`. -/
def noFill8 : State := { ops3 0 0 0 with cfg := { Config.default with fillSupported := ⟨true, true, true, false⟩ } }

theorem wit_cfill :
    ((ops3 0x2F8 0 0).cfg.fillSupported.k8 = true ∧ RangeValid (ops3 0x2F8 0 0) ((ops3 0x2F8 0 0).num 1) 8) ∧
    ((ops3 0x2FF 0 0).cfg.fillSupported.k1 = true ∧ RangeValid (ops3 0x2FF 0 0) ((ops3 0x2FF 0 0).num 1) 1) ∧
    noFill8.cfg.fillSupported.k8 = false ∧ ¬RangeValid (ops3 0x2F9 0 0) ((ops3 0x2F9 0 0).num 1) 8 :=
  ⟨⟨by decide, rangeValid_of (by decide)⟩, ⟨by decide, rangeValid_of (by decide)⟩, by decide,
    not_rangeValid_of (by decide)⟩

/-- An admitted store after a chunk write completes. -/
theorem cstore_completes {s : State} (c : CReg) (rb : Reg) (v : Chunk) (hr : s.run = .running)
    (h : s.validRange (s.num rb) s.W = true) :
    ∃ u, exec (.cstore rb c) (s.setChunk c v).advance = .next u ∧ u.run = .running :=
  ⟨_, if_pos h, hr⟩

/-- V-CB-11: a round trip whose ranges overlap; and a fill, then a store. -/
theorem wit_chunkRoundTrips :
    (∃ t u, exec (.cload 0 1) (ops3 0x200 0x204 0) = .next t ∧ t.run = .running ∧
      exec (.cstore 2 0) t = .next u ∧ u.run = .running) ∧
    ∃ t u, exec (.cfill8 0 1) (ops3 0x200 0x204 0) = .next t ∧ t.run = .running ∧
      exec (.cstore 2 0) t = .next u ∧ u.run = .running := by
  have pair : ∀ s : State, s.run = .running → s.cfg.fillSupported.has .k8 = true →
      s.validRange (s.num 1) s.W = true → s.validRange (s.num 1) 8 = true → s.validRange (s.num 2) s.W = true →
      (∃ t u, exec (.cload 0 1) s = .next t ∧ t.run = .running ∧ exec (.cstore 2 0) t = .next u ∧ u.run = .running) ∧
      ∃ t u, exec (.cfill8 0 1) s = .next t ∧ t.run = .running ∧ exec (.cstore 2 0) t = .next u ∧ u.run = .running := by
    intro s hr hf h1 h8 h2
    obtain ⟨u, hu, ru⟩ := cstore_completes 0 2 (s.memRead (s.num 1) s.W) hr h2
    obtain ⟨w, hw, rw⟩ := cstore_completes 0 2 (fill (s.memRead (s.num 1) 8) s.W) hr h2
    exact ⟨⟨_, u, if_pos h1, hr, hu, ru⟩, ⟨_, w, (if_pos hf).trans (if_pos h8), hr, hw, rw⟩⟩
  exact pair _ (by decide) (by decide) (by decide) (by decide) (by decide)

/-! ### Checksum -/

/-- Up to the last valid byte, one byte further, and no byte at an invalid address (V-CK-27). -/
theorem wit_cksum :
    RangeValid (ops3 0 0x2FC 4) ((ops3 0 0x2FC 4).num 2) ((ops3 0 0x2FC 4).num 3) ∧
    ¬RangeValid (ops3 0 0x2FD 4) ((ops3 0 0x2FD 4).num 2) ((ops3 0 0x2FD 4).num 3) ∧
    RangeValid (ops3 0 0 0) ((ops3 0 0 0).num 2) ((ops3 0 0 0).num 3) :=
  ⟨rangeValid_of (by decide), not_rangeValid_of (by decide), rangeValid_of (by decide)⟩

/-- V-CK-2: the state after "a". -/
theorem wit_checksumRecurrence : checksum 1 [0x61] = BitVec.ofNat 32 (98 * 65536 + 98) := by decide

/-- The largest canonical state. -/
theorem wit_canonical : Canonical 0xFFF0FFF0 := ⟨by decide, by decide⟩

/-! ### Slide: `head` in r1, count in r2, `prev` in r3, count in r4 -/

def ops5 (a b c d : Word) : State := at16 0x600 0x700 [(1, a), (2, b), (3, c), (4, d), (5, 6)] []

/-- V-SL-24 (adjacent tables), and `prev` up to the last valid byte. -/
theorem wit_slide_completes :
    let s := ops5 0x600 2 0x604 126
    (0x600 % s.EB = 0) ∧ (0x604 % s.EB = 0) ∧ RangeValid s 0x600 (s.EB * 2) ∧ RangeValid s 0x604 (s.EB * 126) ∧
      RangesDisjoint 0x600 (s.EB * 2) 0x604 (s.EB * 126) :=
  ⟨by decide, by decide, rangeValid_of (by decide), rangeValid_of (by decide), rangesDisjoint_of (by decide)⟩

/-- V-SL-18, V-SL-19, V-SL-21, V-SL-22 and V-SL-26. -/
theorem wit_slide_faults :
    ¬((1 : Nat) = 0 ∨ 0x601 % (ops5 0x601 1 0x610 1).EB = 0) ∧
    (0x600 % (ops5 0x600 1 0x611 1).EB = 0 ∧ ¬((1 : Nat) = 0 ∨ 0x611 % (ops5 0x600 1 0x611 1).EB = 0)) ∧
    (0x6FE % (ops5 0x6FE 2 0x610 1).EB = 0 ∧ ¬RangeValid (ops5 0x6FE 2 0x610 1) 0x6FE ((ops5 0x6FE 2 0x610 1).EB * 2)) ∧
    (RangeValid (ops5 0x600 1 0x800 1) 0x600 ((ops5 0x600 1 0x800 1).EB * 1) ∧
      ¬RangeValid (ops5 0x600 1 0x800 1) 0x800 ((ops5 0x600 1 0x800 1).EB * 1)) ∧
    (RangeValid (ops5 0x600 1 0x600 1) 0x600 ((ops5 0x600 1 0x600 1).EB * 1) ∧
      ¬RangesDisjoint 0x600 ((ops5 0x600 1 0x600 1).EB * 1) 0x600 ((ops5 0x600 1 0x600 1).EB * 1)) :=
  ⟨by decide, by decide, ⟨by decide, not_rangeValid_of (by decide)⟩,
    ⟨rangeValid_of (by decide), not_rangeValid_of (by decide)⟩,
    ⟨rangeValid_of (by decide), not_rangesDisjoint_of (by decide)⟩⟩

/-- V-SL-15's shape: windows 2 and 4 in r6 and r7, 6 in r5. -/
theorem wit_slidesAddUp :
    let s := ((ops5 0x600 3 0x610 4).setReg 6 2).setReg 7 4
    s.num 5 = s.num 6 + s.num 7 ∧ s.run = .running ∧
      ∃ t u v, exec (.slide 1 2 3 4 6) s = .next t ∧ t.run = .running ∧ exec (.slide 1 2 3 4 7) t = .next u ∧
        u.run = .running ∧ exec (.slide 1 2 3 4 5) s = .next v ∧ v.run = .running :=
  ⟨by decide, by decide, _, _, _, rfl, rfl, rfl, rfl, rfl, rfl⟩

/-- Every clause of the zero-length rule: V-CS-3, V-OV-16, V-CK-27, V-SL-17, and one empty table of two. -/
theorem wit_zeroLength :
    ((ops3 0 8 0).num 3 = 0 ∧ (ops3 0 8 0).num 2 ≠ 0) ∧
    ((ops5 0x601 0 0x613 0).num 2 = 0 ∧ (ops5 0x601 0 0x613 0).num 4 = 0) ∧
    ((ops5 0x601 0 0x610 1).num 2 = 0 ∧ 0x610 % (ops5 0x601 0 0x610 1).EB = 0 ∧
      RangeValid (ops5 0x601 0 0x610 1) 0x610 ((ops5 0x601 0 0x610 1).EB * 1)) ∧
    ((ops5 0x610 1 0x601 0).num 4 = 0 ∧ 0x610 % (ops5 0x610 1 0x601 0).EB = 0 ∧
      RangeValid (ops5 0x610 1 0x601 0) 0x610 ((ops5 0x610 1 0x601 0).EB * 1)) :=
  ⟨by decide, by decide, ⟨by decide, by decide, rangeValid_of (by decide)⟩,
    ⟨by decide, by decide, rangeValid_of (by decide)⟩⟩

/-! ### Laws of the overlap copy -/

/-- The smallest distance and address, and a distance that reaches address 0. -/
theorem wit_overlapLaws : (1 ≤ 1 ∧ 1 ≤ 1) ∧ (1 ≤ 16 ∧ 16 ≤ 16) := by decide

/-- `dist` = `len` = 16: all three copies complete from one state. -/
theorem wit_copiesAgree :
    let s := (ops3 0x110 16 16).setReg 4 0x100
    s.run = .running ∧ s.num 3 ≤ s.num 2 ∧ s.num 2 ≤ s.num 1 ∧ s.num 4 = s.num 1 - s.num 2 ∧
      ∃ t u v, exec (.cpovl 1 2 3) s = .next t ∧ t.run = .running ∧ exec (.cpsafe 1 4 3) s = .next u ∧
        u.run = .running ∧ exec (.cpunr 1 4 3) s = .next v ∧ v.run = .running :=
  ⟨by decide, by decide, by decide, by decide, _, _, _, rfl, rfl, rfl, rfl, rfl, rfl⟩

/-! ### The whole machine -/

/-- Both forms of the sequencer's turn, and the turn after the fault. -/
theorem wit_faultsArePrecise :
    let s : State := { at16 0 4 [] [] with cpc := 2 }
    (SequencerTurn s s ∧ s.run = .running ∧ ∃ t, step s = .next t ∧ t.run = .faulted ∧ SequencerTurn t t) ∧
    (SequencerTurn (turnFirst s) s ∧ (turnFirst s).run = .running ∧
      ∃ t, step (turnFirst s) = .next t ∧ t.run = .faulted ∧ SequencerTurn t t) :=
  ⟨⟨turn_of_idleQueue rfl, by decide, _, rfl, rfl, turn_of_idleQueue rfl⟩,
    turnFirst_turn _, by decide, _, rfl, rfl, turn_of_idleQueue rfl⟩

theorem wit_operandRegisterUse :
    ((5 : Reg) ∉ readsReg (.cpsafe 1 2 3) ∧ (5 : Reg) ∉ writesReg (.cpsafe 1 2 3)) ∧
    ((4 : Reg) ∉ readsReg (.cksum 4 1 2 3) ∧ (4 : Reg) ∈ writesReg (.cksum 4 1 2 3)) ∧
    (∃ t u, exec (.cksum 4 1 2 3) (ops3 1 0x100 4) = .next t ∧ t.run = .running ∧
      exec (.cksum 4 1 2 3) ((ops3 1 0x100 4).setReg 4 9) = .next u) ∧
    ((1 : Reg) ∉ writesReg (.cksum 4 1 2 3)) :=
  ⟨by decide, by decide, ⟨_, _, rfl, rfl, rfl⟩, by decide⟩

theorem wit_chunkRegisterUse :
    ((3 : CReg) ∉ readsChunk (.cload 3 1) ∧ (3 : CReg) ∈ writesChunk (.cload 3 1)) ∧
    ((0 : CReg) ∉ readsChunk (.cstore 1 3) ∧ (0 : CReg) ∉ writesChunk (.cstore 1 3)) ∧
    ((0 : CReg) ∉ writesChunk (.cload 3 1) ∧ ∃ t, exec (.cload 3 1) (ops3 0x100 0 0) = .next t) ∧
    HostAction.start ≠ .reset :=
  ⟨by decide, by decide, ⟨by decide, _, rfl⟩, by decide⟩

theorem wit_commandPointer :
    (ops3 0x100 0 0).run = .running ∧ (∃ t, exec (.cload 3 1) (ops3 0x100 0 0) = .next t ∧ t.run = .running) ∧
    (∃ t, exec .endRun (ops3 0x100 0 0) = .next t) ∧
    ∃ t, exec (.cload 3 1) (ops3 0x2F1 0 0) = .next t ∧ t.run = .faulted :=
  ⟨by decide, ⟨_, rfl, rfl⟩, ⟨_, rfl⟩, ⟨_, rfl, rfl⟩⟩

theorem wit_writesWithinFootprint :
    (∀ j, ((ops3 0x200 0 0).chunk j).length = (ops3 0x200 0 0).W) ∧
    (∃ t, exec (.cstore 1 3) (ops3 0x200 0 0) = .next t) ∧ ¬mayWrite (.cstore 1 3) (ops3 0x200 0 0) 0x210 ∧
    ¬mayWrite (.cstore 1 3) (ops3 0x200 0 0) 0x1FF :=
  ⟨by decide, ⟨_, rfl⟩, fun h => absurd h.2 (by decide), fun h => absurd h.1 (by decide)⟩

/-- The reset state with events pending. -/
def withEvents (es : List Event) : State := { State.reset with pending := es }

theorem wit_capabilityFrozen :
    (∃ t, step (withEvents [.host .reset]) = .next t) ∧ (withEvents [.host .reset]).pending.head? = some (.host .reset) ∧
    (∃ t, step (withEvents [.setStrap 7]) = .next t) ∧ (withEvents [.setStrap 7]).pending.head? ≠ some (.host .reset) :=
  ⟨⟨_, rfl⟩, by decide, ⟨_, rfl⟩, by decide⟩

theorem wit_commandMemoryChanges :
    ∃ t, step (withEvents [.host (.writeCmd 0 1)]) = .next t ∧ t.cmem ≠ (withEvents [.host (.writeCmd 0 1)]).cmem :=
  ⟨_, rfl, by decide⟩

theorem wit_runStateTransitions :
    (∃ t, step (withEvents [.host .reset]) = .next t) ∧ (∃ t, step (withEvents [.host .start]) = .next t) ∧
    (∃ t, step atEnd = .next t ∧ t.run = .done) ∧ (∃ t, step { atEnd with cpc := 0 } = .next t ∧ t.run ≠ .done) ∧
    ∃ t, step (withEvents [.agentWrite 0 1]) = .next t :=
  ⟨⟨_, rfl⟩, ⟨_, rfl⟩, ⟨_, rfl, rfl⟩, ⟨_, rfl, by decide⟩, ⟨_, rfl⟩⟩

theorem wit_faultSticky :
    let s : State := { (ops3 0 0 0).takeFault .overlap 7 with pending := [.host .start] }
    s.run = .faulted ∧ (∃ t, step s = .next t) ∧ s.pending.head? ≠ some (.host .reset) :=
  ⟨by decide, ⟨_, rfl⟩, by decide⟩

theorem wit_hostReset : (withEvents [.host .reset]).pending = .host .reset :: [] := by decide

theorem wit_hostStart :
    (withEvents [.host .start]).pending = .host .start :: [] ∧ (withEvents [.host .start]).run = .idle ∧
    ((withEvents [.host .start]).setRun .done).run = .done ∧
    ((withEvents [.host .start]).setRun .running).run = .running ∧
    ((withEvents [.host .start]).setRun .faulted).run = .faulted := by decide

/-- Both run conditions, and valid addresses at the ends of both spaces. -/
theorem wit_hostActions :
    (withEvents [.host (.readReg 15)]).pending = .host (.readReg 15) :: [] ∧
    (withEvents [.host (.readReg 15)]).run ≠ .running ∧
    ((withEvents [.host (.writeReg 15 1)]).setRun .running).run = .running ∧
    validAddr (withEvents []).cfg.cmdValid (0xFFFFFFFFFFFFFFFF : Word).toNat = true ∧
    validAddr (withEvents []).cfg.valid (0 : Word).toNat = true := by decide

/-- One strap and implemented set for each clause. -/
theorem wit_dispatcher :
    let all : VecSet := ⟨true, true, true⟩
    (BitVec.getLsbD (4 : BitVec 32) 2 = true ∧ all.v512 = true) ∧
    (¬(BitVec.getLsbD (3 : BitVec 32) 2 = true) ∧ BitVec.getLsbD (3 : BitVec 32) 1 = true) ∧
    (¬(BitVec.getLsbD (1 : BitVec 32) 1 = true) ∧ BitVec.getLsbD (1 : BitVec 32) 0 = true) ∧
    ((0xFFFFFFF8 : BitVec 32) &&& 7 = 0) ∧ select 7 all = .vec512 ∧ select 3 all = .vec256 ∧ select 1 all = .vec128 ∧
    select 4 ⟨true, true, false⟩ = .scalar := by decide

/-- Every run state and every recorded cause occurs, and 7 is the first unused number. -/
theorem wit_csrReads :
    (∀ r : RunState, (State.reset.setRun r).run = r) ∧ State.reset.fcause = none ∧
    (∀ c : Cause, (State.reset.takeFault c 0).fcause = some c) ∧ 7 ≤ 7 :=
  ⟨fun _ => rfl, rfl, fun _ => rfl, Nat.le_refl _⟩

/-- The same operands on a machine with 64-byte chunks. -/
theorem wit_resultsIgnoreBackend :
    let s := ops3 0x103 3 8
    let s' : State := { ops3 0x103 3 8 with chunksz := .w64 }
    widthFree (.cpovl 1 2 3) = true ∧ SameRegs s s' ∧ SameMem s s' ∧ s.cfg.entryWidth = s'.cfg.entryWidth ∧ s.W ≠ s'.W ∧
      (∃ t, exec (.cpovl 1 2 3) s = .next t ∧ t.run = .running) ∧
      ∃ t', exec (.cpovl 1 2 3) s' = .next t' ∧ t'.run = .running :=
  ⟨by decide, fun _ => rfl, fun _ => rfl, by decide, by decide,
    cpovl_completes (by decide) (by decide) (by decide) (by decide) (by decide),
    cpovl_completes (by decide) (by decide) (by decide) (by decide) (by decide)⟩

/-- Two copies whose footprints share no byte. -/
theorem wit_commute :
    let s := ops3 0x200 0x100 16
    let s' := ops3 0x210 0x110 16
    s'.mem = s.mem ∧ (∀ c, (s.chunk c).length = s.W) ∧ (∀ c, (s'.chunk c).length = s'.W) ∧
      (∀ a, ¬conflictAt (.cpsafe 1 2 3) s (.cpsafe 1 2 3) s' a) ∧
      ∃ t t' u u', exec (.cpsafe 1 2 3) s = .next t ∧ exec (.cpsafe 1 2 3) { s' with mem := t.mem } = .next t' ∧
        exec (.cpsafe 1 2 3) s' = .next u' ∧ exec (.cpsafe 1 2 3) { s with mem := u'.mem } = .next u := by
  refine ⟨by decide, by decide, by decide, fun a => ?_, _, _, _, _, rfl, rfl, rfl, rfl⟩
  have h : (ops3 0x200 0x100 16).num 1 = 0x200 ∧ (ops3 0x200 0x100 16).num 2 = 0x100 ∧
      (ops3 0x200 0x100 16).num 3 = 16 ∧ (ops3 0x210 0x110 16).num 1 = 0x210 ∧ (ops3 0x210 0x110 16).num 2 = 0x110 ∧
      (ops3 0x210 0x110 16).num 3 = 16 := by decide
  simp only [conflictAt, mayWrite, mayRead, h]
  omega

/-- An invariant state with a step. -/
theorem wit_stepKeepsInvariant : State.Inv (withEvents [.host .start]) ∧ ∃ t, step (withEvents [.host .start]) = .next t :=
  ⟨⟨⟨⟨.nil, fun _ h => (List.not_mem_nil h).elim⟩, ⟨.nil, fun _ h => (List.not_mem_nil h).elim⟩,
      fun _ h => (List.not_mem_nil h).elim, fun _ h => (List.not_mem_nil h).elim⟩,
    ⟨by decide, by decide, by decide⟩, ⟨by decide, by decide⟩⟩, _, rfl⟩

end Sys2Proof.Tests
end

namespace Sys2Proof.Machine

/-! ## Two writes of registers -/

theorem State.setReg_comm (s : State) {r q : Reg} (v w : Word) (h : r ≠ q) :
    (s.setReg r v).setReg q w = (s.setReg q w).setReg r v := by
  simp only [State.setReg, Vector.set_comm _ _ (Fin.val_ne_of_ne h)]

theorem State.setReg_setReg (s : State) (r : Reg) (v w : Word) : (s.setReg r v).setReg r w = s.setReg r w := by
  simp [State.setReg]

theorem State.setChunk_comm (s : State) {j k : CReg} (v w : Chunk) (h : j ≠ k) :
    (s.setChunk j v).setChunk k w = (s.setChunk k w).setChunk j v := by
  simp only [State.setChunk, Vector.set_comm _ _ (Fin.val_ne_of_ne h)]

theorem State.setChunk_setChunk (s : State) (j : CReg) (v w : Chunk) :
    (s.setChunk j v).setChunk j w = s.setChunk j w := by
  simp [State.setChunk]

/-! ## What a step of the machine can do -/

/-- A command leaves alone what only the host or reset may change. -/
theorem exec_sameSystem {i : Instr} {s t : State} (h : exec i s = .next t) : SameSystem s t := by
  obtain ⟨c, v, hx⟩ | ⟨-, hx⟩ | ⟨-, u, hx, hu⟩ := exec_cases i s <;> rw [hx] at h <;> cases h
  · exact ⟨rfl, rfl, rfl, rfl, rfl, rfl, rfl, rfl⟩
  · exact ⟨rfl, rfl, rfl, rfl, rfl, rfl, rfl, rfl⟩
  · rw [hu]; exact ⟨rfl, rfl, rfl, rfl, rfl, rfl, rfl, rfl⟩

theorem exec_endRun (s : State) : exec .endRun s = .next (s.setRun .done) := rfl

/-- `cpc` and the run state after a command: a fault keeps `cpc`, `END` keeps it and stops the run, every other command
that completes advances `cpc` and keeps the run state. -/
theorem exec_cpc_run {i : Instr} {s t : State} (h : exec i s = .next t) :
    (i ≠ .endRun ∧ t.cpc = s.cpc ∧ t.run = .faulted ∧ t.fcause ≠ none) ∨
      (i = .endRun ∧ t.cpc = s.cpc ∧ t.run = .done) ∨
      (i ≠ .endRun ∧ t.cpc = s.cpc + 4 ∧ t.run = s.run) := by
  by_cases hi : i = .endRun
  · subst hi
    rw [exec_endRun] at h
    cases h
    exact .inr (.inl ⟨rfl, rfl, rfl⟩)
  obtain ⟨c, v, hx⟩ | ⟨hend, -⟩ | ⟨-, u, hx, hu⟩ := exec_cases i s
  · rw [hx] at h
    cases h
    exact .inl ⟨hi, rfl, rfl, by simp⟩
  · exact absurd hend hi
  · rw [hx] at h
    cases h
    rw [hu]
    exact .inr (.inr ⟨hi, rfl, rfl⟩)

/-- The sequencer steps only while RUNNING: it takes the fault of a failed fetch or decode, or runs the command. -/
theorem sequencerStep_cases {s t : State} (h : sequencerStep s = .next t) :
    s.run = .running ∧
      ((∃ c v, s.fetchDecode = .error (c, v) ∧ t = s.takeFault c v) ∨
        ∃ i, s.fetchDecode = .ok i ∧ exec i s = .next t) := by
  by_cases hrun : s.run = .running
  · refine ⟨hrun, ?_⟩
    rw [sequencerStep_of_running hrun] at h
    split at h
    · next i hfd => exact .inr ⟨i, hfd, h⟩
    · next c v hfd => cases h; exact .inl ⟨c, v, hfd, rfl⟩
  · rw [sequencerStep_of_not_running hrun] at h
    cases h

theorem sequencerStep_sameSystem {s t : State} (h : sequencerStep s = .next t) : SameSystem s t := by
  obtain ⟨-, ⟨c, v, -, rfl⟩ | ⟨i, -, hx⟩⟩ := sequencerStep_cases h
  · exact ⟨rfl, rfl, rfl, rfl, rfl, rfl, rfl, rfl⟩
  · exact exec_sameSystem hx

/-- The run state a step of the sequencer leaves (10 R29). -/
theorem sequencerStep_run {s t : State} (h : sequencerStep s = .next t) :
    s.run = .running ∧ (t.run = .done ↔ s.fetchDecode = .ok .endRun) ∧
      (t.run ≠ .done → t.run = .running ∨ (t.run = .faulted ∧ t.fcause ≠ none)) := by
  obtain ⟨hrun, ⟨c, v, hfd, rfl⟩ | ⟨i, hfd, hx⟩⟩ := sequencerStep_cases h
  · simp [hrun, hfd]
  obtain ⟨hi, -, ht, hc⟩ | ⟨hi, -, ht⟩ | ⟨hi, -, ht⟩ := exec_cpc_run hx
  · simp [hrun, hfd, hi, ht, hc]
  · simp [hrun, hfd, hi, ht]
  · simp [hrun, hfd, hi, ht]

/-- The two states agree on the parameters, the chunk registers and every control register but `CPC`: what a move that
is neither the sequencer's nor the host's start or reset keeps. -/
structure SameControl (s t : State) : Prop where
  cfg : t.cfg = s.cfg
  chunks : t.chunks = s.chunks
  run : t.run = s.run
  fcause : t.fcause = s.fcause
  finfo : t.finfo = s.finfo
  cap : t.cap = s.cap
  bind : t.bind = s.bind
  chunksz : t.chunksz = s.chunksz

/-- `SameControl` does not look at the list of pending events, which a step shortens. -/
theorem SameControl.of_pending {s t : State} {rest : List Event} (h : SameControl { s with pending := rest } t) :
    SameControl s t :=
  ⟨h.cfg, h.chunks, h.run, h.fcause, h.finfo, h.cap, h.bind, h.chunksz⟩

theorem hostStart_eq (s : State) :
    hostStart s = .next (s.setRun (if s.run = .idle ∨ s.run = .done then .running else s.run)) := by
  obtain ⟨_, _, _, _, _, run⟩ := s
  cases run <;> rfl

theorem writeDataByte_sameControl {a : Word} {b : Byte} {s t : State} (h : writeDataByte a b s = .next t) :
    SameControl s t := by
  unfold writeDataByte at h
  split at h <;> cases h
  exact ⟨rfl, rfl, rfl, rfl, rfl, rfl, rfl, rfl⟩

theorem hostAct_sameControl {a : HostAction} {s t : State} (hreset : a ≠ .reset) (hstart : a ≠ .start)
    (h : hostAct a s = .next t) : SameControl s t := by
  cases a with
  | reset => exact absurd rfl hreset
  | start => exact absurd rfl hstart
  | writeMem a b => exact writeDataByte_sameControl h
  | readCsr | writeCsr | readReg | writeReg | writeCmd | readMem =>
    simp only [hostAct, hostReadCsr, hostWriteCsr, hostReadReg, hostWriteReg, hostWriteCmd, hostReadMem] at h
    (repeat' split at h) <;> cases h <;> exact ⟨rfl, rfl, rfl, rfl, rfl, rfl, rfl, rfl⟩

/-- Everything a step of the machine can be: the sequencer's, the host's reset, the host's start, or a move that keeps
all control state. -/
theorem step_cases {s t : State} (h : step s = .next t) :
    (∃ p, SequencerTurn s p ∧ sequencerStep p = .next t) ∨
      (∃ rest, s.pending = .host .reset :: rest ∧ t = State.hostReset { s with pending := rest }) ∨
      (∃ rest, s.pending = .host .start :: rest ∧
        t = State.setRun { s with pending := rest } (if s.run = .idle ∨ s.run = .done then .running else s.run)) ∨
      ∃ e rest, s.pending = e :: rest ∧ e ≠ .sequencer ∧ e ≠ .host .reset ∧ e ≠ .host .start ∧ SameControl s t := by
  match hp : s.pending with
  | [] => exact .inl ⟨s, .inl ⟨hp, rfl⟩, step_of_pending_nil hp ▸ h⟩
  | e :: rest =>
    rw [step_of_pending_cons hp] at h
    match e with
    | .sequencer => exact .inl ⟨_, .inr ⟨rest, hp, rfl⟩, h⟩
    | .setStrap caps =>
      cases h
      exact .inr (.inr (.inr ⟨_, _, rfl, by simp, by simp, by simp, rfl, rfl, rfl, rfl, rfl, rfl, rfl, rfl⟩))
    | .agentWrite a b =>
      exact .inr (.inr (.inr ⟨_, _, rfl, by simp, by simp, by simp, (writeDataByte_sameControl h).of_pending⟩))
    | .host a =>
      by_cases hreset : a = .reset
      · subst hreset; cases h; exact .inr (.inl ⟨rest, rfl, rfl⟩)
      by_cases hstart : a = .start
      · subst hstart
        exact .inr (.inr (.inl ⟨rest, rfl, by simpa [eventAct, hostAct, hostStart_eq] using h.symm⟩))
      exact .inr (.inr (.inr ⟨_, _, rfl, by simp, by simp [hreset], by simp [hstart],
        (hostAct_sameControl hreset hstart h).of_pending⟩))

/-- The state a turn of the sequencer starts from differs in the list of pending events alone. -/
theorem SequencerTurn.eq_pending {s p : State} (h : SequencerTurn s p) : p = { s with pending := p.pending } := by
  obtain ⟨-, rfl⟩ | ⟨rest, -, rfl⟩ := h <;> rfl

theorem SequencerTurn.head? {s p : State} (h : SequencerTurn s p) :
    s.pending = [] ∨ s.pending.head? = some .sequencer := by
  obtain ⟨hp, -⟩ | ⟨rest, hp, -⟩ := h
  · exact .inl hp
  · exact .inr (by simp [hp])

theorem SequencerTurn.head?_ne_host {s p : State} (h : SequencerTurn s p) (a : HostAction) :
    s.pending.head? ≠ some (.host a) := by
  obtain hp | hp := h.head? <;> simp [hp]

/-! ## What a command reads and writes -/

/-- The two states agree on everything the command may read: the operand and chunk registers it names as sources, data
memory, the parameters, the chunk width and the count of free values. -/
structure SameInputs (i : Instr) (s s' : State) : Prop where
  cfg : s'.cfg = s.cfg
  chunksz : s'.chunksz = s.chunksz
  mem : s'.mem = s.mem
  draws : s'.draws = s.draws
  reg : ∀ r ∈ readsReg i, s'.reg r = s.reg r
  chunk : ∀ j ∈ readsChunk i, s'.chunk j = s.chunk j

theorem SameInputs.refl (i : Instr) (s : State) : SameInputs i s s :=
  ⟨rfl, rfl, rfl, rfl, fun _ _ => rfl, fun _ _ => rfl⟩

section
variable {i : Instr} {s s' : State} (h : SameInputs i s s')
include h

theorem SameInputs.num (r : Reg) (hr : r ∈ readsReg i) : s'.num r = s.num r := congrArg BitVec.toNat (h.reg r hr)

theorem SameInputs.W : s'.W = s.W := congrArg ChunkWidth.bytes h.chunksz

theorem SameInputs.EB : s'.EB = s.EB := by simp only [State.EB, h.cfg]

theorem SameInputs.validRange (a : Int) (n : Nat) : s'.validRange a n = s.validRange a n := by
  simp only [State.validRange, h.cfg]

theorem SameInputs.memRead (a n : Nat) : s'.memRead a n = s.memRead a n := by simp only [State.memRead, h.mem]

theorem SameInputs.anyBytes (n : Nat) : s'.anyBytes n = s.anyBytes n := by simp only [State.anyBytes, h.draws]

theorem SameInputs.slackBytes (dist : Nat) : s'.slackBytes dist = s.slackBytes dist := by
  simp only [State.slackBytes, h.W, h.anyBytes]

end

/-- One effect on two states: `x` is what the command does to `s` and `x'` what it does to `s'`, the same fault, or the
same write of what its row of the register tables lets it write (10 R21, R43). -/
inductive SameEffect (i : Instr) (s s' : State) : Result → Result → Prop
  | fault (c : Cause) (v : Word) : SameEffect i s s' (raise s c v) (raise s' c v)
  | stop (hr : writesReg i = [] := by rfl) (hc : writesChunk i = [] := by rfl) :
      SameEffect i s s' (.next (s.setRun .done)) (.next (s'.setRun .done))
  | skip (hr : writesReg i = [] := by rfl) (hc : writesChunk i = [] := by rfl) :
      SameEffect i s s' (complete s) (complete s')
  | reg (rd : Reg) (w : Word) (hr : writesReg i = [rd] := by rfl) (hc : writesChunk i = [] := by rfl) :
      SameEffect i s s' (complete (s.setReg rd w)) (complete (s'.setReg rd w))
  | chunk (cd : CReg) (b : Chunk) (hr : writesReg i = [] := by rfl) (hc : writesChunk i = [cd] := by rfl) :
      SameEffect i s s' (complete (s.setChunk cd b)) (complete (s'.setChunk cd b))
  | mem (n : Nat) (m : Memory) (hr : writesReg i = [] := by rfl) (hc : writesChunk i = [] := by rfl) :
      SameEffect i s s' (complete ((s.drawn n).setMem m)) (complete ((s'.drawn n).setMem m))

/-- A check that reads the same in both states decides the same way. -/
theorem SameEffect.ite {i : Instr} {s s' : State} {p : Prop} [Decidable p] {x x' y y' : Result}
    (hx : SameEffect i s s' x x') (hy : SameEffect i s s' y y') :
    SameEffect i s s' (if p then x else y) (if p then x' else y') := by
  split
  · exact hx
  · exact hy

/-- The four fills, whose row of the tables is `CLOAD`'s. -/
theorem fillChunk_sameEffect {i : Instr} {cd : CReg} {ra : Reg} {s s' : State} (k : FillUnit) (h : SameInputs i s s')
    (hra : readsReg i = [ra]) (hr : writesReg i = []) (hc : writesChunk i = [cd]) :
    SameEffect i s s' (fillChunk k cd ra s) (fillChunk k cd ra s') := by
  have ha : ra ∈ readsReg i := by simp [hra]
  simp only [fillChunk, h.cfg, h.num ra ha, h.reg ra ha, h.validRange, h.memRead, h.W]
  exact .ite (.ite (.chunk _ _ hr hc) (.fault ..)) (.fault ..)

/-- A command is a function of its inputs: on two states that agree on these it has the same effect. The checks of each
command, and then its write, are the same by `SameInputs`. -/
theorem exec_sameEffect {i : Instr} {s s' : State} (h : SameInputs i s s') :
    SameEffect i s s' (exec i s) (exec i s') := by
  have hreg := h.reg
  have hnum := h.num
  cases i with
  | endRun => exact .stop
  | seti rd imm => exact .reg ..
  | chunksz rd =>
    simp only [exec, execChunksz, h.W]
    exact .reg ..
  | cpsafe ra rb rc =>
    simp only [readsReg, List.forall_mem_cons] at hreg hnum
    simp only [exec, execCpsafe, hnum, hreg, h.validRange, h.mem]
    exact .ite .skip <| .ite (.fault ..) <| .ite (.fault ..) <| .ite (.fault ..) <| .mem 0 _
  | cpovl ra rb rc =>
    simp only [readsReg, List.forall_mem_cons] at hreg hnum
    simp only [exec, execCpovl, State.backSource, State.overlapEffect, hnum, hreg, h.validRange, h.mem, h.W,
      h.slackBytes]
    exact .ite (.fault ..) <| .ite .skip <| .ite (.fault ..) <| .ite (.fault ..) <| .mem ..
  | cpunr ra rb rc =>
    simp only [readsReg, List.forall_mem_cons] at hreg hnum
    simp only [exec, execCpunr, State.unrolledEffect, hnum, hreg, h.validRange, h.mem, h.W, h.anyBytes]
    exact .ite .skip <| .ite (.fault ..) <| .ite (.fault ..) <| .ite (.fault ..) <| .mem ..
  | cload cd ra =>
    simp only [readsReg, List.forall_mem_cons] at hreg hnum
    simp only [exec, execCload, hnum, hreg, h.validRange, h.memRead, h.W]
    exact .ite (.chunk ..) (.fault ..)
  | cstore ra cs =>
    have hcs : s'.chunk cs = s.chunk cs := h.chunk cs (List.mem_singleton_self cs)
    simp only [readsReg, List.forall_mem_cons] at hreg hnum
    simp only [exec, execCstore, State.memWrite, hnum, hreg, hcs, h.validRange, h.mem, h.W]
    exact .ite (.mem 0 _) (.fault ..)
  | cfill1 cd ra => exact fillChunk_sameEffect .k1 h rfl rfl rfl
  | cfill2 cd ra => exact fillChunk_sameEffect .k2 h rfl rfl rfl
  | cfill4 cd ra => exact fillChunk_sameEffect .k4 h rfl rfl rfl
  | cfill8 cd ra => exact fillChunk_sameEffect .k8 h rfl rfl rfl
  | cksum rd ra rb rc =>
    simp only [readsReg, List.forall_mem_cons] at hreg hnum
    simp only [exec, execCksum, State.sumState, hnum, hreg, h.validRange, h.memRead]
    exact .ite (.reg ..) (.fault ..)
  | slide ra rb rc rd re =>
    simp only [readsReg, List.forall_mem_cons] at hreg hnum
    simp only [exec, execSlide, hnum, hreg, h.validRange, h.mem, h.EB]
    exact .ite (.fault ..) <| .ite (.fault ..) <| .ite (.fault ..) <| .ite (.fault ..) <| .ite (.fault ..) <|
      .mem 0 _

/-- The contents of an operand register the command does not read are no input of it. -/
theorem sameInputs_setReg {i : Instr} {r : Reg} (hr : r ∉ readsReg i) (s : State) (v : Word) :
    SameInputs i s (s.setReg r v) :=
  ⟨rfl, rfl, rfl, rfl, fun _ hq => State.reg_setReg_ne s v fun e => hr (e ▸ hq), fun _ _ => rfl⟩

/-- The contents of a chunk register the command does not read are no input of it. -/
theorem sameInputs_setChunk {i : Instr} {j : CReg} (hj : j ∉ readsChunk i) (s : State) (v : Chunk) :
    SameInputs i s (s.setChunk j v) :=
  ⟨rfl, rfl, rfl, rfl, fun _ _ => rfl, fun _ hq => State.chunk_setChunk_ne s v fun e => hj (e ▸ hq)⟩

/-- Writing an operand register commutes with an effect that writes another one, or none. -/
theorem SameEffect.commutes_setReg {i : Instr} {s : State} {r : Reg} {v : Word} {x x' : Result}
    (hx : SameEffect i s (s.setReg r v) x x') (hr : r ∉ writesReg i) : x' = mapNext (fun t => t.setReg r v) x := by
  cases hx with
  | reg rd w hw =>
    have hne : r ≠ rd := by simpa [hw] using hr
    simp only [complete, mapNext, State.setReg_comm s v w hne]
    rfl
  | fault | stop | skip | chunk | mem => rfl

/-- Writing a chunk register commutes with an effect that writes another one, or none. -/
theorem SameEffect.commutes_setChunk {i : Instr} {s : State} {j : CReg} {v : Chunk} {x x' : Result}
    (hx : SameEffect i s (s.setChunk j v) x x') (hj : j ∉ writesChunk i) :
    x' = mapNext (fun t => t.setChunk j v) x := by
  cases hx with
  | chunk cd b _ hw =>
    have hne : j ≠ cd := by simpa [hw] using hj
    simp only [complete, mapNext, State.setChunk_comm s v b hne]
    rfl
  | fault | stop | skip | reg | mem => rfl

/-- A completed write of an operand register covers what was in it. -/
theorem SameEffect.covers_setReg {i : Instr} {s t u : State} {r : Reg} {v : Word}
    (hx : SameEffect i s (s.setReg r v) (.next t) (.next u)) (hr : r ∈ writesReg i) (ht : t.run = .running) :
    u = t := by
  generalize hxt : (Host.Outcome.next t : Result) = x at hx
  generalize hxu : (Host.Outcome.next u : Result) = x' at hx
  cases hx with
  | fault c w => cases hxt; cases ht
  | reg rd w hw =>
    obtain rfl : r = rd := by simpa [hw] using hr
    cases hxt; cases hxu
    rw [State.setReg_setReg]
  | stop hw | skip hw | chunk _ _ hw | mem _ _ hw => simp [hw] at hr

/-- A completed write of a chunk register covers what was in it. -/
theorem SameEffect.covers_setChunk {i : Instr} {s t u : State} {j : CReg} {v : Chunk}
    (hx : SameEffect i s (s.setChunk j v) (.next t) (.next u)) (hj : j ∈ writesChunk i) (ht : t.run = .running) :
    u = t := by
  generalize hxt : (Host.Outcome.next t : Result) = x at hx
  generalize hxu : (Host.Outcome.next u : Result) = x' at hx
  cases hx with
  | fault c w => cases hxt; cases ht
  | chunk cd b _ hw =>
    obtain rfl : j = cd := by simpa [hw] using hj
    cases hxt; cases hxu
    rw [State.setChunk_setChunk]
  | stop _ hw | skip _ hw | reg _ _ _ hw | mem _ _ _ hw => simp [hw] at hj

/-- A command changes no operand register it does not write. -/
theorem exec_reg_of_not_mem_writesReg {i : Instr} {s t : State} {r : Reg} (hr : r ∉ writesReg i)
    (h : exec i s = .next t) : t.reg r = s.reg r := by
  have hx := exec_sameEffect (.refl i s)
  generalize exec i s = x at h hx
  cases hx with
  | reg rd w hw => cases h; exact State.reg_setReg_ne s w (by simpa [hw] using hr)
  | fault | stop | skip | chunk | mem => cases h; rfl

/-- A command changes no chunk register it does not write. -/
theorem exec_chunk_of_not_mem_writesChunk {i : Instr} {s t : State} {j : CReg} (hj : j ∉ writesChunk i)
    (h : exec i s = .next t) : t.chunk j = s.chunk j := by
  have hx := exec_sameEffect (.refl i s)
  generalize exec i s = x at h hx
  cases hx with
  | chunk cd b _ hw => cases h; exact State.chunk_setChunk_ne s b (by simpa [hw] using hj)
  | fault | stop | skip | reg | mem => cases h; rfl

/-- No host action but reset sees or changes a chunk register (10 R43). -/
theorem hostAct_setChunk {a : HostAction} (ha : a ≠ .reset) (s : State) (j : CReg) (v : Chunk) :
    hostAct a (s.setChunk j v) = mapNext (fun t => t.setChunk j v) (hostAct a s) := by
  cases a with
  | reset => exact absurd rfl ha
  | readCsr n => rfl
  | start => simp only [hostAct, hostStart_eq]; rfl
  | writeCsr | readReg | writeReg | writeCmd | readMem | writeMem =>
    simp only [hostAct, hostWriteCsr, hostReadReg, hostWriteReg, hostWriteCmd, hostReadMem, writeDataByte,
      apply_ite (mapNext _)]
    rfl

/-! ## The statements of 10_state -/

/-- Settles O42: the four kinds of step; only the reset action writes the fixed registers, all from the strap. -/
theorem capabilityRegistersFrozen : Obligations.CapabilityRegistersFrozen := by
  intro s t h
  obtain ⟨p, hturn, hseq⟩ | ⟨rest, hp, rfl⟩ | ⟨rest, hp, rfl⟩ | ⟨e, rest, hp, -, hreset, -, hkeep⟩ := step_cases h
  · obtain ⟨hcfg, -, hcap, hbind, hsz, -⟩ := sequencerStep_sameSystem hseq
    rw [hturn.eq_pending] at hcfg hcap hbind hsz
    exact ⟨hcfg, fun _ => ⟨hcap, hbind, hsz⟩, fun hr => absurd hr (hturn.head?_ne_host _)⟩
  · exact ⟨rfl, fun hr => absurd (by rw [hp]; rfl) hr, fun _ => ⟨rfl, rfl, rfl⟩⟩
  · exact ⟨rfl, fun _ => ⟨rfl, rfl, rfl⟩, fun hr => by simp [hp] at hr⟩
  · exact ⟨hkeep.cfg, fun _ => ⟨hkeep.cap, hkeep.bind, hkeep.chunksz⟩, fun hr => by simp [hp, hreset] at hr⟩

/-- Settles O44: the four kinds of step; the sequencer's own transitions are `sequencerStep_run`. -/
theorem runStateTransitions : Obligations.RunStateTransitions := by
  refine ⟨⟨rfl, rfl, rfl, rfl⟩, fun s t h => ?_⟩
  obtain ⟨p, hturn, hseq⟩ | ⟨rest, hp, rfl⟩ | ⟨rest, hp, rfl⟩ | ⟨e, rest, hp, hns, hreset, hstart, hkeep⟩ :=
    step_cases h
  · have hrun := sequencerStep_run hseq
    rw [hturn.eq_pending] at hrun
    refine ⟨fun hr => absurd hr (hturn.head?_ne_host _), fun hr => absurd hr (hturn.head?_ne_host _), fun _ => hrun,
      fun hne hns => ?_⟩
    exact absurd hturn.head? (by simp [hne, hns])
  · simp [hp]
  · simp [hp]
  · simp [hp, hns, hreset, hstart, hkeep.run]

/-- Settles O40, from the three ways a command can end. -/
theorem commandPointerRule : Obligations.CommandPointerRule := by
  intro i s t hs h
  obtain ⟨hi, hcpc, hrun, -⟩ | ⟨hi, hcpc, -⟩ | ⟨hi, hcpc, hrun⟩ := exec_cpc_run h
  · rw [hcpc, if_pos (.inr hrun)]
  · rw [hcpc, if_pos (.inl hi)]
  · rw [hcpc, if_neg (by simp [hi, hrun, hs])]

/-- Settles O38: a register the command does not read is no input of it (`exec_sameEffect`). -/
theorem operandRegisterUse : Obligations.OperandRegisterUse := by
  refine fun i s r v => ⟨fun hread hwrite => ?_, fun t u hread hwrite _ ht hrun hu => ?_,
    fun t => exec_reg_of_not_mem_writesReg⟩
  · exact (exec_sameEffect (sameInputs_setReg hread s v)).commutes_setReg hwrite
  · have hx := exec_sameEffect (sameInputs_setReg hread s v)
    rw [ht, hu] at hx
    exact hx.covers_setReg hwrite hrun

/-- Settles O39: a chunk register the command does not read is no input of it (`exec_sameEffect`), nor of a host action
(`hostAct_setChunk`). -/
theorem chunkRegisterUse : Obligations.ChunkRegisterUse := by
  refine fun s j v => ⟨fun i hread hwrite => ?_, fun i t u hread hwrite _ ht hrun hu => ?_,
    fun i t => exec_chunk_of_not_mem_writesChunk, fun a ha => hostAct_setChunk ha s j v⟩
  · exact (exec_sameEffect (sameInputs_setChunk hread s v)).commutes_setChunk hwrite
  · have hx := exec_sameEffect (sameInputs_setChunk hread s v)
    rw [ht, hu] at hx
    exact hx.covers_setChunk hwrite hrun

end Sys2Proof.Machine

namespace Sys2Proof.Machine

/-! ## Zero lengths and admitted commands

What a memory command does when its length is 0, and what `SLIDE` does once its checks hold (spec 20 R86, 44 R201). -/

theorem exec_cpsafe_of_len_zero {s : State} {ra rb rc : Reg} (h : s.num rc = 0) :
    exec (.cpsafe ra rb rc) s = .next s.advance :=
  if_pos h

theorem exec_cpunr_of_len_zero {s : State} {ra rb rc : Reg} (h : s.num rc = 0) :
    exec (.cpunr ra rb rc) s = .next s.advance :=
  if_pos h

theorem exec_cpovl_of_len_zero {s : State} {ra rb rc : Reg} (hdist : s.num rb ≠ 0) (hlen : s.num rc = 0) :
    exec (.cpovl ra rb rc) s = .next s.advance :=
  (if_neg hdist).trans (if_pos hlen)

theorem exec_cksum_of_rangeValid {s : State} {rd ra rb rc : Reg} (h : RangeValid s (s.num rb) (s.num rc)) :
    exec (.cksum rd ra rb rc) s =
      .next (s.setReg rd ((checksum (s.sumState ra) (s.memRead (s.num rb) (s.num rc))).setWidth 64)).advance :=
  if_pos ((s.validRange_iff_rangeValid _ _).mpr h)

theorem rangeValid_of_size_zero {s : State} {a n : Nat} (h : n = 0) : RangeValid s a n := .inl h

theorem tableAligned_iff (eb base count : Nat) : tableAligned eb base count = true ↔ count = 0 ∨ base % eb = 0 := by
  simp only [tableAligned, Bool.or_eq_true, decide_eq_true_eq]

/-- A `SLIDE` all of whose checks hold completes with both tables slid (44 R201). -/
theorem exec_slide_of_admitted {s : State} {ra rb rc rd re : Reg}
    (hHead : s.num rb = 0 ∨ s.num ra % s.EB = 0) (hPrev : s.num rd = 0 ∨ s.num rc % s.EB = 0)
    (hHeadValid : RangeValid s (s.num ra) (s.EB * s.num rb)) (hPrevValid : RangeValid s (s.num rc) (s.EB * s.num rd))
    (hApart : RangesDisjoint (s.num ra) (s.EB * s.num rb) (s.num rc) (s.EB * s.num rd)) :
    exec (.slide ra rb rc rd re) s = .next (s.setMem (slideTable
      (slideTable s.mem s.EB (s.num ra) (s.num rb) (s.num re)) s.EB (s.num rc) (s.num rd) (s.num re))).advance := by
  rw [← tableAligned_iff] at hHead hPrev
  rw [← State.validRange_iff_rangeValid] at hHeadValid hPrevValid
  rw [← disjoint_iff_rangesDisjoint] at hApart
  simp [exec, execSlide, complete, hHead, hPrev, hHeadValid, hPrevValid, hApart]

@[simp] theorem slideTable_zero (m : Memory) (eb base w : Nat) : slideTable m eb base 0 w = m := rfl

@[simp] theorem State.setMem_self (s : State) : s.setMem s.mem = s := rfl

/-- A command whose only effect is on data memory completes with the status as it was. -/
theorem advanced_setMem (s : State) (m : Memory) : Advanced s (s.setMem m).advance := ⟨rfl, rfl, rfl, rfl⟩

/-- Sliding one table changes no byte outside it. -/
theorem sameMemOutside_slideTable (s : State) (base count w : Nat) :
    SameMemOutside base (s.EB * count) s (s.setMem (slideTable s.mem s.EB base count w)).advance :=
  (slideTable_spec s.mem s.EB base count w).2

section
variable {s : State} {ra rb rc rd re : Reg}

/-- With an empty `head`, `SLIDE` checks and slides `prev` alone. -/
theorem exec_slide_of_head_empty (hHead : s.num rb = 0) (hPrev : s.num rd = 0 ∨ s.num rc % s.EB = 0)
    (hPrevValid : RangeValid s (s.num rc) (s.EB * s.num rd)) :
    exec (.slide ra rb rc rd re) s =
      .next (s.setMem (slideTable s.mem s.EB (s.num rc) (s.num rd) (s.num re))).advance := by
  have hsize : s.EB * s.num rb = 0 := by rw [hHead, Nat.mul_zero]
  rw [exec_slide_of_admitted (.inl hHead) hPrev (rangeValid_of_size_zero hsize) hPrevValid (.inl hsize), hHead,
    slideTable_zero]

/-- With an empty `prev`, `SLIDE` checks and slides `head` alone. -/
theorem exec_slide_of_prev_empty (hPrev : s.num rd = 0) (hHead : s.num rb = 0 ∨ s.num ra % s.EB = 0)
    (hHeadValid : RangeValid s (s.num ra) (s.EB * s.num rb)) :
    exec (.slide ra rb rc rd re) s =
      .next (s.setMem (slideTable s.mem s.EB (s.num ra) (s.num rb) (s.num re))).advance := by
  have hsize : s.EB * s.num rd = 0 := by rw [hPrev, Nat.mul_zero]
  rw [exec_slide_of_admitted hHead (.inl hPrev) hHeadValid (rangeValid_of_size_zero hsize) (.inr (.inl hsize)), hPrev,
    slideTable_zero]

/-- With both tables empty, `SLIDE` only advances, whatever its addresses. -/
theorem exec_slide_of_both_empty (hHead : s.num rb = 0) (hPrev : s.num rd = 0) :
    exec (.slide ra rb rc rd re) s = .next s.advance := by
  have hsize : s.EB * s.num rd = 0 := by rw [hPrev, Nat.mul_zero]
  rw [exec_slide_of_head_empty hHead (.inl hPrev) (rangeValid_of_size_zero hsize), hPrev, slideTable_zero,
    State.setMem_self]

end

/-! ## The statement of 20_memory -/

/-- Settles O31: the copies and `CKSUM` by their lemmas for length 0, `SLIDE` by those for an empty `head`, `prev` or
both. -/
theorem zeroLengthTouchesNothing : Obligations.ZeroLengthTouchesNothing := by
  refine fun s ra rb rc rd re => ⟨fun hlen => ⟨exec_cpsafe_of_len_zero hlen, exec_cpunr_of_len_zero hlen,
    fun hdist => exec_cpovl_of_len_zero hdist hlen, _, exec_cksum_of_rangeValid (rangeValid_of_size_zero hlen)⟩,
    exec_slide_of_both_empty, fun hHead hPrev => ?_, fun hPrev hHead => ?_⟩
  · obtain ⟨haligned, hvalid⟩ := hPrev
    exact ⟨_, exec_slide_of_head_empty hHead (.inr haligned) hvalid, advanced_setMem s _,
      sameMemOutside_slideTable s _ _ _⟩
  · obtain ⟨haligned, hvalid⟩ := hHead
    exact ⟨_, exec_slide_of_prev_empty hPrev (.inr haligned) hvalid, advanced_setMem s _,
      sameMemOutside_slideTable s _ _ _⟩

end Sys2Proof.Machine

namespace Sys2Proof

/-! ## The opcode map -/

/-- Column `match` of 30 R96 is the opcode with every other bit 0. -/
theorem Op.pattern_eq_setWidth_code (o : Op) : o.pattern = o.code.setWidth 32 := by cases o <;> rfl

/-- Above the opcode a row fixes bits at 0 only (30 R96). -/
theorem Op.pattern_getLsbD_of_ge (o : Op) {k : Nat} (hk : 8 ≤ k) : o.pattern.getLsbD k = false := by
  rw [Op.pattern_eq_setWidth_code, BitVec.getLsbD_setWidth, BitVec.getLsbD_of_ge _ _ hk, Bool.and_false]

/-- Every mask holds the whole opcode byte (30 R96). -/
theorem Op.opcode_mask (o : Op) : o.mask.extractLsb' 0 8 = BitVec.allOnes 8 := by cases o <;> rfl

theorem Op.opcode_pattern (o : Op) : o.pattern.extractLsb' 0 8 = o.code := by cases o <;> rfl

@[simp] theorem Op.ofCode_code (o : Op) : Op.ofCode o.code = some o := by cases o <;> rfl

theorem Op.ofCode_eq_some_iff {c : BitVec 8} {o : Op} : Op.ofCode c = some o ↔ c = o.code := by
  refine ⟨fun h => ?_, fun h => h ▸ Op.ofCode_code o⟩
  have hcode := List.find?_some (p := fun o : Op => o.code == c) h
  exact (eq_of_beq hcode).symm

theorem Op.code_injective {o o' : Op} (h : o.code = o'.code) : o = o' :=
  Option.some.inj (by rw [← Op.ofCode_code o, h, Op.ofCode_code])

/-- A word with a row's pattern under the row's mask has the row's opcode. -/
theorem opcode_of_pattern {w : CmdWord} {o : Op} (h : w &&& o.mask = o.pattern) : w.extractLsb' 0 8 = o.code :=
  calc w.extractLsb' 0 8 = w.extractLsb' 0 8 &&& o.mask.extractLsb' 0 8 := by rw [o.opcode_mask, BitVec.and_allOnes]
    _ = (w &&& o.mask).extractLsb' 0 8 := BitVec.extractLsb'_and.symm
    _ = o.code := by rw [h, o.opcode_pattern]

/-- The fourteen patterns are disjoint (30 R96): the opcodes already differ. -/
theorem pattern_unique {w : CmdWord} {o o' : Op} (h : w &&& o.mask = o.pattern) (h' : w &&& o'.mask = o'.pattern) :
    o = o' :=
  Op.code_injective ((opcode_of_pattern h).symm.trans (opcode_of_pattern h'))

/-- A set bit above the opcode that a row's mask holds keeps a word out of that row (30 R98). -/
theorem not_pattern_of_unused_bit {w : CmdWord} {o : Op} {k : Nat} (hk : 8 ≤ k) (hmask : o.mask.getLsbD k = true)
    (hbit : w.getLsbD k = true) : w &&& o.mask ≠ o.pattern := fun h => by
  have hset : (w &&& o.mask).getLsbD k = true := by rw [BitVec.getLsbD_and, hbit, hmask, Bool.and_self]
  rw [h, o.pattern_getLsbD_of_ge hk] at hset
  cases hset

/-! ## What `decode` answers -/

@[simp] theorem Op.op_build (w : CmdWord) (o : Op) : (o.build w).op = o := by cases o <;> rfl

/-- A word with an assigned opcode is the row's command or has a non-zero must-be-zero bit (30 R97). -/
theorem decode_of_opcode {w : CmdWord} {o : Op} (h : w.extractLsb' 0 8 = o.code) :
    decode w = if w &&& o.mask = o.pattern then .ok (o.build w) else .error .mustBeZeroBit := by
  simp only [decode, h, Op.ofCode_code]

theorem decode_of_unassigned {w : CmdWord} (h : ∀ o : Op, w.extractLsb' 0 8 ≠ o.code) :
    decode w = .error .unassignedOpcode := by
  have hnone : Op.ofCode (w.extractLsb' 0 8) = none :=
    Option.eq_none_iff_forall_ne_some.mpr fun o ho => h o (Op.ofCode_eq_some_iff.mp ho)
  simp only [decode, hnone]

theorem decode_of_pattern {w : CmdWord} {o : Op} (h : w &&& o.mask = o.pattern) : decode w = .ok (o.build w) := by
  rw [decode_of_opcode (opcode_of_pattern h), if_pos h]

/-- A word that matches no row is illegal, whether its opcode is assigned or not (30 R96). -/
theorem decode_error_of_no_pattern {w : CmdWord} (h : ∀ o : Op, w &&& o.mask ≠ o.pattern) :
    ∃ e, decode w = .error e := by
  by_cases hcode : ∃ o : Op, w.extractLsb' 0 8 = o.code
  · obtain ⟨o, ho⟩ := hcode
    exact ⟨_, by rw [decode_of_opcode ho, if_neg (h o)]⟩
  · exact ⟨_, decode_of_unassigned (not_exists.mp hcode)⟩

/-- A word is a command exactly when it has some row's pattern, and then it is that row's command (30 R96). -/
theorem decode_eq_ok_iff {w : CmdWord} {i : Instr} :
    decode w = .ok i ↔ ∃ o : Op, w &&& o.mask = o.pattern ∧ o.build w = i := by
  constructor
  · intro h
    by_cases hpat : ∃ o : Op, w &&& o.mask = o.pattern
    · obtain ⟨o, ho⟩ := hpat
      exact ⟨o, ho, Except.ok.inj ((decode_of_pattern ho).symm.trans h)⟩
    · obtain ⟨e, he⟩ := decode_error_of_no_pattern (not_exists.mp hpat)
      cases he.symm.trans h
  · rintro ⟨o, ho, rfl⟩
    exact decode_of_pattern ho

theorem decode_op_iff {w : CmdWord} {o : Op} :
    (∃ i, decode w = .ok i ∧ i.op = o) ↔ w &&& o.mask = o.pattern := by
  constructor
  · rintro ⟨i, hi, rfl⟩
    obtain ⟨o, ho, rfl⟩ := decode_eq_ok_iff.mp hi
    rwa [Op.op_build]
  · exact fun h => ⟨o.build w, decode_of_pattern h, o.op_build w⟩

/-! ## Decoding what the encoder writes -/

/-- The encoding of every command has its row's fixed bits (30 R96): the lemmas of the commands, put together. -/
theorem encode_and_mask : ∀ i : Instr, encode i &&& i.op.mask = i.op.pattern
  | .endRun => Laws.EncodingPattern.endRun
  | .seti rd imm => Laws.EncodingPattern.seti rd imm
  | .chunksz rd => Laws.EncodingPattern.chunksz rd
  | .cpsafe ra rb rc => Laws.EncodingPattern.cpsafe ra rb rc
  | .cpovl ra rb rc => Laws.EncodingPattern.cpovl ra rb rc
  | .cpunr ra rb rc => Laws.EncodingPattern.cpunr ra rb rc
  | .cload cd ra => Laws.EncodingPattern.cload cd ra
  | .cstore ra cs => Laws.EncodingPattern.cstore ra cs
  | .cfill1 cd ra => Laws.EncodingPattern.cfill1 cd ra
  | .cfill2 cd ra => Laws.EncodingPattern.cfill2 cd ra
  | .cfill4 cd ra => Laws.EncodingPattern.cfill4 cd ra
  | .cfill8 cd ra => Laws.EncodingPattern.cfill8 cd ra
  | .cksum rd ra rb rc => Laws.EncodingPattern.cksum rd ra rb rc
  | .slide ra rb rc rd re => Laws.EncodingPattern.slide ra rb rc rd re

/-- The two fields of an encoded `SETI` (30 R95). -/
theorem fields_encode_seti (rd : Reg) (imm : Nat) :
    (encode (.seti rd imm)).extractLsb' 8 4 = regBits rd ∧
      (encode (.seti rd imm)).extractLsb' 12 20 = BitVec.ofNat 20 imm := by
  refine ⟨?_, ?_⟩ <;>
    (apply BitVec.eq_of_getLsbD_eq; intro k hk;
     simp only [encode, BitVec.getLsbD_extractLsb', BitVec.getLsbD_or, BitVec.getLsbD_shiftLeft,
       BitVec.getLsbD_setWidth];
     interval_cases k <;> simp)

/-- The fields of a row, read from the encoding of a well-formed command of that row, are the command's operands. -/
theorem build_encode {i : Instr} (h : i.WellFormed) : i.op.build (encode i) = i := by
  cases i with
  | endRun => rfl
  | seti rd imm =>
    have hlt : imm < 2 ^ 20 := Nat.lt_succ_of_le (of_decide_eq_true h)
    simp only [Instr.op, Op.build, regField, immField, fields_encode_seti, regBits_toFin, BitVec.toNat_ofNat,
      Nat.mod_eq_of_lt hlt]
  | chunksz | cpsafe | cpovl | cpunr | cksum | slide =>
    simp only [Instr.op, Op.build, encode, regField, fields_packWord, regBits_toFin]
  | cload | cstore | cfill1 | cfill2 | cfill4 | cfill8 =>
    simp only [Instr.op, Op.build, encode, regField, cregField, fields_packWord, cregField_packWord, regBits_toFin,
      cregBits_toFin]

theorem decode_encode {i : Instr} (h : i.WellFormed) : decode (encode i) = .ok i := by
  rw [decode_of_pattern (encode_and_mask i), build_encode h]

/-! ## Words written out field by field -/

/-- A packed word is its fields side by side, the opcode lowest and bits 31:28 zero (30 R91). With 0 for its upper
fields this is also the word of a shorter format, whose one zero block `0#8`, `0#12` and so on is by evaluation the same. -/
theorem append_eq_packWord (op : BitVec 8) (f0 f1 f2 f3 f4 : BitVec 4) :
    0#4 ++ f4 ++ f3 ++ f2 ++ f1 ++ f0 ++ op = packWord op f0 f1 f2 f3 f4 := by
  apply BitVec.eq_of_getLsbD_eq
  intro k hk
  rw [Laws.EncodingPattern.packWord_getLsbD]
  simp only [BitVec.getLsbD_append]
  interval_cases k <;> simp

theorem append_eq_encode_seti (rd : Reg) (imm : BitVec 20) :
    imm ++ regBits rd ++ 0x02#8 = encode (.seti rd imm.toNat) := by
  apply BitVec.eq_of_getLsbD_eq
  intro k hk
  simp only [encode, BitVec.ofNat_toNat, BitVec.setWidth_eq, BitVec.getLsbD_append, BitVec.getLsbD_or,
    BitVec.getLsbD_shiftLeft, BitVec.getLsbD_setWidth]
  interval_cases k <;> simp

/-- A word written out as an encoding decodes to the command encoded. -/
theorem decode_of_eq_encode {w : CmdWord} {i : Instr} (hw : w = encode i) (h : i.WellFormed) : decode w = .ok i :=
  hw ▸ decode_encode h

/-! ## The statements of 30_encoding -/

/-- Settles O3: the rows by evaluation, the patterns by `decode_op_iff` and the opcodes they hold, the fields by the
encoder's round trip, since each word written out is an encoding. -/
theorem matchAndMaskDecide : Obligations.MatchAndMaskDecide := by
  refine ⟨rfl, fun w o => decode_op_iff, fun w o o' => pattern_unique, fun w => decode_error_of_no_pattern, rfl,
    fun rd imm => ?seti, fun rd => ?chunksz, ?copies, ?chunks, fun ra cs => ?cstore, fun rd ra rb rc => ?cksum,
    fun ra rb rc rd re => ?slide⟩
  case seti => exact decode_of_eq_encode (append_eq_encode_seti rd imm) (decide_eq_true (Nat.le_of_lt_succ imm.isLt))
  case chunksz => exact decode_of_eq_encode (append_eq_packWord _ (regBits rd) 0 0 0 0) rfl
  case copies =>
    rintro ra rb rc _ rfl
    have hword (op : BitVec 8) := append_eq_packWord op (regBits ra) (regBits rb) (regBits rc) 0 0
    exact ⟨decode_of_eq_encode (hword _) rfl, decode_of_eq_encode (hword _) rfl, decode_of_eq_encode (hword _) rfl⟩
  case chunks =>
    rintro cd ra _ rfl
    have hword (op : BitVec 8) := append_eq_packWord op (cregBits cd) (regBits ra) 0 0 0
    exact ⟨decode_of_eq_encode (hword _) rfl, decode_of_eq_encode (hword _) rfl, decode_of_eq_encode (hword _) rfl,
      decode_of_eq_encode (hword _) rfl, decode_of_eq_encode (hword _) rfl⟩
  case cstore => exact decode_of_eq_encode (append_eq_packWord _ (regBits ra) (cregBits cs) 0 0 0) rfl
  case cksum =>
    exact decode_of_eq_encode (append_eq_packWord _ (regBits rd) (regBits ra) (regBits rb) (regBits rc) 0) rfl
  case slide => exact decode_of_eq_encode (append_eq_packWord ..) rfl

/-- Settles O5: a word of one of the two kinds matches no row, the first because only the row of its opcode could match,
the second because a row that matched would have its opcode. -/
theorem unusedBitsAndOpcodesIllegal : Obligations.UnusedBitsAndOpcodesIllegal := by
  refine ⟨fun w o k hcode hk hmask hbit => ?_, fun w h => ?_, ⟨_, rfl⟩, ⟨_, rfl⟩⟩
  · refine decode_error_of_no_pattern fun o' ho' => ?_
    obtain rfl : o' = o := Op.code_injective ((opcode_of_pattern ho').symm.trans hcode)
    exact not_pattern_of_unused_bit hk hmask hbit ho'
  · exact decode_error_of_no_pattern fun o ho => h o (opcode_of_pattern ho)

end Sys2Proof

namespace Sys2Proof.Machine

/-! ## Running the command at `cpc`, and starting -/

/-- A RUNNING sequencer whose fetch gives a command runs it. -/
theorem sequencerStep_of_fetchDecode {s : State} {i : Instr} (hrun : s.run = .running) (hfd : s.fetchDecode = .ok i) :
    sequencerStep s = exec i s := by
  rw [sequencerStep_of_running hrun, hfd]

/-- A pending start is used up, and a run that is not going on and has not faulted begins (50 R244). -/
theorem step_of_pending_start {s : State} {rest : List Event} (h : s.pending = .host .start :: rest) :
    step s = .next (State.setRun { s with pending := rest } (if s.run = .idle ∨ s.run = .done then .running else s.run)) :=
  (step_of_pending_cons h).trans (hostStart_eq _)

/-- What is fetched and decoded depends on neither the run state nor the list of pending events. -/
theorem State.fetchDecode_setRun_pending (s : State) (r : RunState) (es : List Event) :
    (State.setRun { s with pending := es } r).fetchDecode = s.fetchDecode := rfl

/-! ## `SETI` -/

/-- The immediate of a well-formed `SETI` is its value: 20 bits hold it, and extension by zeros keeps it. -/
theorem immValue_toNat {imm : Nat} (h : imm ≤ 0xFFFFF) : (immValue imm).toNat = imm := by
  have hfit : imm < 2 ^ 20 := by omega
  rw [immValue, BitVec.toNat_setWidth_of_le (by decide), BitVec.toNat_ofNat, Nat.mod_eq_of_lt hfit]

theorem exec_seti (s : State) (rd : Reg) (imm : Nat) :
    exec (.seti rd imm) s = .next (s.setReg rd (immValue imm)).advance := rfl

/-! ## The statements of 40_sequencing -/

/-- Settles O14: `END` keeps `cpc`, and the start that follows only sets the run state, so the fetch after it gives the
same `END`. -/
theorem endStopsRun : Obligations.EndStopsRun := by
  refine ⟨rfl, fun s => ⟨_, exec_endRun s, rfl, rfl, rfl, fun _ hfd => ?_⟩⟩
  have hagain := (s.fetchDecode_setRun_pending .running []).trans hfd
  exact ⟨_, step_of_pending_start rfl, rfl, _,
    (step_of_pending_nil rfl).trans ((sequencerStep_of_fetchDecode rfl hagain).trans (exec_endRun _)), rfl, rfl⟩

/-- Settles O15: one write of `rd` and the advance; the frame is read off these two. -/
theorem setiLoadsConstant : Obligations.SetiLoadsConstant := by
  refine ⟨rfl, fun s rd imm himm => ?_⟩
  have hexec := exec_seti s rd imm
  refine ⟨_, hexec, ?value, fun r hr => ?others, ⟨rfl, rfl, rfl, rfl⟩, fun _ => rfl, fun _ => rfl,
    exec_sameSystem hexec, rfl⟩
  case value => rw [State.reg_advance, State.reg_setReg_same, immValue_toNat himm]
  case others => rw [State.reg_advance, State.reg_setReg_ne s _ hr]

end Sys2Proof.Machine

namespace Sys2Proof.Machine

/-! ## The chunk backend's commands, one equation per outcome (spec 41 R131 to R137) -/

section
variable {s : State} {c : CReg} {ra : Reg}

theorem exec_cload_of_rangeValid (h : RangeValid s (s.num ra) s.W) :
    exec (.cload c ra) s = .next (s.setChunk c (s.memRead (s.num ra) s.W)).advance :=
  if_pos ((s.validRange_iff_rangeValid _ _).mpr h)

theorem exec_cload_of_not_rangeValid (h : ¬RangeValid s (s.num ra) s.W) :
    exec (.cload c ra) s = .next (s.takeFault .memFault (s.reg ra)) :=
  if_neg (mt (s.validRange_iff_rangeValid _ _).mp h)

theorem exec_cstore_of_rangeValid (h : RangeValid s (s.num ra) s.W) :
    exec (.cstore ra c) s = .next (s.memWrite (s.num ra) (s.chunk c)).advance :=
  if_pos ((s.validRange_iff_rangeValid _ _).mpr h)

theorem exec_cstore_of_not_rangeValid (h : ¬RangeValid s (s.num ra) s.W) :
    exec (.cstore ra c) s = .next (s.takeFault .memFault (s.reg ra)) :=
  if_neg (mt (s.validRange_iff_rangeValid _ _).mp h)

theorem fillChunk_of_not_supported {k : FillUnit} (hk : s.cfg.fillSupported.has k = false) :
    fillChunk k c ra s = .next (s.takeFault .unsupportedFill (BitVec.ofNat 64 k.bytes)) :=
  if_neg (Bool.eq_false_iff.mp hk)

theorem fillChunk_of_rangeValid {k : FillUnit} (hk : s.cfg.fillSupported.has k = true)
    (h : RangeValid s (s.num ra) k.bytes) :
    fillChunk k c ra s = .next (s.setChunk c (fill (s.memRead (s.num ra) k.bytes) s.W)).advance :=
  (if_pos hk).trans (if_pos ((s.validRange_iff_rangeValid _ _).mpr h))

theorem fillChunk_of_not_rangeValid {k : FillUnit} (hk : s.cfg.fillSupported.has k = true)
    (h : ¬RangeValid s (s.num ra) k.bytes) :
    fillChunk k c ra s = .next (s.takeFault .memFault (s.reg ra)) :=
  (if_pos hk).trans (if_neg (mt (s.validRange_iff_rangeValid _ _).mp h))

end

/-- A row of a table over the four fills is one unit's: its command is `fillChunk` of that unit, and its other columns
are the unit's. -/
theorem exists_unit_of_fill_row {α : Type} (column : FillUnit → α) {i : Instr} {x : α} {c : CReg} {ra : Reg}
    (h : (i, x) = (.cfill1 c ra, column .k1) ∨ (i, x) = (.cfill2 c ra, column .k2) ∨
      (i, x) = (.cfill4 c ra, column .k4) ∨ (i, x) = (.cfill8 c ra, column .k8)) :
    ∃ k : FillUnit, exec i = fillChunk k c ra ∧ x = column k := by
  obtain h | h | h | h := h <;> cases h
  · exact ⟨.k1, rfl, rfl⟩
  · exact ⟨.k2, rfl, rfl⟩
  · exact ⟨.k4, rfl, rfl⟩
  · exact ⟨.k8, rfl, rfl⟩

/-! ## What a chunk register holds after a load or a fill -/

theorem FillUnit.bytes_pos (k : FillUnit) : 0 < k.bytes := by cases k <;> decide

/-- A unit size read back from the fault's information word, which is 64 bits wide. -/
theorem FillUnit.toNat_ofNat_bytes (k : FillUnit) : (BitVec.ofNat 64 k.bytes).toNat = k.bytes := by cases k <;> rfl

theorem Memory.read_getElem? (m : Memory) (a : Nat) {n j : Nat} (h : j < n) :
    (Memory.read m a n)[j]? = some (Memory.readByte m (a + j)) := by
  rw [List.getElem?_eq_getElem (by simpa using h), Memory.read_getElem]

/-- Byte `j` of a fill is byte `j mod k` of the unit in memory (41 R137). -/
theorem fill_read_getElem? (m : Memory) (a : Nat) {k W j : Nat} (hk : 0 < k) (hj : j < W) :
    (fill (Memory.read m a k) W)[j]? = some (Memory.readByte m (a + j % k)) := by
  rw [List.getElem?_eq_getElem (by simpa using hj), fill_getElem, Memory.read_length, List.getD_eq_getElem?_getD,
    Memory.read_getElem? m a (Nat.mod_lt j hk), Option.getD_some]

/-- A command that completes by writing `W` bytes to a chunk register changes nothing else but `cpc`. -/
theorem exec_writes_chunk {i : Instr} {s : State} {c : CReg} {v : Chunk} {byte : Nat → Byte}
    (hexec : exec i s = .next (s.setChunk c v).advance) (hlen : v.length = s.W)
    (hbyte : ∀ j < s.W, v[j]? = some (byte j)) :
    ∃ t, exec i s = .next t ∧ (t.chunk c).length = s.W ∧ (∀ j < s.W, (t.chunk c)[j]? = some (byte j)) ∧
      SameChunksBut c s t ∧ Advanced s t ∧ SameRegs s t ∧ SameMem s t ∧ SameSystem s t ∧ t.draws = s.draws := by
  have hchunk : (s.setChunk c v).advance.chunk c = v := s.chunk_setChunk_same c v
  refine ⟨_, hexec, ?length, ?bytes, fun j hj => s.chunk_setChunk_ne v hj, ⟨rfl, rfl, rfl, rfl⟩, fun _ => rfl,
    fun _ => rfl, exec_sameSystem hexec, rfl⟩
  case length => rw [hchunk, hlen]
  case bytes => rwa [hchunk]

/-- A store of a chunk register just written, when it raises no fault, writes that content to data memory. -/
theorem mem_of_cstore_after_setChunk {s u : State} {c : CReg} {rb : Reg} {v : Chunk} (hu : u.run = .running)
    (h : exec (.cstore rb c) (s.setChunk c v).advance = .next u) : u.mem = Memory.write s.mem (s.num rb) v := by
  obtain hfault | ⟨-, rfl⟩ := exec_cstore_outcome h
  · exact absurd hfault (not_takeFault_of_running hu)
  · exact congrArg (Memory.write s.mem (s.num rb)) (s.chunk_setChunk_same c v)

/-- Each byte of the chunk register just written is in data memory after the store. -/
theorem readByte_of_cstore_after_setChunk {s u : State} {c : CReg} {rb : Reg} {v : Chunk} {j : Nat} {b : Byte}
    (hu : u.run = .running) (h : exec (.cstore rb c) (s.setChunk c v).advance = .next u) (hb : v[j]? = some b) :
    Memory.readByte u.mem (s.num rb + j) = b := by
  obtain ⟨hj, rfl⟩ := List.getElem?_eq_some_iff.mp hb
  rw [mem_of_cstore_after_setChunk hu h, Memory.readByte_write_inside _ _ hj]

/-! ## The statements of 41_chunk_backend -/

/-- Settles O21: both outcomes of the range check; admitted, the chunk register holds the bytes read. -/
theorem cloadLoadsChunk : Obligations.CloadLoadsChunk := by
  refine ⟨rfl, fun s cd ra => ⟨fun hvalid => ?_, fun hvalid => ⟨_, exec_cload_of_not_rangeValid hvalid, rfl⟩⟩⟩
  exact exec_writes_chunk (exec_cload_of_rangeValid hvalid) (Memory.read_length ..)
    fun j hj => Memory.read_getElem? _ _ hj

/-- Settles O22: both outcomes of the range check; admitted, data memory is written with the chunk register's content,
whose length `W` bounds the bytes that change. -/
theorem cstoreStoresChunk : Obligations.CstoreStoresChunk := by
  refine ⟨rfl, fun s ra cs hlen => ⟨fun hvalid => ?_, fun hvalid => ⟨_, exec_cstore_of_not_rangeValid hvalid, rfl⟩⟩⟩
  have hexec := exec_cstore_of_rangeValid (c := cs) hvalid
  refine ⟨_, hexec, fun j hj => ?bytes, fun a ha => ?outside, advanced_setMem s _, fun _ => rfl, fun _ => rfl,
    exec_sameSystem hexec, rfl⟩
  case bytes =>
    rw [← hlen] at hj
    rw [List.getElem?_eq_getElem hj]
    exact congrArg some (Memory.readByte_write_inside _ _ hj)
  case outside => exact Memory.readByte_write_outside _ (hlen ▸ ha)

/-- Settles O23: each of the four rows is `fillChunk` of its unit, whose two checks have three outcomes. -/
theorem fillsBroadcastUnit : Obligations.FillsBroadcastUnit := by
  refine ⟨rfl, rfl, rfl, rfl, fun s cd ra i n supported hrow => ?_⟩
  obtain ⟨k, hexec, hcolumns⟩ :=
    exists_unit_of_fill_row (fun k => (k.bytes, s.cfg.fillSupported.has k)) hrow
  cases hcolumns
  have hfill := congrFun hexec s
  refine ⟨fun hk hvalid => ?admitted, fun hk => ?unsupported, fun hk hvalid => ?invalid⟩
  case admitted =>
    exact exec_writes_chunk (hfill.trans (fillChunk_of_rangeValid hk hvalid)) (fill_length ..)
      fun j hj => fill_read_getElem? _ _ (FillUnit.bytes_pos k) hj
  case unsupported => exact ⟨_, _, hfill.trans (fillChunk_of_not_supported hk), rfl, FillUnit.toNat_ofNat_bytes k⟩
  case invalid => exact ⟨_, hfill.trans (fillChunk_of_not_rangeValid hk hvalid), rfl⟩

/-- Settles O24: the store writes the chunk register's content, which the load or the fill took from the memory before
both commands, so it does not matter whether the ranges overlap. -/
theorem chunkRoundTrips : Obligations.ChunkRoundTrips := by
  refine fun s t u c ra rb _ ht hu hstore => ⟨fun hload => ?load, fun i n hrow hfill j hj => ?fill⟩
  case load =>
    obtain hfault | ⟨-, rfl⟩ := exec_cload_outcome hload
    · exact absurd hfault (not_takeFault_of_running ht)
    · exact Memory.read_congr fun j hj => readByte_of_cstore_after_setChunk hu hstore (Memory.read_getElem? _ _ hj)
  case fill =>
    obtain ⟨k, hexec, rfl⟩ := exists_unit_of_fill_row FillUnit.bytes hrow
    rw [hexec] at hfill
    obtain hfault | ⟨-, rfl⟩ := fillChunk_outcome hfill
    · exact absurd hfault (not_takeFault_of_running ht)
    · exact readByte_of_cstore_after_setChunk hu hstore (fill_read_getElem? _ _ (FillUnit.bytes_pos k) hj)

end Sys2Proof.Machine

namespace Sys2Proof.Machine

/-! ## What a completed command leaves alone -/

/-- A command that completes by changing at most data memory and the count of draws. -/
theorem advance_frame_of_memory_only {s u : State} (h : u = { s with mem := u.mem, draws := u.draws }) :
    Advanced s u.advance ∧ SameRegs s u.advance ∧ SameChunks s u.advance ∧ SameSystem s u.advance := by
  rw [h]
  exact ⟨⟨rfl, rfl, rfl, rfl⟩, fun _ => rfl, fun _ => rfl, ⟨rfl, rfl, rfl, rfl, rfl, rfl, rfl, rfl⟩⟩

/-- A command that completes by changing at most data memory, and draws nothing. -/
theorem advance_frame_of_setMem (s : State) (m : Memory) :
    Advanced s (s.setMem m).advance ∧ SameRegs s (s.setMem m).advance ∧ SameChunks s (s.setMem m).advance ∧
      SameSystem s (s.setMem m).advance ∧ (s.setMem m).advance.draws = s.draws :=
  ⟨advanced_setMem s m, fun _ => rfl, fun _ => rfl, ⟨rfl, rfl, rfl, rfl, rfl, rfl, rfl, rfl⟩, rfl⟩

/-- A command that completes by writing one operand register. -/
theorem advance_frame_of_setReg (s : State) (rd : Reg) (v : Word) :
    SameRegsBut rd s (s.setReg rd v).advance ∧ Advanced s (s.setReg rd v).advance ∧
      SameChunks s (s.setReg rd v).advance ∧ SameMem s (s.setReg rd v).advance ∧
      SameSystem s (s.setReg rd v).advance ∧ (s.setReg rd v).advance.draws = s.draws :=
  ⟨fun _ hr => s.reg_setReg_ne v hr, ⟨rfl, rfl, rfl, rfl⟩, fun _ => rfl, fun _ => rfl,
    ⟨rfl, rfl, rfl, rfl, rfl, rfl, rfl, rfl⟩, rfl⟩

/-! ## The chunk width -/

theorem ChunkWidth.bytes_mem (w : ChunkWidth) : w.bytes ∈ [16, 32, 64] := by cases w <;> decide

theorem State.W_mem (s : State) : s.W ∈ [16, 32, 64] := ChunkWidth.bytes_mem _

/-- A register holds the chunk width without loss. -/
theorem State.toNat_ofNat_W (s : State) : (BitVec.ofNat 64 s.W).toNat = s.W := by
  have hW := s.W_mem
  simp only [List.mem_cons, List.not_mem_nil, or_false] at hW
  rw [BitVec.toNat_ofNat, Nat.mod_eq_of_lt (by omega)]

theorem exec_chunksz (s : State) (rd : Reg) :
    exec (.chunksz rd) s = .next (s.setReg rd (BitVec.ofNat 64 s.W)).advance := rfl

/-! ## The copies' checks, in the words of the claims -/

/-- A check of a command lets it pass when what it tests holds. -/
theorem check_passes {b : Bool} {p : Prop} (hb : b = true ↔ p) (hp : p) : ¬(!b) = true := by
  simp [hb.mpr hp]

/-- A check of a command stops it when what it tests fails. -/
theorem check_fails {b : Bool} {p : Prop} (hb : b = true ↔ p) (hp : ¬p) : (!b) = true := by
  simpa using mt hb.mp hp

theorem unrolledApart_iff (dst src len W : Nat) :
    unrolledApart dst src len W = true ↔ src + len ≤ dst ∨ dst + len + W - 1 ≤ src := by
  simp only [unrolledApart, Bool.or_eq_true, decide_eq_true_eq]

/-- The address of the seed modulo 2^64 is the difference of the two registers (42 R158). -/
theorem State.toNat_reg_sub_reg (s : State) (ra rb : Reg) :
    ((s.reg ra - s.reg rb).toNat : Int) = ((s.num ra : Int) - s.num rb) % 2 ^ 64 := by
  have hb : (s.reg rb).toNat < 2 ^ 64 := (s.reg rb).isLt
  rw [BitVec.toNat_sub, State.num, State.num]
  omega

/-! ## The copies, one equation per outcome (spec 42 R152, R158, R166) -/

section
variable {s : State} {ra rb rc : Reg}

theorem exec_cpsafe_of_overlap (hlen : s.num rc ≠ 0)
    (hapart : ¬RangesDisjoint (s.num rb) (s.num rc) (s.num ra) (s.num rc)) :
    exec (.cpsafe ra rb rc) s = .next (s.takeFault .overlap (s.reg ra)) :=
  (if_neg hlen).trans (if_pos (check_fails (disjoint_iff_rangesDisjoint ..) hapart))

theorem exec_cpsafe_of_src_invalid (hlen : s.num rc ≠ 0)
    (hapart : RangesDisjoint (s.num rb) (s.num rc) (s.num ra) (s.num rc))
    (hsrc : ¬RangeValid s (s.num rb) (s.num rc)) :
    exec (.cpsafe ra rb rc) s = .next (s.takeFault .memFault (s.reg rb)) :=
  (if_neg hlen).trans <| (if_neg (check_passes (disjoint_iff_rangesDisjoint ..) hapart)).trans <|
    if_pos (check_fails (s.validRange_iff_rangeValid ..) hsrc)

theorem exec_cpsafe_of_dst_invalid (hlen : s.num rc ≠ 0)
    (hapart : RangesDisjoint (s.num rb) (s.num rc) (s.num ra) (s.num rc))
    (hsrc : RangeValid s (s.num rb) (s.num rc)) (hdst : ¬RangeValid s (s.num ra) (s.num rc)) :
    exec (.cpsafe ra rb rc) s = .next (s.takeFault .memFault (s.reg ra)) :=
  (if_neg hlen).trans <| (if_neg (check_passes (disjoint_iff_rangesDisjoint ..) hapart)).trans <|
    (if_neg (check_passes (s.validRange_iff_rangeValid ..) hsrc)).trans <|
    if_pos (check_fails (s.validRange_iff_rangeValid ..) hdst)

theorem exec_cpsafe_of_admitted (hlen : s.num rc ≠ 0)
    (hapart : RangesDisjoint (s.num rb) (s.num rc) (s.num ra) (s.num rc))
    (hsrc : RangeValid s (s.num rb) (s.num rc)) (hdst : RangeValid s (s.num ra) (s.num rc)) :
    exec (.cpsafe ra rb rc) s =
      .next (s.setMem (copySafe s.mem (s.num ra) (s.num rb) (s.num rc))).advance :=
  (if_neg hlen).trans <| (if_neg (check_passes (disjoint_iff_rangesDisjoint ..) hapart)).trans <|
    (if_neg (check_passes (s.validRange_iff_rangeValid ..) hsrc)).trans <|
    if_neg (check_passes (s.validRange_iff_rangeValid ..) hdst)

theorem exec_cpovl_of_dist_zero (hdist : s.num rb = 0) :
    exec (.cpovl ra rb rc) s = .next (s.takeFault .badDistance 0) :=
  if_pos hdist

theorem exec_cpovl_of_seed_invalid (hdist : s.num rb ≠ 0) (hlen : s.num rc ≠ 0)
    (hseed : ¬BackRangeValid s (s.num ra) (s.num rb) (min (s.num rb) (s.num rc))) :
    exec (.cpovl ra rb rc) s = .next (s.takeFault .memFault (s.reg ra - s.reg rb)) :=
  (if_neg hdist).trans <| (if_neg hlen).trans <| if_pos (check_fails (s.validRange_sub_iff ..) hseed)

theorem exec_cpovl_of_dst_invalid (hdist : s.num rb ≠ 0) (hlen : s.num rc ≠ 0)
    (hseed : BackRangeValid s (s.num ra) (s.num rb) (min (s.num rb) (s.num rc)))
    (hdst : ¬RangeValid s (s.num ra) (s.num rc + s.W - 1)) :
    exec (.cpovl ra rb rc) s = .next (s.takeFault .memFault (s.reg ra)) :=
  (if_neg hdist).trans <| (if_neg hlen).trans <|
    (if_neg (check_passes (s.validRange_sub_iff ..) hseed)).trans <|
    if_pos (check_fails (s.validRange_iff_rangeValid ..) hdst)

theorem exec_cpovl_of_admitted (hdist : s.num rb ≠ 0) (hlen : s.num rc ≠ 0)
    (hseed : BackRangeValid s (s.num ra) (s.num rb) (min (s.num rb) (s.num rc)))
    (hdst : RangeValid s (s.num ra) (s.num rc + s.W - 1)) :
    exec (.cpovl ra rb rc) s = .next (s.overlapEffect (s.num ra) (s.num rb) (s.num rc)).advance :=
  (if_neg hdist).trans <| (if_neg hlen).trans <|
    (if_neg (check_passes (s.validRange_sub_iff ..) hseed)).trans <|
    if_neg (check_passes (s.validRange_iff_rangeValid ..) hdst)

theorem exec_cpunr_of_overlap (hlen : s.num rc ≠ 0)
    (hapart : ¬(s.num rb + s.num rc ≤ s.num ra ∨ s.num ra + s.num rc + s.W - 1 ≤ s.num rb)) :
    exec (.cpunr ra rb rc) s = .next (s.takeFault .overlap (s.reg ra)) :=
  (if_neg hlen).trans (if_pos (check_fails (unrolledApart_iff ..) hapart))

theorem exec_cpunr_of_src_invalid (hlen : s.num rc ≠ 0)
    (hapart : s.num rb + s.num rc ≤ s.num ra ∨ s.num ra + s.num rc + s.W - 1 ≤ s.num rb)
    (hsrc : ¬RangeValid s (s.num rb) (s.num rc + s.W - 1)) :
    exec (.cpunr ra rb rc) s = .next (s.takeFault .memFault (s.reg rb)) :=
  (if_neg hlen).trans <| (if_neg (check_passes (unrolledApart_iff ..) hapart)).trans <|
    if_pos (check_fails (s.validRange_iff_rangeValid ..) hsrc)

theorem exec_cpunr_of_dst_invalid (hlen : s.num rc ≠ 0)
    (hapart : s.num rb + s.num rc ≤ s.num ra ∨ s.num ra + s.num rc + s.W - 1 ≤ s.num rb)
    (hsrc : RangeValid s (s.num rb) (s.num rc + s.W - 1)) (hdst : ¬RangeValid s (s.num ra) (s.num rc + s.W - 1)) :
    exec (.cpunr ra rb rc) s = .next (s.takeFault .memFault (s.reg ra)) :=
  (if_neg hlen).trans <| (if_neg (check_passes (unrolledApart_iff ..) hapart)).trans <|
    (if_neg (check_passes (s.validRange_iff_rangeValid ..) hsrc)).trans <|
    if_pos (check_fails (s.validRange_iff_rangeValid ..) hdst)

theorem exec_cpunr_of_admitted (hlen : s.num rc ≠ 0)
    (hapart : s.num rb + s.num rc ≤ s.num ra ∨ s.num ra + s.num rc + s.W - 1 ≤ s.num rb)
    (hsrc : RangeValid s (s.num rb) (s.num rc + s.W - 1)) (hdst : RangeValid s (s.num ra) (s.num rc + s.W - 1)) :
    exec (.cpunr ra rb rc) s = .next (s.unrolledEffect (s.num ra) (s.num rb) (s.num rc)).advance :=
  (if_neg hlen).trans <| (if_neg (check_passes (unrolledApart_iff ..) hapart)).trans <|
    (if_neg (check_passes (s.validRange_iff_rangeValid ..) hsrc)).trans <|
    if_neg (check_passes (s.validRange_iff_rangeValid ..) hdst)

end

/-! ## What the copies write: the destination, and the bytes that may change -/

theorem copySafe_readByte_dst (m : Memory) (dst src : Nat) {len i : Nat} (h : i < len) :
    Memory.readByte (copySafe m dst src len) (dst + i) = Memory.readByte m (src + i) := by
  rw [copySafe_readByte, if_pos (by omega), Nat.add_sub_cancel_left]

theorem sameMemOutside_copySafe (s : State) (dst src len : Nat) :
    SameMemOutside dst len s (s.setMem (copySafe s.mem dst src len)) := fun a ha => by
  rw [State.setMem_mem, copySafe_readByte, if_neg ha]

theorem State.overlapEffect_readByte_dst (s : State) (dst dist : Nat) {len i : Nat} (h : i < len) :
    Memory.readByte (s.overlapEffect dst dist len).mem (dst + i) = Memory.readByte s.mem (dst - dist + i % dist) := by
  rw [s.overlapEffect_readByte, if_neg (by omega), if_pos (by omega), Nat.add_sub_cancel_left]

/-- With its slack, an overlap copy stays inside `len` bytes when `dist >= W`, inside `len + W - 1` bytes otherwise. -/
theorem State.sameMemOutside_overlapEffect (s : State) (dst dist len : Nat) :
    SameMemOutside dst (if s.W ≤ dist then len else len + s.W - 1) s (s.overlapEffect dst dist len) := fun a ha => by
  have hW := s.W_pos
  rw [s.overlapEffect_readByte, s.slackBytes_length]
  by_cases hwide : s.W ≤ dist
  · rw [if_pos hwide] at ha ⊢
    rw [if_neg (by omega), if_neg ha]
  · rw [if_neg hwide] at ha ⊢
    rw [if_neg (by omega), if_neg (by omega)]

theorem State.unrolledEffect_readByte_dst (s : State) (dst src : Nat) {len i : Nat} (h : i < len) :
    Memory.readByte (s.unrolledEffect dst src len).mem (dst + i) = Memory.readByte s.mem (src + i) := by
  rw [s.unrolledEffect_readByte, if_neg (by omega), if_pos (by omega), Nat.add_sub_cancel_left]

theorem State.sameMemOutside_unrolledEffect (s : State) (dst src len : Nat) :
    SameMemOutside dst (len + s.W - 1) s (s.unrolledEffect dst src len) := fun a ha => by
  have hW := s.W_pos
  rw [s.unrolledEffect_readByte, if_neg (by omega), if_neg (by omega)]

/-! ## The statements of 42_chunked_copy -/

/-- Settles O16: one write of `rd` with the width, and the advance. -/
theorem chunkszReadsWidth : Obligations.ChunkszReadsWidth := by
  refine ⟨rfl, fun s rd => ?_⟩
  have hreg : (s.setReg rd (BitVec.ofNat 64 s.W)).advance.reg rd = BitVec.ofNat 64 s.W := s.reg_setReg_same rd _
  exact ⟨_, exec_chunksz s rd, hreg, (congrArg BitVec.toNat hreg).trans s.toNat_ofNat_W, s.W_mem,
    advance_frame_of_setReg s rd _⟩

/-- Settles O17: the three faults and the admitted copy by their equations; with `len` = 0 the command only advances. -/
theorem cpsafeCopiesExactly : Obligations.CpsafeCopiesExactly := by
  refine ⟨rfl, ?_⟩
  rintro s ra rb rc _ _ _ rfl rfl rfl
  refine ⟨fun hadmitted => ?admitted, fun hlen hapart => ⟨_, exec_cpsafe_of_overlap hlen hapart, rfl⟩,
    fun hlen hapart hsrc => ⟨_, exec_cpsafe_of_src_invalid hlen hapart hsrc, rfl⟩,
    fun hlen hapart hsrc hdst => ⟨_, exec_cpsafe_of_dst_invalid hlen hapart hsrc hdst, rfl⟩⟩
  case admitted =>
    by_cases hlen : s.num rc = 0
    · exact ⟨_, exec_cpsafe_of_len_zero hlen, fun i hi => by omega, fun _ _ => rfl, advance_frame_of_setMem s s.mem⟩
    · obtain ⟨hapart, hsrc, hdst⟩ := hadmitted.resolve_left hlen
      exact ⟨_, exec_cpsafe_of_admitted hlen hapart hsrc hdst, fun i hi => copySafe_readByte_dst _ _ _ hi,
        sameMemOutside_copySafe s _ _ _, advance_frame_of_setMem s _⟩

/-- Settles O18: the three faults and the admitted copy by their equations; the seed's address is reduced modulo 2^64
by the subtraction of the registers. -/
theorem cpovlExpandsBackReference : Obligations.CpovlExpandsBackReference := by
  refine ⟨rfl, ?_⟩
  rintro s ra rb rc _ _ _ rfl rfl rfl
  refine ⟨fun ⟨hdist, hadmitted⟩ => ?admitted, fun hdist => ⟨_, exec_cpovl_of_dist_zero hdist, rfl⟩,
    fun hdist hlen hseed => ⟨_, _, exec_cpovl_of_seed_invalid hdist hlen hseed, rfl, s.toNat_reg_sub_reg ra rb⟩,
    fun hdist hlen hseed hdst => ⟨_, exec_cpovl_of_dst_invalid hdist hlen hseed hdst, rfl⟩⟩
  case admitted =>
    by_cases hlen : s.num rc = 0
    · exact ⟨_, exec_cpovl_of_len_zero hdist hlen, fun i hi => by omega, fun _ _ => rfl,
        advance_frame_of_memory_only rfl⟩
    · obtain ⟨hseed, hdst⟩ := hadmitted.resolve_left hlen
      rw [if_neg hlen]
      exact ⟨_, exec_cpovl_of_admitted hdist hlen hseed hdst, fun i hi => s.overlapEffect_readByte_dst _ _ hi,
        s.sameMemOutside_overlapEffect _ _ _, advance_frame_of_memory_only (s.overlapEffect_frame _ _ _)⟩

/-- Settles O20: the three faults and the admitted copy by their equations; with `len` = 0 the command only advances,
and needs no slack. -/
theorem cpunrCopiesBulk : Obligations.CpunrCopiesBulk := by
  refine ⟨rfl, ?_⟩
  rintro s ra rb rc _ _ _ rfl rfl rfl
  refine ⟨fun hadmitted => ?admitted, fun hlen hapart => ⟨_, exec_cpunr_of_overlap hlen hapart, rfl⟩,
    fun hlen hapart hsrc => ⟨_, exec_cpunr_of_src_invalid hlen hapart hsrc, rfl⟩,
    fun hlen hapart hsrc hdst => ⟨_, exec_cpunr_of_dst_invalid hlen hapart hsrc hdst, rfl⟩⟩
  case admitted =>
    by_cases hlen : s.num rc = 0
    · exact ⟨_, exec_cpunr_of_len_zero hlen, fun i hi => by omega, fun _ _ => rfl, advance_frame_of_memory_only rfl⟩
    · obtain ⟨hapart, hsrc, hdst⟩ := hadmitted.resolve_left hlen
      rw [if_neg hlen]
      exact ⟨_, exec_cpunr_of_admitted hlen hapart hsrc hdst, fun i hi => s.unrolledEffect_readByte_dst _ _ hi,
        s.sameMemOutside_unrolledEffect _ _ _, advance_frame_of_memory_only (s.unrolledEffect_frame _ _ _)⟩

end Sys2Proof.Machine

namespace Sys2Proof.Machine

/-! ## The checks of `SLIDE` that fail, one equation per fault (spec 44 R201) -/

section
variable {s : State} {ra rb rc rd re : Reg}

theorem exec_slide_of_head_misaligned (hHead : ¬(s.num rb = 0 ∨ s.num ra % s.EB = 0)) :
    exec (.slide ra rb rc rd re) s = .next (s.takeFault .misaligned (s.reg ra)) :=
  if_pos (check_fails (tableAligned_iff ..) hHead)

theorem exec_slide_of_prev_misaligned (hHead : s.num rb = 0 ∨ s.num ra % s.EB = 0)
    (hPrev : ¬(s.num rd = 0 ∨ s.num rc % s.EB = 0)) :
    exec (.slide ra rb rc rd re) s = .next (s.takeFault .misaligned (s.reg rc)) :=
  (if_neg (check_passes (tableAligned_iff ..) hHead)).trans <| if_pos (check_fails (tableAligned_iff ..) hPrev)

theorem exec_slide_of_head_invalid (hHead : s.num rb = 0 ∨ s.num ra % s.EB = 0)
    (hPrev : s.num rd = 0 ∨ s.num rc % s.EB = 0) (hHeadValid : ¬RangeValid s (s.num ra) (s.EB * s.num rb)) :
    exec (.slide ra rb rc rd re) s = .next (s.takeFault .memFault (s.reg ra)) :=
  (if_neg (check_passes (tableAligned_iff ..) hHead)).trans <|
    (if_neg (check_passes (tableAligned_iff ..) hPrev)).trans <|
    if_pos (check_fails (s.validRange_iff_rangeValid ..) hHeadValid)

theorem exec_slide_of_prev_invalid (hHead : s.num rb = 0 ∨ s.num ra % s.EB = 0)
    (hPrev : s.num rd = 0 ∨ s.num rc % s.EB = 0) (hHeadValid : RangeValid s (s.num ra) (s.EB * s.num rb))
    (hPrevValid : ¬RangeValid s (s.num rc) (s.EB * s.num rd)) :
    exec (.slide ra rb rc rd re) s = .next (s.takeFault .memFault (s.reg rc)) :=
  (if_neg (check_passes (tableAligned_iff ..) hHead)).trans <|
    (if_neg (check_passes (tableAligned_iff ..) hPrev)).trans <|
    (if_neg (check_passes (s.validRange_iff_rangeValid ..) hHeadValid)).trans <|
    if_pos (check_fails (s.validRange_iff_rangeValid ..) hPrevValid)

theorem exec_slide_of_overlap (hHead : s.num rb = 0 ∨ s.num ra % s.EB = 0)
    (hPrev : s.num rd = 0 ∨ s.num rc % s.EB = 0) (hHeadValid : RangeValid s (s.num ra) (s.EB * s.num rb))
    (hPrevValid : RangeValid s (s.num rc) (s.EB * s.num rd))
    (hApart : ¬RangesDisjoint (s.num ra) (s.EB * s.num rb) (s.num rc) (s.EB * s.num rd)) :
    exec (.slide ra rb rc rd re) s = .next (s.takeFault .overlap (s.reg ra)) :=
  (if_neg (check_passes (tableAligned_iff ..) hHead)).trans <|
    (if_neg (check_passes (tableAligned_iff ..) hPrev)).trans <|
    (if_neg (check_passes (s.validRange_iff_rangeValid ..) hHeadValid)).trans <|
    (if_neg (check_passes (s.validRange_iff_rangeValid ..) hPrevValid)).trans <|
    if_pos (check_fails (disjoint_iff_rangesDisjoint ..) hApart)

end

/-! ## The entries of a slid table, and of a table apart from it -/

theorem rangesDisjoint_comm {a n b k : Nat} : RangesDisjoint a n b k ↔ RangesDisjoint b k a n := by
  unfold RangesDisjoint
  omega

/-- An address of one of two disjoint ranges is outside the other. -/
theorem not_mem_of_rangesDisjoint {a n b k x : Nat} (h : RangesDisjoint a n b k) (hx : a ≤ x ∧ x < a + n) :
    ¬(b ≤ x ∧ x < b + k) := by
  unfold RangesDisjoint at h
  omega

/-- Byte `j` of entry `i` lies inside its table (44 R205). -/
theorem entry_byte_mem (base : Nat) {eb count i j : Nat} (hi : i < count) (hj : j < eb) :
    base ≤ base + eb * i + j ∧ base + eb * i + j < base + eb * count := by
  have hend : eb * i + eb ≤ eb * count := Nat.mul_le_mul_left eb hi
  omega

/-- A slid entry is below the entry it replaces, so it fits its `eb` bytes and nothing is lost (44 R202). -/
theorem entry_slideTable_same (m : Memory) (eb base w : Nat) {count i : Nat} (hi : i < count) :
    entry (slideTable m eb base count w) eb base i = entry m eb base i - w := by
  rw [(slideTable_spec m eb base count w).1 i hi,
    Nat.mod_eq_of_lt (Nat.lt_of_le_of_lt (Nat.sub_le ..) (entry_lt ..))]

/-- Sliding one table leaves the entries of a table disjoint from it. -/
theorem entry_slideTable_apart (m : Memory) (w : Nat) {eb base count base' count' i : Nat} (hi : i < count)
    (hApart : RangesDisjoint base (eb * count) base' (eb * count')) :
    entry (slideTable m eb base' count' w) eb base i = entry m eb base i :=
  congrArg le <| Memory.read_congr fun _ hj =>
    (slideTable_spec m eb base' count' w).2 _ (not_mem_of_rangesDisjoint hApart (entry_byte_mem base hi hj))

/-! ## The statement of 44_hash_slide -/

/-- Settles O29: the five faults by their equations; admitted, each table is slid once, and the slide of the other,
disjoint from it, leaves its entries alone. -/
theorem slideSubtractsWindow : Obligations.SlideSubtractsWindow := by
  refine ⟨rfl, ?_⟩
  rintro s ra rb rc rd re _ _ _ _ _ rfl rfl rfl rfl rfl
  refine ⟨fun hHead hPrev hHeadValid hPrevValid hApart => ?admitted,
    fun hHead => ⟨_, exec_slide_of_head_misaligned hHead, rfl⟩,
    fun hHead hPrev => ⟨_, exec_slide_of_prev_misaligned hHead hPrev, rfl⟩,
    fun hHead hPrev hHeadValid => ⟨_, exec_slide_of_head_invalid hHead hPrev hHeadValid, rfl⟩,
    fun hHead hPrev hHeadValid hPrevValid =>
      ⟨_, exec_slide_of_prev_invalid hHead hPrev hHeadValid hPrevValid, rfl⟩,
    fun hHead hPrev hHeadValid hPrevValid hApart =>
      ⟨_, exec_slide_of_overlap hHead hPrev hHeadValid hPrevValid hApart, rfl⟩⟩
  case admitted =>
    refine ⟨_, exec_slide_of_admitted hHead hPrev hHeadValid hPrevValid hApart, fun i hi => ?head, fun i hi => ?prev,
      fun a hHeadOut hPrevOut => ?outside, advance_frame_of_setMem s _⟩
    case head =>
      rw [State.advance_mem, State.setMem_mem, entry_slideTable_apart _ _ hi hApart, entry_slideTable_same _ _ _ _ hi]
      omega
    case prev =>
      rw [State.advance_mem, State.setMem_mem, entry_slideTable_same _ _ _ _ hi,
        entry_slideTable_apart _ _ hi (rangesDisjoint_comm.mp hApart)]
      omega
    case outside => exact ((slideTable_spec ..).2 a hPrevOut).trans ((slideTable_spec ..).2 a hHeadOut)

end Sys2Proof.Machine

namespace Sys2Proof.Machine

/-! ## What the dispatcher selects, one equation per backend (spec 45 R224) -/

section
variable {caps : BitVec 32} {impl : VecSet}

theorem select_of_v512 (h512 : caps.getLsbD 2 = true ∧ impl.v512 = true) : select caps impl = .vec512 :=
  if_pos (Bool.and_eq_true_iff.mpr h512)

theorem select_of_v256 (h512 : ¬(caps.getLsbD 2 = true ∧ impl.v512 = true))
    (h256 : caps.getLsbD 1 = true ∧ impl.v256 = true) : select caps impl = .vec256 :=
  (if_neg (mt Bool.and_eq_true_iff.mp h512)).trans <|
    if_pos (Bool.and_eq_true_iff.mpr h256)

theorem select_of_v128 (h512 : ¬(caps.getLsbD 2 = true ∧ impl.v512 = true))
    (h256 : ¬(caps.getLsbD 1 = true ∧ impl.v256 = true)) (h128 : caps.getLsbD 0 = true ∧ impl.v128 = true) :
    select caps impl = .vec128 :=
  (if_neg (mt Bool.and_eq_true_iff.mp h512)).trans <|
    (if_neg (mt Bool.and_eq_true_iff.mp h256)).trans <|
    if_pos (Bool.and_eq_true_iff.mpr h128)

theorem select_of_none (h512 : ¬(caps.getLsbD 2 = true ∧ impl.v512 = true))
    (h256 : ¬(caps.getLsbD 1 = true ∧ impl.v256 = true)) (h128 : ¬(caps.getLsbD 0 = true ∧ impl.v128 = true)) :
    select caps impl = .scalar :=
  (if_neg (mt Bool.and_eq_true_iff.mp h512)).trans <|
    (if_neg (mt Bool.and_eq_true_iff.mp h256)).trans <|
    if_neg (mt Bool.and_eq_true_iff.mp h128)

end

/-- The chunk width read off the selector's value, as R226 gives it. -/
theorem widthOf_bytes_eq (fallback : ChunkWidth) (b : Backend) :
    (widthOf fallback b).bytes =
      if selectorCode b = 3 then 64 else if selectorCode b = 2 then 32 else if selectorCode b = 1 then 16
      else fallback.bytes := by
  cases b <;> rfl

/-! ## The statement of 45_dispatcher -/

/-- Settles O50: each clause on the selector by the equation of `select` whose premises it has, the width by cases on
the backend. -/
theorem dispatcherSelectsWidest : Obligations.DispatcherSelectsWidest :=
  ⟨fun _ _ =>
    ⟨fun h512 => congrArg selectorCode (select_of_v512 h512),
      fun h512 h256 => congrArg selectorCode (select_of_v256 h512 h256),
      fun h512 h256 h128 => congrArg selectorCode (select_of_v128 h512 h256 h128),
      fun h512 h256 h128 => congrArg selectorCode (select_of_none h512 h256 h128)⟩,
    fun _ _ => ⟨rfl, rfl, rfl⟩, widthOf_bytes_eq, rfl⟩

end Sys2Proof.Machine

namespace Sys2Proof.Machine

/-! ## The statements of 50_host_interface -/

/-- Settles O52: the step on a pending start sets the run state by one test, which IDLE and DONE pass and RUNNING and
FAULTED fail. -/
theorem hostStartBeginsRun : Obligations.HostStartBeginsRun := by
  refine fun s rest hstart => ⟨fun hstopped => ?begins, fun hignored => ?ignored⟩
  case begins => rw [step_of_pending_start hstart, if_pos hstopped]; rfl
  case ignored =>
    have hnot : ¬(s.run = .idle ∨ s.run = .done) := by
      obtain hrun | hrun := hignored <;> simp [hrun]
    rw [step_of_pending_start hstart, if_neg hnot]; rfl

end Sys2Proof.Machine

namespace Sys2Proof

/-! ## Words that do not decode, and the word in four bytes of memory -/

/-- A word with an assigned opcode and a non-zero must-be-zero bit is illegal (30 R98). -/
theorem decode_error_of_opcode {w : CmdWord} {o : Op} (hcode : w.extractLsb' 0 8 = o.code)
    (hpat : w &&& o.mask ≠ o.pattern) : ∃ e, decode w = .error e :=
  ⟨_, by rw [decode_of_opcode hcode, if_neg hpat]⟩

/-- A 4-bit field above 3 has a set bit among its upper two. -/
theorem exists_upper_bit_of_four_le :
    ∀ c : BitVec 4, 4 ≤ c.toNat → ∃ j < 4, c.getLsbD j = true ∧ (0b1100#4).getLsbD j = true := by decide

/-- A chunk-register field above 3 is illegal: the row's mask holds the field's upper two bits (30 R92, R94). -/
theorem decode_error_of_chunk_field {w : CmdWord} {o : Op} {lo : Nat} (hlo : 8 ≤ lo)
    (hcode : w.extractLsb' 0 8 = o.code) (hmask : o.mask.extractLsb' lo 4 = 0b1100#4)
    (hfield : 4 ≤ (w.extractLsb' lo 4).toNat) : ∃ e, decode w = .error e := by
  obtain ⟨j, hj, hbit, hheld⟩ := exists_upper_bit_of_four_le _ hfield
  rw [← hmask] at hheld
  simp only [BitVec.getLsbD_extractLsb', hj, decide_true, Bool.true_and] at hbit hheld
  exact decode_error_of_opcode hcode (not_pattern_of_unused_bit (by omega) hheld hbit)

/-- The little-endian number of a word's four bytes is the word (30 R90). -/
theorem ofNat_le_bytesOfWord (w : CmdWord) : BitVec.ofNat 32 (Machine.le (bytesOfWord w)) = w := by
  have hbytes : bytesOfWord w = Machine.leBytes 4 w.toNat := by
    simp [bytesOfWord, Machine.leBytes, ← BitVec.toNat_inj, Nat.shiftRight_eq_div_pow, Nat.div_div_eq_div_mul]
  have hlt : w.toNat < 256 ^ 4 := w.isLt
  rw [hbytes, Machine.le_leBytes, Nat.mod_eq_of_lt hlt, BitVec.ofNat_toNat, BitVec.setWidth_eq]

end Sys2Proof

namespace Sys2Proof.Machine

/-! ## The sequencer's turn, and the faults of fetch and decode -/

/-- On the sequencer's turn the step is the sequencer's, from the state the turn leaves. -/
theorem SequencerTurn.step_eq {s p : State} (h : SequencerTurn s p) : step s = sequencerStep p := by
  obtain ⟨hp, rfl⟩ | ⟨rest, hp, rfl⟩ := h
  · exact step_of_pending_nil hp
  · exact step_of_pending_cons hp

theorem SequencerTurn.run_eq {s p : State} (h : SequencerTurn s p) : p.run = s.run := by rw [h.eq_pending]

/-- What is fetched and decoded does not depend on the turn that is used up. -/
theorem SequencerTurn.fetchDecode_eq {s p : State} (h : SequencerTurn s p) : p.fetchDecode = s.fetchDecode := by
  rw [h.eq_pending]; rfl

/-- The fault of a failed fetch or decode is taken (40 R120, 60 R266). -/
theorem SequencerTurn.faultTaken_of_fetchDecode_error {s p : State} {c : Cause} {v : Word} (h : SequencerTurn s p)
    (hrun : s.run = .running) (hfd : s.fetchDecode = .error (c, v)) : ∃ t, step s = .next t ∧ FaultTaken p t c v := by
  refine ⟨p.takeFault c v, ?_, rfl⟩
  rw [h.step_eq, sequencerStep_of_running (h.run_eq.trans hrun), h.fetchDecode_eq, hfd]
  rfl

theorem State.fetchDecode_of_not_fetchable {s : State} (h : ¬s.fetchable = true) :
    s.fetchDecode = .error (.cmdFetchFault, s.cpc) := if_neg h

/-- The four bytes fetched are those of the word that stands at `cpc`. -/
theorem State.fetchBytes_eq_bytesOfWord {s : State} {w : CmdWord}
    (h : ∀ k < 4, Memory.readByte s.cmem (s.cpc.toNat + k) = w.extractLsb' (8 * k) 8) :
    s.fetchBytes = bytesOfWord w := by
  refine List.ext_getElem (Memory.read_length ..) fun k hk _ => ?_
  have hlt : k < 4 := by simpa [State.fetchBytes] using hk
  refine (Memory.read_getElem _ _ _ _ hk).trans ((h k hlt).trans ?_)
  interval_cases k <;> rfl

/-- An admitted fetch of a word that does not decode answers `IllegalCommand` with that word (60 R262). -/
theorem State.fetchDecode_of_decode_error {s : State} {w : CmdWord} {e : Illegal} (hfetch : s.fetchable = true)
    (hbytes : s.fetchBytes = bytesOfWord w) (hdec : decode w = .error e) :
    s.fetchDecode = .error (.illegalCommand, w.setWidth 64) := by
  have hillegal : decodeBytes s.fetchBytes = .error e := by
    have hword := decodeBytes_bytesOfWord w []
    rw [hdec, List.append_nil] at hword
    rw [hbytes, hword]
  have hinfo : s.fetchWord = w := by rw [State.fetchWord, hbytes, ofNat_le_bytesOfWord]
  rw [State.fetchDecode, if_pos hfetch, hillegal, hinfo]

/-! ## Precision -/

/-- A command that leaves a state FAULTED that was not has taken a fault and done nothing else (60 R266). -/
theorem exec_eq_takeFault_of_faulted {i : Instr} {s t : State} (hs : s.run ≠ .faulted) (h : exec i s = .next t)
    (ht : t.run = .faulted) : ∃ c v, t = s.takeFault c v := by
  obtain ⟨c, v, hx⟩ | ⟨-, hx⟩ | ⟨-, u, hx, hu⟩ := exec_cases i s <;> rw [hx] at h <;> cases h
  case inl => exact ⟨c, v, rfl⟩
  case inr.inl => cases ht
  case inr.inr => rw [hu] at ht; exact absurd ht hs

/-- The same of a step of the sequencer, whether the fault is of fetch, of decode or of the command. -/
theorem sequencerStep_eq_takeFault_of_faulted {s t : State} (h : sequencerStep s = .next t)
    (ht : t.run = .faulted) : ∃ c v, t = s.takeFault c v := by
  obtain ⟨hrun, ⟨c, v, -, rfl⟩ | ⟨i, -, hx⟩⟩ := sequencerStep_cases h
  · exact ⟨c, v, rfl⟩
  · exact exec_eq_takeFault_of_faulted (by simp [hrun]) hx ht

/-- A sequencer that is not RUNNING has no step (40 R120, 60 R268). -/
theorem SequencerTurn.step_ne_next_of_not_running {s p : State} (h : SequencerTurn s p) (hrun : s.run ≠ .running)
    (t : State) : step s ≠ .next t := by
  rw [h.step_eq, sequencerStep_of_not_running (h.run_eq ▸ hrun)]
  simp

/-! ## The statements of 60_exceptions -/

/-- Settles O37: the step is the sequencer's on `p`, where FAULTED comes from `takeFault` alone, and a FAULTED sequencer
has no step. -/
theorem faultsArePrecise : Obligations.FaultsArePrecise := by
  refine fun s p t hturn _ hstep hfaulted => ⟨?taken, fun q u hnext => ?stopped⟩
  case taken => exact sequencerStep_eq_takeFault_of_faulted (hturn.step_eq ▸ hstep) hfaulted
  case stopped => exact hnext.step_ne_next_of_not_running (by simp [hfaulted]) u

/-- Settles O11: the fetch is admitted and its word does not decode, so `IllegalCommand` is taken; the words the rule
lists match no row, for their opcode or for a bit that the row's mask holds. -/
theorem illegalCommandTaken : Obligations.IllegalCommandTaken := by
  refine ⟨fun s p w e hturn hrun halign hvalid hword hdec => ?taken, ⟨_, rfl⟩, ⟨_, rfl⟩,
    fun w hcode => ⟨_, decode_of_unassigned hcode⟩, fun w o => decode_error_of_opcode,
    fun f1 c hc => ⟨?chunkFirst, ?chunkSecond⟩⟩
  case taken =>
    exact hturn.faultTaken_of_fetchDecode_error hrun (State.fetchDecode_of_decode_error
      (s.fetchable_iff.mpr ⟨halign, hvalid⟩) (State.fetchBytes_eq_bytesOfWord hword) hdec)
  case chunkFirst =>
    have hrow (o : Op) (hmask : o.mask.extractLsb' 8 4 = 0b1100#4) :
        ∃ e, decode (packWord o.code c f1 0 0 0) = .error e :=
      decode_error_of_chunk_field (Nat.le_refl 8) (opcode_packWord ..) hmask (by rwa [(fields_packWord ..).1])
    simp only [List.forall_mem_cons]
    exact ⟨hrow .cload rfl, hrow .cfill1 rfl, hrow .cfill2 rfl, hrow .cfill4 rfl, hrow .cfill8 rfl,
      fun _ h => absurd h List.not_mem_nil⟩
  case chunkSecond =>
    exact decode_error_of_chunk_field (o := .cstore) (lo := 12) (by decide) (opcode_packWord ..) rfl
      (by rwa [(fields_packWord ..).2.1])

/-- Settles O10: a misaligned `cpc`, or one with an invalid byte, is not fetchable, and that fault is taken. -/
theorem fetchFaultTaken : Obligations.FetchFaultTaken := by
  intro s p hturn hrun hbad
  have hnot : ¬s.fetchable = true := fun hfetch => by
    obtain ⟨halign, hvalid⟩ := s.fetchable_iff.mp hfetch
    obtain hmis | ⟨k, hk, hinvalid⟩ := hbad
    · exact hmis halign
    · exact absurd (hvalid k hk) (by simp [hinvalid])
  exact hturn.faultTaken_of_fetchDecode_error hrun (State.fetchDecode_of_not_fetchable hnot)

end Sys2Proof.Machine

namespace Sys2Proof.Machine

/-! ## The host's reset as a step -/

/-- A pending reset is used up, and the reset action is taken whatever the run state (50 R242, 70 R300). -/
theorem step_of_pending_reset {s : State} {rest : List Event} (h : s.pending = .host .reset :: rest) :
    step s = .next (State.hostReset { s with pending := rest }) :=
  step_of_pending_cons h

/-- Reset binds every family by the dispatcher's rule, on the strap as it stands (45 R224, 70 R302). -/
theorem State.hostReset_bind_eq_select (s : State) :
    s.hostReset.bind.cc = select s.strap s.cfg.implCC ∧ s.hostReset.bind.ck = select s.strap s.cfg.implCK ∧
      s.hostReset.bind.hs = select s.strap s.cfg.implHS := by
  rw [State.hostReset_bind]
  exact ⟨rfl, rfl, rfl⟩

/-! ## The statements of 70_reset_and_hazards -/

/-- Settles O48: the reset state is one fixed state, and each of its control registers is read off. -/
theorem resetValues : Obligations.ResetValues :=
  ⟨rfl, rfl, rfl, rfl, rfl, rfl, rfl, rfl, rfl⟩

/-- Settles O49: the step is `State.hostReset`, with no test of the run state; its fields are read off by their
lemmas. -/
theorem hostResetEffect : Obligations.HostResetEffect := by
  intro s rest hreset
  let p : State := { s with pending := rest }
  obtain ⟨hcc, hck, hhs⟩ := p.hostReset_bind_eq_select
  exact ⟨p.hostReset, step_of_pending_reset hreset, p.hostReset_cap, hcc, hck, hhs, p.hostReset_chunksz,
    p.hostReset_run, p.hostReset_cpc, p.hostReset_fcause, p.hostReset_finfo, p.hostReset_mem, p.hostReset_cmem,
    p.hostReset_cfg, p.hostReset_strap, p.hostReset_pending, p.hostReset_chunk_length⟩

end Sys2Proof.Machine

namespace Sys2Proof

/-! ## Encoding what was decoded -/

/-- A word with bits 31:28 zero is its opcode and its five fields packed (30 R91). -/
theorem packWord_fields {w : CmdWord} (h : w.extractLsb' 28 4 = 0#4) :
    packWord (w.extractLsb' 0 8) (w.extractLsb' 8 4) (w.extractLsb' 12 4) (w.extractLsb' 16 4) (w.extractLsb' 20 4)
      (w.extractLsb' 24 4) = w := by
  rw [← append_eq_packWord, ← h]
  apply BitVec.eq_of_getLsbD_eq
  intro k hk
  simp only [BitVec.getLsbD_append, BitVec.getLsbD_extractLsb']
  interval_cases k <;> simp

/-- A word is its opcode, its first field and its 20-bit immediate side by side (30 R95). -/
theorem append_imm_fields (w : CmdWord) : w.extractLsb' 12 20 ++ w.extractLsb' 8 4 ++ w.extractLsb' 0 8 = w := by
  apply BitVec.eq_of_getLsbD_eq
  intro k hk
  simp only [BitVec.getLsbD_append, BitVec.getLsbD_extractLsb']
  interval_cases k <;> simp

section
variable {w : CmdWord} {o : Op} (h : w &&& o.mask = o.pattern)
include h

/-- A bit above the opcode that the row's mask holds is 0 in a word with the row's pattern (30 R98). -/
theorem getLsbD_of_pattern {k : Nat} (hk : 8 ≤ k) (hmask : o.mask.getLsbD k = true) : w.getLsbD k = false :=
  Bool.eq_false_iff.mpr fun hbit => not_pattern_of_unused_bit hk hmask hbit h

/-- A field whose bits from `n` on the row's mask holds is given back by its low `n` bits (30 R94, R98). -/
theorem setWidth_field_of_pattern {lo : Nat} (n : Nat) (hlo : 8 ≤ lo)
    (hmask : ∀ j < 4, n ≤ j → o.mask.getLsbD (lo + j) = true) :
    (w.extractLsb' lo n).setWidth 4 = w.extractLsb' lo 4 := by
  apply BitVec.eq_of_getLsbD_eq
  intro j hj
  simp only [BitVec.getLsbD_setWidth, BitVec.getLsbD_extractLsb', hj, decide_true, Bool.true_and]
  by_cases hn : j < n
  · simp [hn]
  · simp [hn, getLsbD_of_pattern h (k := lo + j) (by omega) (hmask j hj (by omega))]

/-- An operand field that the row's mask holds whole is 0. -/
theorem unused_field_of_pattern {lo : Nat} (hlo : 8 ≤ lo) (hmask : ∀ j < 4, o.mask.getLsbD (lo + j) = true) :
    w.extractLsb' lo 4 = 0#4 :=
  (setWidth_field_of_pattern h 0 hlo fun j hj _ => hmask j hj).symm.trans (by simp)

/-- A chunk-register field, whose upper two bits the row's mask holds, is the field the encoder writes. -/
theorem cregBits_cregField_of_pattern {lo : Nat} (hlo : 8 ≤ lo)
    (hmask : ∀ j < 4, 2 ≤ j → o.mask.getLsbD (lo + j) = true) : cregBits (cregField w lo) = w.extractLsb' lo 4 :=
  (BitVec.ofNat_toNat 4 (w.extractLsb' lo 2)).trans (setWidth_field_of_pattern h 2 hlo hmask)

/-- A row's command other than `SETI`, encoded, is the word: every field is read and written, or held at 0 by the
mask. -/
theorem encode_build_of_ne_seti (hseti : o ≠ .seti) : encode (o.build w) = w := by
  have hf0 := unused_field_of_pattern h (lo := 8) (by decide)
  have hf1 := unused_field_of_pattern h (lo := 12) (by decide)
  have hf2 := unused_field_of_pattern h (lo := 16) (by decide)
  have hf3 := unused_field_of_pattern h (lo := 20) (by decide)
  have hf4 := unused_field_of_pattern h (lo := 24) (by decide)
  have hf5 := unused_field_of_pattern h (lo := 28) (by decide) (by revert hseti; cases o <;> decide)
  have hpack := packWord_fields hf5
  rw [opcode_of_pattern h] at hpack
  refine Eq.trans ?_ hpack
  cases o with
  | seti => exact absurd rfl hseti
  | endRun => rw [hf0 (by decide), hf1 (by decide), hf2 (by decide), hf3 (by decide), hf4 (by decide)]; rfl
  | chunksz => rw [hf1 (by decide), hf2 (by decide), hf3 (by decide), hf4 (by decide)]; rfl
  | cpsafe | cpovl | cpunr => rw [hf3 (by decide), hf4 (by decide)]; rfl
  | cload | cfill1 | cfill2 | cfill4 | cfill8 =>
    rw [hf2 (by decide), hf3 (by decide), hf4 (by decide),
      ← cregBits_cregField_of_pattern h (lo := 8) (by decide) (by decide)]
    rfl
  | cstore =>
    rw [hf2 (by decide), hf3 (by decide), hf4 (by decide),
      ← cregBits_cregField_of_pattern h (lo := 12) (by decide) (by decide)]
    rfl
  | cksum => rw [hf4 (by decide)]; rfl
  | slide => rfl

/-- The row's command, encoded, is the word. -/
theorem encode_build : encode (o.build w) = w := by
  by_cases hseti : o = .seti
  · subst hseti
    have hcode : w.extractLsb' 0 8 = 0x02#8 := opcode_of_pattern h
    calc encode (Op.seti.build w) = w.extractLsb' 12 20 ++ w.extractLsb' 8 4 ++ 0x02#8 :=
          (append_eq_encode_seti (regField w 8) (w.extractLsb' 12 20)).symm
      _ = w := by rw [← hcode, append_imm_fields]
  · exact encode_build_of_ne_seti h hseti

end

theorem wellFormed_build (w : CmdWord) (o : Op) : (o.build w).WellFormed := by
  cases o
  case seti => exact decide_eq_true (Nat.le_of_lt_succ (w.extractLsb' 12 20).isLt)
  all_goals rfl

/-! ## The round trips, and what they give (30 section 3) -/

/-- Settles O1: `decode_encode`. -/
theorem decodeOfEncode : Obligations.DecodeOfEncode := fun _ => decode_encode

/-- Settles O2: a word that decodes has some row's pattern, and encoding that row's command gives the word back. -/
theorem encodeOfDecode : Obligations.EncodeOfDecode := by
  intro w i hdec
  obtain ⟨o, hpat, rfl⟩ := decode_eq_ok_iff.mp hdec
  exact ⟨encode_build hpat, wellFormed_build w o⟩

/-- Settles O4: each word is decoded by evaluation. -/
theorem specWordsDecode : Obligations.SpecWordsDecode := ⟨rfl, rfl, rfl, rfl, rfl, rfl, rfl, rfl, rfl, rfl⟩

/-! ## The pseudo-command `CFILL` -/

theorem encode_opcode (i : Instr) : (encode i).extractLsb' 0 8 = i.op.code := opcode_of_pattern (encode_and_mask i)

open Machine (expandCfill)

/-- `CFILL` expands for the four unit sizes and nothing else, to the row of that size (30 R103). -/
theorem expandCfill_eq_some {cd : CReg} {ra : Reg} {k : Nat} {i : Instr} (h : expandCfill cd ra k = some i) :
    (k = 1 ∧ i.op = .cfill1) ∨ (k = 2 ∧ i.op = .cfill2) ∨ (k = 4 ∧ i.op = .cfill4) ∨ (k = 8 ∧ i.op = .cfill8) := by
  unfold expandCfill at h
  split at h <;> cases h <;> simp [Instr.op]

theorem expandCfill_eq_none {cd : CReg} {ra : Reg} {k : Nat} (h : k ∉ [1, 2, 4, 8]) : expandCfill cd ra k = none := by
  simp only [List.mem_cons, List.not_mem_nil, or_false, not_or] at h
  obtain ⟨h1, h2, h4, h8⟩ := h
  rw [expandCfill] <;> assumption

/-- Settles O6: the opcode of the expansion is its row's, 0x24 to 0x27 in the order of the unit sizes. -/
theorem pseudoFillExpands : Obligations.PseudoFillExpands := by
  refine ⟨fun cd ra => ⟨rfl, rfl, rfl, rfl⟩, fun cd ra k i h => ?_, fun cd ra k => expandCfill_eq_none⟩
  rw [encode_opcode]
  obtain ⟨rfl, hop⟩ | ⟨rfl, hop⟩ | ⟨rfl, hop⟩ | ⟨rfl, hop⟩ := expandCfill_eq_some h <;> rw [hop] <;> decide

end Sys2Proof

namespace Sys2Proof.Machine

/-! ## Memories reached by writes -/

/-- A memory reached from another by writes whose every byte lies in a set of addresses. -/
inductive WritesWithin (P : Nat → Prop) (m : Memory) : Memory → Prop
  | refl : WritesWithin P m m
  | write {m' : Memory} (h : WritesWithin P m m') (a : Nat) (v : List Byte)
      (hv : ∀ x, a ≤ x → x < a + v.length → P x) : WritesWithin P m (Memory.write m' a v)

section
variable {P : Nat → Prop} {m m' : Memory} (h : WritesWithin P m m')
include h

theorem WritesWithin.mono {Q : Nat → Prop} (hPQ : ∀ x, P x → Q x) : WritesWithin Q m m' := by
  induction h with
  | refl => exact .refl
  | write _ a v hv ih => exact ih.write a v fun x hx hy => hPQ x (hv x hx hy)

/-- Outside the set nothing changes. -/
theorem WritesWithin.readByte_eq {x : Nat} (hx : ¬P x) : Memory.readByte m' x = Memory.readByte m x := by
  induction h with
  | refl => rfl
  | write _ a v hv ih => rw [Memory.readByte_write_outside _ fun hin => hx (hv x hin.1 hin.2), ih]

theorem WritesWithin.wf (hm : Memory.wf m) : Memory.wf m' := by
  induction h with
  | refl => exact hm
  | write _ a v _ ih => exact Memory.write_wf ih a v

/-- Every listed cell is an old one or lies in the set. -/
theorem WritesWithin.mem {c : Host.Cell} (hc : c ∈ m') : c ∈ m ∨ P c.1 := by
  induction h with
  | refl => exact .inl hc
  | write _ a v hv ih =>
    obtain hold | ⟨hlo, hhi, -⟩ := Memory.mem_write hc
    · exact ih hold
    · exact .inr (hv _ hlo hhi)

end

/-! ## The bytes a command writes (20 R63) -/

/-- An address of a list of regions, below 2^64. -/
def AddressIn (rs : List Region) (x : Nat) : Prop := validAddr rs x = true ∧ x < 2 ^ 64

/-- The bytes a command may write and that exist. -/
def WritableBy (i : Instr) (s : State) (a : Nat) : Prop := mayWrite i s a ∧ AddressIn s.cfg.valid a

theorem RangeValid.mem {s : State} {a n x : Nat} (h : RangeValid s a n) (hlo : a ≤ x) (hhi : x < a + n) :
    AddressIn s.cfg.valid x := by
  obtain rfl | ⟨hend, hvalid⟩ := h
  · omega
  · exact ⟨hvalid x hlo hhi, by omega⟩

theorem State.slackBytes_length_eq (s : State) (dist : Nat) :
    (s.slackBytes dist).length = if dist < s.W then s.W - 1 else 0 := by
  rw [s.slackBytes_length]
  split <;> split <;> omega

theorem State.slackBytes_length_le (s : State) (dist : Nat) : (s.slackBytes dist).length ≤ s.W - 1 := by
  rw [s.slackBytes_length]
  split <;> omega

/-- A command that completes changes data memory by writes inside its "may write" set, at valid addresses; a fault and
every other command leave it alone. -/
theorem exec_writesWithin {i : Instr} {s t : State} (hchunk : ∀ j ∈ readsChunk i, (s.chunk j).length = s.W)
    (h : exec i s = .next t) : WritesWithin (WritableBy i s) s.mem t.mem := by
  cases i with
  | cpsafe ra rb rc =>
    obtain ⟨c, v, rfl⟩ | ⟨-, rfl⟩ | ⟨-, -, -, hdst, rfl⟩ := exec_cpsafe_outcome h
    · exact .refl
    · exact .refl
    · refine .write .refl _ _ fun x hlo hhi => ?_
      rw [Memory.read_length] at hhi
      exact ⟨⟨hlo, hhi⟩, hdst.mem hlo hhi⟩
  | cpovl ra rb rc =>
    obtain ⟨c, v, rfl⟩ | ⟨-, -, rfl⟩ | ⟨-, hlen, -, hdst, rfl⟩ := exec_cpovl_outcome h
    · exact .refl
    · exact .refl
    · have hW := s.W_pos
      refine .write (.write .refl _ _ fun x hlo hhi => ?_) _ _ fun x hlo hhi => ?_
      · rw [patternBytes_length] at hhi
        exact ⟨⟨by omega, hlo, by omega⟩, hdst.mem hlo (by omega)⟩
      · have hslack := s.slackBytes_length_le (s.num rb)
        exact ⟨⟨by omega, by omega, by rwa [← s.slackBytes_length_eq]⟩, hdst.mem (by omega) (by omega)⟩
  | cpunr ra rb rc =>
    obtain ⟨c, v, rfl⟩ | ⟨-, rfl⟩ | ⟨hlen, -, -, hdst, rfl⟩ := exec_cpunr_outcome h
    · exact .refl
    · exact .refl
    · have hW := s.W_pos
      refine .write (.write .refl _ _ fun x hlo hhi => ?_) _ _ fun x hlo hhi => ?_
      · rw [Memory.read_length] at hhi
        exact ⟨⟨by omega, hlo, by omega⟩, hdst.mem hlo (by omega)⟩
      · rw [State.anyBytes_length] at hhi
        exact ⟨⟨by omega, by omega, hhi⟩, hdst.mem (by omega) (by omega)⟩
  | cstore ra cs =>
    obtain ⟨c, v, rfl⟩ | ⟨hdst, rfl⟩ := exec_cstore_outcome h
    · exact .refl
    · refine .write .refl _ _ fun x hlo hhi => ?_
      rw [hchunk cs (List.mem_singleton_self cs)] at hhi
      exact ⟨⟨hlo, hhi⟩, hdst.mem hlo hhi⟩
  | slide ra rb rc rd re =>
    obtain ⟨c, v, rfl⟩ | ⟨hhead, hprev, -, rfl⟩ := exec_slide_outcome h
    · exact .refl
    · refine .write (.write .refl _ _ fun x hlo hhi => ?_) _ _ fun x hlo hhi => ?_ <;>
        rw [slidBytes_length] at hhi
      · exact ⟨.inl ⟨hlo, hhi⟩, hhead.mem hlo hhi⟩
      · exact ⟨.inr ⟨hlo, hhi⟩, hprev.mem hlo hhi⟩
  | endRun | seti | chunksz => cases h; exact .refl
  | cload cd ra => obtain ⟨c, v, rfl⟩ | ⟨-, rfl⟩ := exec_cload_outcome h <;> exact .refl
  | cfill1 | cfill2 | cfill4 | cfill8 => obtain ⟨c, v, rfl⟩ | ⟨-, rfl⟩ := fillChunk_outcome h <;> exact .refl
  | cksum rd ra rb rc => obtain ⟨c, v, rfl⟩ | ⟨-, rfl⟩ := exec_cksum_outcome h <;> exact .refl

/-- A command changes no byte outside its "may write" set. -/
theorem exec_readByte_of_not_mayWrite {i : Instr} {s t : State} {a : Nat}
    (hchunk : ∀ j, (s.chunk j).length = s.W) (h : exec i s = .next t) (ha : ¬mayWrite i s a) :
    Memory.readByte t.mem a = Memory.readByte s.mem a :=
  (exec_writesWithin (fun j _ => hchunk j) h).readByte_eq fun hw => ha hw.1

/-! ## What each step does to the two memories -/

/-- One byte written by the host or another agent at a valid address. -/
theorem writesWithin_byte {rs : List Region} {a : Word} (m : Memory) (b : Byte) (ha : validAddr rs a.toNat = true) :
    WritesWithin (AddressIn rs) m (Memory.write m a.toNat [b]) := by
  refine .write .refl _ _ fun x hlo hhi => ?_
  obtain rfl : x = a.toNat := by simp only [List.length_singleton] at hhi; omega
  exact ⟨ha, a.isLt⟩

theorem writeDataByte_next {a : Word} {b : Byte} {s t : State} (h : writeDataByte a b s = .next t) :
    validAddr s.cfg.valid a.toNat = true ∧ t = s.memWrite a.toNat [b] := by
  unfold writeDataByte at h
  split at h <;> cases h
  next hvalid => exact ⟨hvalid, rfl⟩

theorem hostWriteCmd_next {a : Word} {b : Byte} {s t : State} (h : hostWriteCmd a b s = .next t) :
    s.run ≠ .running ∧ validAddr s.cfg.cmdValid a.toNat = true ∧
      t = { s with cmem := Memory.write s.cmem a.toNat [b] } := by
  unfold hostWriteCmd at h
  split at h
  · cases h
  · split at h <;> cases h
    next hrun hvalid => exact ⟨hrun, hvalid, rfl⟩

/-- The host's actions on the two memories: one data byte, one command byte, or neither. -/
theorem hostAct_memories {a : HostAction} {s t : State} (h : hostAct a s = .next t) :
    (t.mem = s.mem ∧ t.cmem = s.cmem) ∨
      (∃ x b, a = .writeMem x b ∧ validAddr s.cfg.valid x.toNat = true ∧ t = s.memWrite x.toNat [b]) ∨
      ∃ x b, a = .writeCmd x b ∧ s.run ≠ .running ∧ validAddr s.cfg.cmdValid x.toNat = true ∧
        t = { s with cmem := Memory.write s.cmem x.toNat [b] } := by
  cases a with
  | writeMem x b => exact .inr (.inl ⟨x, b, rfl, writeDataByte_next h⟩)
  | writeCmd x b => exact .inr (.inr ⟨x, b, rfl, hostWriteCmd_next h⟩)
  | readCsr | reset => cases h; exact .inl ⟨rfl, rfl⟩
  | start => rw [hostAct, hostStart_eq] at h; cases h; exact .inl ⟨rfl, rfl⟩
  | writeCsr | readReg | writeReg | readMem =>
    simp only [hostAct, hostWriteCsr, hostReadReg, hostWriteReg, hostReadMem] at h
    split at h <;> cases h <;> exact .inl ⟨rfl, rfl⟩

/-- A step on the two memories: the sequencer's, or one byte of one of them by the host or another agent, or neither.
Command memory is written by the host alone, while no run is on (20 section 6). -/
theorem step_memories {s t : State} (h : step s = .next t) :
    (∃ p, SequencerTurn s p ∧ sequencerStep p = .next t) ∨ (t.mem = s.mem ∧ t.cmem = s.cmem) ∨
      (∃ x : Word, ∃ b, validAddr s.cfg.valid x.toNat = true ∧ t.mem = Memory.write s.mem x.toNat [b] ∧
        t.cmem = s.cmem) ∨
      ∃ x b rest, s.pending = .host (.writeCmd x b) :: rest ∧ s.run ≠ .running ∧
        validAddr s.cfg.cmdValid x.toNat = true ∧ t.mem = s.mem ∧ t.cmem = Memory.write s.cmem x.toNat [b] := by
  match hp : s.pending with
  | [] => exact .inl ⟨s, .inl ⟨hp, rfl⟩, step_of_pending_nil hp ▸ h⟩
  | e :: rest =>
    rw [step_of_pending_cons hp] at h
    match e with
    | .sequencer => exact .inl ⟨_, .inr ⟨rest, hp, rfl⟩, h⟩
    | .setStrap caps => cases h; exact .inr (.inl ⟨rfl, rfl⟩)
    | .agentWrite x b =>
      obtain ⟨hvalid, rfl⟩ := writeDataByte_next h
      exact .inr (.inr (.inl ⟨x, b, hvalid, rfl, rfl⟩))
    | .host a =>
      obtain hsame | ⟨x, b, -, hvalid, rfl⟩ | ⟨x, b, rfl, hrun, hvalid, rfl⟩ := hostAct_memories h
      · exact .inr (.inl hsame)
      · exact .inr (.inr (.inl ⟨x, b, hvalid, rfl, rfl⟩))
      · exact .inr (.inr (.inr ⟨x, b, rest, rfl, hrun, hvalid, rfl, rfl⟩))

theorem sequencerStep_mem {s t : State} (hchunk : ∀ j, (s.chunk j).length = s.W) (h : sequencerStep s = .next t) :
    WritesWithin (AddressIn s.cfg.valid) s.mem t.mem := by
  obtain ⟨-, ⟨c, v, -, rfl⟩ | ⟨i, -, hx⟩⟩ := sequencerStep_cases h
  · exact .refl
  · exact (exec_writesWithin (fun j _ => hchunk j) hx).mono fun x hw => hw.2

/-- A step changes each memory by writes at its valid addresses only, whoever's step it is. -/
theorem step_writesWithin {s t : State} (hchunk : ∀ j, (s.chunk j).length = s.W) (h : step s = .next t) :
    WritesWithin (AddressIn s.cfg.valid) s.mem t.mem ∧ WritesWithin (AddressIn s.cfg.cmdValid) s.cmem t.cmem := by
  obtain ⟨p, hturn, hseq⟩ | ⟨hm, hc⟩ | ⟨x, b, hvalid, hm, hc⟩ | ⟨x, b, rest, -, -, hvalid, hm, hc⟩ := step_memories h
  · obtain ⟨-, -, -, -, -, hc, -⟩ := sequencerStep_sameSystem hseq
    have hm := sequencerStep_mem (by rw [hturn.eq_pending]; exact hchunk) hseq
    rw [hturn.eq_pending] at hm hc
    exact ⟨hm, hc ▸ .refl⟩
  · rw [hm, hc]; exact ⟨.refl, .refl⟩
  · rw [hm, hc]; exact ⟨writesWithin_byte _ b hvalid, .refl⟩
  · rw [hm, hc]; exact ⟨.refl, writesWithin_byte _ b hvalid⟩

/-! ## The invariant, part by part -/

theorem MemoryInv.of_writesWithin {s t : State} (hs : MemoryInv s) (hcfg : t.cfg = s.cfg)
    (hm : WritesWithin (AddressIn s.cfg.valid) s.mem t.mem)
    (hc : WritesWithin (AddressIn s.cfg.cmdValid) s.cmem t.cmem) : MemoryInv t where
  mem_wf := hm.wf hs.mem_wf
  cmem_wf := hc.wf hs.cmem_wf
  mem_valid c hin := hcfg ▸ (hm.mem hin).elim (hs.mem_valid c) id
  cmem_valid c hin := hcfg ▸ (hc.mem hin).elim (hs.cmem_valid c) id

/-- The binding part needs only that what reset fixes is as before and each chunk register is `W` bytes long. -/
theorem BindingInv.of_fixed {s t : State} (hs : BindingInv s) (hcfg : t.cfg = s.cfg) (hcap : t.cap = s.cap)
    (hbind : t.bind = s.bind) (hsz : t.chunksz = s.chunksz) (hlen : ∀ j, (t.chunk j).length = s.W) : BindingInv t where
  bind_selected := by rw [hbind, hcap, hcfg, hs.bind_selected]
  width_selected := by rw [hbind, hsz, hcfg, hs.width_selected]
  chunk_width j := by rw [hlen, State.W, State.W, hsz]

theorem FaultInv.of_sameStatus {s t : State} (hs : FaultInv s) (h : SameStatus s t) : FaultInv t := by
  obtain ⟨hrun, hcause, hinfo⟩ := h
  exact ⟨by rw [hrun, hcause, hs.cause_iff], by rw [hcause, hinfo]; exact hs.info_zero⟩

/-- A change of the run state between states other than FAULTED keeps the fault part. -/
theorem FaultInv.setRun {s : State} {r : RunState} (hs : FaultInv s) (hrun : s.run ≠ .faulted) (hr : r ≠ .faulted) :
    FaultInv (s.setRun r) :=
  ⟨⟨fun h => absurd h hr, fun h => absurd (hs.cause_iff.mpr h) hrun⟩, hs.info_zero⟩

theorem FaultInv.takeFault (s : State) (c : Cause) (v : Word) : FaultInv (s.takeFault c v) := ⟨by simp, by simp⟩

/-- Every chunk register keeps its length under a write of `W` bytes to one of them. -/
theorem State.chunk_setChunk_length {s : State} {c : CReg} {v : Chunk} (hv : v.length = s.W) {j : CReg}
    (hj : (s.chunk j).length = s.W) : ((s.setChunk c v).chunk j).length = s.W := by
  by_cases h : j = c
  · rw [h, State.chunk_setChunk_same, hv]
  · rw [State.chunk_setChunk_ne s v h, hj]

/-- A command leaves `W` bytes in every chunk register (10 R41). -/
theorem exec_chunk_length {i : Instr} {s t : State} {j : CReg} (hj : (s.chunk j).length = s.W)
    (h : exec i s = .next t) : (t.chunk j).length = s.W := by
  cases i with
  | cload cd ra =>
    obtain ⟨c, v, rfl⟩ | ⟨-, rfl⟩ := exec_cload_outcome h
    · exact hj
    · exact State.chunk_setChunk_length (Memory.read_length ..) hj
  | cfill1 | cfill2 | cfill4 | cfill8 =>
    obtain ⟨c, v, rfl⟩ | ⟨-, rfl⟩ := fillChunk_outcome h
    · exact hj
    · exact State.chunk_setChunk_length (fill_length ..) hj
  | endRun | seti | chunksz | cpsafe | cpovl | cpunr | cstore | cksum | slide =>
    rw [exec_chunk_of_not_mem_writesChunk List.not_mem_nil h, hj]

theorem sequencerStep_chunk_length {s t : State} {j : CReg} (hj : (s.chunk j).length = s.W)
    (h : sequencerStep s = .next t) : (t.chunk j).length = s.W := by
  obtain ⟨-, ⟨c, v, -, rfl⟩ | ⟨i, -, hx⟩⟩ := sequencerStep_cases h
  · exact hj
  · exact exec_chunk_length hj hx

theorem exec_faultInv {i : Instr} {s t : State} (hs : FaultInv s) (hrun : s.run = .running) (h : exec i s = .next t) :
    FaultInv t := by
  obtain ⟨c, v, hx⟩ | ⟨-, hx⟩ | ⟨-, u, hx, hu⟩ := exec_cases i s <;> rw [hx] at h <;> cases h
  · exact .takeFault s c v
  · exact hs.setRun (by simp [hrun]) (by simp)
  · rw [hu]; exact hs.of_sameStatus ⟨rfl, rfl, rfl⟩

theorem sequencerStep_faultInv {s t : State} (hs : FaultInv s) (h : sequencerStep s = .next t) : FaultInv t := by
  obtain ⟨hrun, ⟨c, v, -, rfl⟩ | ⟨i, -, hx⟩⟩ := sequencerStep_cases h
  · exact .takeFault s c v
  · exact exec_faultInv hs hrun hx

/-- Nothing of the binding and fault parts looks at the list of pending events. -/
theorem BindingInv.setPending {s : State} (hs : BindingInv s) (rest : List Event) :
    BindingInv { s with pending := rest } :=
  ⟨hs.bind_selected, hs.width_selected, hs.chunk_width⟩

theorem FaultInv.setPending {s : State} (hs : FaultInv s) (rest : List Event) : FaultInv { s with pending := rest } :=
  ⟨hs.cause_iff, hs.info_zero⟩

/-- Reset binds anew and clears the fault, whatever stood before (70 R300, R301). -/
theorem State.hostReset_bindingInv (s : State) : BindingInv s.hostReset := ⟨rfl, rfl, s.hostReset_chunk_length⟩

theorem State.hostReset_faultInv (s : State) : FaultInv s.hostReset := ⟨by simp, fun _ => rfl⟩

theorem step_bindingInv {s t : State} (hs : BindingInv s) (h : step s = .next t) : BindingInv t := by
  obtain ⟨p, hturn, hseq⟩ | ⟨rest, -, rfl⟩ | ⟨rest, -, rfl⟩ | ⟨e, rest, -, -, -, -, hkeep⟩ := step_cases h
  · have hp : BindingInv p := hturn.eq_pending ▸ hs.setPending _
    obtain ⟨hcfg, -, hcap, hbind, hsz, -⟩ := sequencerStep_sameSystem hseq
    exact hp.of_fixed hcfg hcap hbind hsz fun j => sequencerStep_chunk_length (hp.chunk_width j) hseq
  · exact State.hostReset_bindingInv _
  · exact hs.of_fixed rfl rfl rfl rfl hs.chunk_width
  · refine hs.of_fixed hkeep.cfg hkeep.cap hkeep.bind hkeep.chunksz fun j => ?_
    rw [State.chunk, hkeep.chunks]
    exact hs.chunk_width j

theorem step_faultInv {s t : State} (hs : FaultInv s) (h : step s = .next t) : FaultInv t := by
  obtain ⟨p, hturn, hseq⟩ | ⟨rest, -, rfl⟩ | ⟨rest, -, rfl⟩ | ⟨e, rest, -, -, -, -, hkeep⟩ := step_cases h
  · exact sequencerStep_faultInv (hturn.eq_pending ▸ hs.setPending _) hseq
  · exact State.hostReset_faultInv _
  · split
    next hstopped =>
      have hrun : s.run ≠ .faulted := by obtain hr | hr := hstopped <;> simp [hr]
      exact (hs.setPending rest).setRun hrun (by simp)
    · exact hs.of_sameStatus ⟨rfl, rfl, rfl⟩
  · exact hs.of_sameStatus ⟨hkeep.run, hkeep.fcause, hkeep.finfo⟩

/-! ## The statements about every step -/

/-- Settles O46: each part of the invariant by its own lemma, the memories by the writes a step can make. -/
theorem stepKeepsInvariant : Obligations.StepKeepsInvariant := by
  rintro s t ⟨hmemory, hbinding, hfault⟩ h
  obtain ⟨hm, hc⟩ := step_writesWithin hbinding.chunk_width h
  obtain ⟨hcfg, -⟩ := capabilityRegistersFrozen s t h
  exact ⟨hmemory.of_writesWithin hcfg hm hc, step_bindingInv hbinding h, step_faultInv hfault h⟩

/-- Settles O47: the memories of the reset state are empty, and the rest is read off that one state. -/
theorem resetMeetsInvariant : Obligations.ResetMeetsInvariant := by
  obtain ⟨hmem, hcmem⟩ := State.reset_mem_wf
  exact ⟨⟨hmem, hcmem, fun _ h => absurd h List.not_mem_nil, fun _ h => absurd h List.not_mem_nil⟩,
    ⟨rfl, rfl, by decide⟩, ⟨by decide, fun _ => rfl⟩⟩

/-- Settles O41: a command's writes stay within its "may write" set. -/
theorem writesWithinFootprint : Obligations.WritesWithinFootprint :=
  fun _ _ _ _ hchunk h ha => exec_readByte_of_not_mayWrite hchunk h ha

theorem Memory.readByte_write_byte (m : Memory) (a : Nat) (b : Byte) (x : Nat) :
    Memory.readByte (Memory.write m a [b]) x = if x = a then b else Memory.readByte m x := by
  by_cases h : x = a
  · rw [if_pos h, h]; exact Memory.readByte_write_inside m a (v := [b]) (i := 0) Nat.zero_lt_one
  · rw [if_neg h, Memory.readByte_write_outside m (by simp only [List.length_singleton]; omega)]

/-- Settles O43: of the moves of a step on the two memories, only the host's write changes command memory. -/
theorem commandMemoryChangesOnlyByHost : Obligations.CommandMemoryChangesOnlyByHost := by
  intro s t h hne
  obtain ⟨p, hturn, hseq⟩ | ⟨-, hc⟩ | ⟨x, b, -, -, hc⟩ | ⟨x, b, rest, hp, hrun, hvalid, -, hc⟩ := step_memories h
  · obtain ⟨-, -, -, -, -, hc, -⟩ := sequencerStep_sameSystem hseq
    rw [hturn.eq_pending] at hc
    exact absurd hc hne
  · exact absurd hc hne
  · exact absurd hc hne
  · exact ⟨hrun, x, b, rest, hp, hvalid, fun y => by rw [hc, Memory.readByte_write_byte]⟩

/-- Settles O45: the sequencer does not step while FAULTED, a start is ignored, and every other move but reset keeps
the control registers. -/
theorem faultStateIsSticky : Obligations.FaultStateIsSticky := by
  intro s t hrun h hreset
  obtain ⟨p, hturn, hseq⟩ | ⟨rest, hp, -⟩ | ⟨rest, -, rfl⟩ | ⟨e, rest, -, -, -, -, hkeep⟩ := step_cases h
  · have hp := (sequencerStep_cases hseq).1
    rw [hturn.run_eq, hrun] at hp
    cases hp
  · exact absurd (by rw [hp]; rfl) hreset
  · simp [hrun]
  · exact ⟨hkeep.run.trans hrun, hkeep.fcause, hkeep.finfo⟩

end Sys2Proof.Machine

namespace Sys2Proof.Machine

/-! ## The sequencer's turn -/

/-- The command `decodeBytes` reads at an admitted `cpc` is the one fetched (40 R120). -/
theorem State.fetchDecode_of_decodeBytes {s : State} {i : Instr} {rest : List Byte} (hfetch : s.fetchable = true)
    (hdec : decodeBytes (Memory.read s.cmem s.cpc.toNat 4) = .ok (i, rest)) : s.fetchDecode = .ok i := by
  have hbytes : decodeBytes s.fetchBytes = .ok (i, rest) := hdec
  rw [State.fetchDecode, if_pos hfetch, hbytes]

/-- On its turn a RUNNING sequencer runs the command fetched. -/
theorem SequencerTurn.step_eq_exec {s p : State} {i : Instr} (h : SequencerTurn s p) (hrun : s.run = .running)
    (hfd : s.fetchDecode = .ok i) : step s = exec i p := by
  rw [h.step_eq, sequencerStep_of_fetchDecode (h.run_eq.trans hrun) (h.fetchDecode_eq.trans hfd)]

/-- A command always answers a next state. -/
theorem exec_next (i : Instr) (s : State) : ∃ t, exec i s = .next t := by
  obtain ⟨c, v, hx⟩ | ⟨-, hx⟩ | ⟨-, u, hx, -⟩ := exec_cases i s <;> exact ⟨_, hx⟩

theorem sequencerStep_next {s : State} (hrun : s.run = .running) : ∃ t, sequencerStep s = .next t := by
  rw [sequencerStep_of_running hrun]
  cases s.fetchDecode with
  | ok i => exact exec_next i s
  | error f => exact ⟨_, rfl⟩

/-! ## The statements of the step cycle -/

/-- Settles O9: the fetch is admitted and its bytes decode, so either form of the turn runs the command. -/
theorem stepRunsDecodedInstruction : Obligations.StepRunsDecodedInstruction := by
  intro s i rest hrun halign hvalid hdec
  have hfd := State.fetchDecode_of_decodeBytes (s.fetchable_iff.mpr ⟨halign, hvalid⟩) hdec
  exact ⟨fun hp => SequencerTurn.step_eq_exec (.inl ⟨hp, rfl⟩) hrun hfd,
    fun hp => SequencerTurn.step_eq_exec (.inr ⟨rest, hp, rfl⟩) hrun hfd⟩

/-- Settles O12: the step is the sequencer's, and that stops. -/
theorem noStepUnlessRunning : Obligations.NoStepUnlessRunning := by
  intro s hrun hturn
  obtain ⟨p, hp⟩ : ∃ p, SequencerTurn s p := by
    obtain hnil | ⟨rest, hcons⟩ := hturn
    · exact ⟨_, .inl ⟨hnil, rfl⟩⟩
    · exact ⟨_, .inr ⟨rest, hcons, rfl⟩⟩
  rw [hp.step_eq, sequencerStep_of_not_running (hp.run_eq ▸ hrun)]

/-- Settles O13: a command always answers a next state, and of the run states a step of the sequencer can leave, DONE
comes from `END` alone. -/
theorem runningSequencerAlwaysSteps : Obligations.RunningSequencerAlwaysSteps := by
  intro s p hturn hrun
  obtain ⟨t, ht⟩ := sequencerStep_next (hturn.run_eq.trans hrun)
  refine ⟨t, hturn.step_eq.trans ht, fun hstop => ?_⟩
  obtain ⟨-, hend, hother⟩ := sequencerStep_run ht
  rw [hturn.fetchDecode_eq] at hend
  by_cases hdone : t.run = .done
  · exact .inl (hend.mp hdone)
  · exact .inr ((hother hdone).resolve_left hstop).1

/-! ## Control registers -/

/-- Three 2-bit fields side by side, as a number (10 R34). -/
theorem toNat_pack_selectors : ∀ a b c : BitVec 2,
    ((c ++ b ++ a).setWidth 64).toNat = a.toNat + 4 * b.toNat + 16 * c.toNat := by decide

/-- Settles O51: each register is read off; `FCAUSE` by the cause held, `BIND` by its three fields, and no number above
6 has a case. -/
theorem controlRegisterReads : Obligations.ControlRegisterReads := by
  refine ⟨⟨rfl, rfl, rfl, rfl⟩, fun s => ?_⟩
  have hstatus {r : RunState} (h : s.run = r) : s.csr 0 = r.status := congrArg RunState.status h
  have hcause {c : Option Cause} (h : s.fcause = c) : s.csr 2 = causeCode c := congrArg causeCode h
  have hnone : ∀ n, 7 ≤ n → s.csr n = 0 := fun n hn => by
    rw [State.csr] <;> omega
  exact ⟨hstatus, hstatus, hstatus, hstatus, rfl, hcause, hcause, hcause, hcause, hcause, hcause, hcause, hcause, rfl,
    BitVec.toNat_setWidth_of_le (by decide), toNat_pack_selectors _ _ _, s.toNat_ofNat_W, hnone⟩

/-! ## Host actions -/

theorem step_of_pending_host {s : State} {a : HostAction} {rest : List Event} (h : s.pending = .host a :: rest) :
    step s = hostAct a { s with pending := rest } := step_of_pending_cons h

/-- Settles O53: the step is the host's action on the state without the event; each clause is one branch of that
action. -/
theorem hostActionEffects : Obligations.HostActionEffects := by
  rintro s rest a p hp rfl
  rw [step_of_pending_host hp]
  refine ⟨?readCsr, ?writeCsr, ?readReg, ?readRegRunning, ?writeRegRunning, ?writeReg, ?writeCmdRunning, ?writeCmd,
    ?readMem, ?writeMem⟩
  case readCsr => rintro n rfl; rfl
  case writeCsr =>
    rintro n v rfl
    exact (apply_ite _ _ _ _).symm
  case readReg => rintro i rfl hrun; exact if_neg hrun
  case readRegRunning => rintro i rfl hrun; exact if_pos hrun
  case writeRegRunning => rintro i v rfl hrun; exact if_pos hrun
  case writeReg =>
    rintro i v rfl hrun
    exact ⟨_, if_neg hrun, State.reg_setReg_same _ i v, fun r hr => State.reg_setReg_ne _ v hr, rfl⟩
  case writeCmdRunning => rintro x b rfl hrun; exact if_pos hrun
  case writeCmd =>
    rintro x b rfl hrun hvalid
    exact ⟨_, (if_neg hrun).trans (if_pos hvalid), rfl, Memory.readByte_write_byte _ _ b⟩
  case readMem => rintro x rfl hvalid; exact if_pos hvalid
  case writeMem =>
    rintro x b rfl hvalid
    exact ⟨_, if_pos hvalid, rfl, Memory.readByte_write_byte _ _ b⟩

end Sys2Proof.Machine

namespace Sys2Proof.Machine

/-! ## The two sums of a checksum (spec 43 R181, R182) -/

/-- The two sums, as they are packed: `A` then `B`. -/
def sums (state : BitVec 32) : Nat × Nat := (sumA state, sumB state)

/-- A state from its two sums. -/
def packSums (p : Nat × Nat) : BitVec 32 := BitVec.ofNat 32 (p.2 * 65536 + p.1)

/-- Both sums reduced, where the recurrence starts. -/
def reducedSums (state : BitVec 32) : Nat × Nat := (sumA state % ckBase, sumB state % ckBase)

theorem checksum_eq_pack (state : BitVec 32) (d : List Byte) :
    checksum state d = packSums (d.foldl sumByte (reducedSums state)) := rfl

theorem sums_checksum_eq (state : BitVec 32) (d : List Byte) :
    sums (checksum state d) = d.foldl sumByte (reducedSums state) := sums_checksum state d

theorem reducedSums_lt (state : BitVec 32) : (reducedSums state).1 < ckBase ∧ (reducedSums state).2 < ckBase :=
  ⟨Nat.mod_lt _ (by decide), Nat.mod_lt _ (by decide)⟩

theorem canonical_checksum (state : BitVec 32) (d : List Byte) : Canonical (checksum state d) := by
  have hlt := foldl_sumByte_lt (reducedSums_lt state) d
  rw [← sums_checksum_eq] at hlt
  exact hlt

/-- The sums of a canonical state are reduced already. -/
theorem reducedSums_of_canonical {state : BitVec 32} (h : Canonical state) : reducedSums state = sums state := by
  rw [reducedSums, Nat.mod_eq_of_lt h.1, Nat.mod_eq_of_lt h.2]; rfl

theorem packSums_sums (state : BitVec 32) : packSums (sums state) = state := by
  have hdiv : state.toNat / 65536 * 65536 + state.toNat % 65536 = state.toNat := by omega
  rw [packSums, sums, sumA_eq, sumB_eq, hdiv, BitVec.ofNat_toNat, BitVec.setWidth_eq]

/-- A state is its two sums packed, as a number. -/
theorem toNat_eq_sums (state : BitVec 32) : state.toNat = (sums state).2 * 65536 + (sums state).1 := by
  rw [sums, sumA_eq, sumB_eq]; omega

theorem checksum_toNat (state : BitVec 32) (d : List Byte) :
    (checksum state d).toNat =
      (d.foldl sumByte (reducedSums state)).2 * 65536 + (d.foldl sumByte (reducedSums state)).1 := by
  rw [toNat_eq_sums, sums_checksum_eq]

theorem reducedSums_eq (state : BitVec 32) :
    reducedSums state = (state.toNat % 65536 % 65521, state.toNat / 65536 % 65521) := by
  rw [reducedSums, sumA_eq, sumB_eq]; rfl

/-! ## The closed form -/

/-- Each byte times its distance from the end (43 section 1). -/
def weightedSum (d : List Byte) : Nat := ((List.range d.length).map fun i => (d.length - i) * (d.getD i 0).toNat).sum

theorem weightedSum_cons (b : Byte) (d : List Byte) :
    weightedSum (b :: d) = (d.length + 1) * b.toNat + weightedSum d := by
  rw [weightedSum, List.length_cons, List.range_succ_eq_map, List.map_cons, List.sum_cons, List.map_map]
  simp [weightedSum, Function.comp_def]

/-- Both sums of the recurrence without the reductions on the way, which change nothing modulo 65521. -/
theorem foldl_sumByte_eq (d : List Byte) (p : Nat × Nat) (hp : p.1 < ckBase ∧ p.2 < ckBase) :
    d.foldl sumByte p =
      ((p.1 + (d.map fun b => b.toNat).sum) % ckBase, (p.2 + d.length * p.1 + weightedSum d) % ckBase) := by
  induction d generalizing p with
  | nil => simp [weightedSum, Nat.mod_eq_of_lt hp.1, Nat.mod_eq_of_lt hp.2]
  | cons b d ih =>
    rw [List.foldl_cons, ih _ (sumByte_lt p b), weightedSum_cons, List.map_cons, List.sum_cons, List.length_cons]
    have ha : (p.1 + b.toNat) % ckBase ≡ p.1 + b.toNat [MOD ckBase] := Nat.mod_modEq ..
    have hb : (p.2 + (p.1 + b.toNat) % ckBase) % ckBase ≡ p.2 + (p.1 + b.toNat) [MOD ckBase] :=
      (Nat.mod_modEq ..).trans (ha.add_left p.2)
    refine Prod.ext ?sumA ?sumB
    case sumA =>
      calc ((p.1 + b.toNat) % ckBase + (d.map fun b => b.toNat).sum) % ckBase
          = (p.1 + b.toNat + (d.map fun b => b.toNat).sum) % ckBase := ha.add_right _
        _ = (p.1 + (b.toNat + (d.map fun b => b.toNat).sum)) % ckBase := by rw [Nat.add_assoc]
    case sumB =>
      calc ((p.2 + (p.1 + b.toNat) % ckBase) % ckBase + d.length * ((p.1 + b.toNat) % ckBase) + weightedSum d) % ckBase
          = (p.2 + (p.1 + b.toNat) + d.length * (p.1 + b.toNat) + weightedSum d) % ckBase :=
            (hb.add (ha.mul_left _)).add_right _
        _ = (p.2 + (d.length + 1) * p.1 + ((d.length + 1) * b.toNat + weightedSum d)) % ckBase :=
            congrArg (· % ckBase) (by ring)

/-! ## The statements of 43_checksum -/

/-- Settles O26: one more byte is one more `sumByte`, on the sums the premise names. -/
theorem checksumRecurrence : Obligations.ChecksumRecurrence := by
  intro state d b A B hpack hA hB
  have hsums : d.foldl sumByte (reducedSums state) = (A, B) := by
    rw [← sums_checksum_eq, hpack]
    obtain ⟨ha, hb⟩ := sums_of_pack hA hB
    exact Prod.ext ha hb
  refine ⟨?_, ?_⟩
  · rw [checksum_toNat, reducedSums_eq]; rfl
  · rw [checksum_toNat, List.foldl_concat, hsums]; rfl

/-- Settles O27: the closed form of the recurrence from the reduced halves. -/
theorem checksumClosedForm : Obligations.ChecksumClosedForm := by
  intro state d
  rw [checksum_toNat, foldl_sumByte_eq d _ (reducedSums_lt state), reducedSums_eq]
  rfl

/-- Settles O28: the sums of a result are reduced, so a second checksum goes on where the first ended. -/
theorem checksumChains : Obligations.ChecksumChains := by
  refine ⟨fun state x y => ?_, fun state h => ?_, canonical_checksum⟩
  · rw [checksum_eq_pack, reducedSums_of_canonical (canonical_checksum state x), sums_checksum_eq, ← List.foldl_append,
      ← checksum_eq_pack]
  · rw [checksum_eq_pack, reducedSums_of_canonical h]; exact packSums_sums state

theorem exec_cksum_of_not_rangeValid {s : State} {rd ra rb rc : Reg} (h : ¬RangeValid s (s.num rb) (s.num rc)) :
    exec (.cksum rd ra rb rc) s = .next (s.takeFault .memFault (s.reg rb)) :=
  if_neg (mt (s.validRange_iff_rangeValid _ _).mp h)

/-- Settles O25: both outcomes of the range check; admitted, one write of `rd`, whose value is that of the state before
the write. -/
theorem cksumWritesChecksum : Obligations.CksumWritesChecksum := by
  refine ⟨rfl, fun s rd ra rb rc => ⟨fun hvalid => ?_, fun hvalid => ⟨_, exec_cksum_of_not_rangeValid hvalid, rfl⟩⟩⟩
  refine ⟨_, exec_cksum_of_rangeValid hvalid, ?value, advance_frame_of_setReg s rd _⟩
  rw [State.reg_advance, State.reg_setReg_same, BitVec.toNat_setWidth_of_le (by decide)]
  rfl

end Sys2Proof.Machine

namespace Sys2Proof.Machine

/-! ## Memories that hold an expanded pattern (spec 42 R159) -/

/-- `m'` is `m` with the `dist` bytes before `dst` repeated through the `n` bytes from `dst` on, and nothing else
changed: what a copy engine has reached after `n` bytes. -/
structure Expanded (m : Memory) (dst dist n : Nat) (m' : Memory) : Prop where
  dst_eq : ∀ i < n, Memory.readByte m' (dst + i) = Memory.readByte m (dst - dist + i % dist)
  outside : ∀ a, ¬(dst ≤ a ∧ a < dst + n) → Memory.readByte m' a = Memory.readByte m a

theorem Expanded.zero (m : Memory) (dst dist : Nat) : Expanded m dst dist 0 m := ⟨fun i hi => by omega, fun _ _ => rfl⟩

/-- Writing the pattern's next bytes behind what has been reached. -/
theorem Expanded.write {m m' : Memory} {dst dist n : Nat} (h : Expanded m dst dist n m') {v : List Byte}
    (hv : ∀ j < v.length, v[j]? = some (Memory.readByte m (dst - dist + (n + j) % dist))) :
    Expanded m dst dist (n + v.length) (Memory.write m' (dst + n) v) where
  dst_eq i hi := by
    by_cases hlt : i < n
    · rw [Memory.readByte_write_outside _ (by omega), h.dst_eq i hlt]
    · obtain ⟨j, rfl⟩ := Nat.exists_eq_add_of_le (Nat.le_of_not_lt hlt)
      have hj : j < v.length := by omega
      rw [← Nat.add_assoc, Memory.readByte_write_inside _ _ hj]
      exact List.getElem_eq_iff hj |>.mpr (hv j hj)
  outside a ha := by
    rw [Memory.readByte_write_outside _ (by omega), h.outside a (by omega)]

section
variable {m m' : Memory} {dst dist n : Nat} (hdist : 1 ≤ dist) (hdst : dist ≤ dst)
include hdst

/-- The seed and what follows it are one pattern, from `dst - dist` on. -/
theorem Expanded.pattern (h : Expanded m dst dist n m') {x : Nat} (hx : x < dist + n) :
    Memory.readByte m' (dst - dist + x) = Memory.readByte m (dst - dist + x % dist) := by
  by_cases hlt : x < dist
  · rw [h.outside _ (by omega), Nat.mod_eq_of_lt hlt]
  · obtain ⟨i, rfl⟩ := Nat.exists_eq_add_of_le (Nat.le_of_not_lt hlt)
    rw [show dst - dist + (dist + i) = dst + i by omega, h.dst_eq i (by omega), Nat.add_mod_left]

/-- Copying `k` bytes that are already there, from an offset that is in phase with `n`, reaches `n + k` bytes. -/
theorem Expanded.copy (h : Expanded m dst dist n m') {o k : Nat} (hphase : o % dist = n % dist)
    (hk : o + k ≤ dist + n) : Expanded m dst dist (n + k) (copySafe m' (dst + n) (dst - dist + o) k) := by
  have hw := h.write (v := Memory.read m' (dst - dist + o) k) fun j hj => by
    rw [Memory.read_length] at hj
    rw [Memory.read_getElem? _ _ hj, Nat.add_assoc, h.pattern hdst (by omega), Nat.add_mod, hphase, ← Nat.add_mod]
  rwa [Memory.read_length] at hw

end

/-! ## The reference loop and the three schedules -/

section
variable {m : Memory} {dst dist : Nat} (hdst : dist ≤ dst)
include hdst

theorem byteLoop_expanded (hdist : 1 ≤ dist) (len : Nat) : Expanded m dst dist len (byteLoop m dst dist len) := by
  induction len with
  | zero => exact .zero m dst dist
  | succ len ih =>
    have hcopy := ih.copy hdst (o := len) (k := 1) rfl (by omega)
    have hread : byteLoop m dst dist (len + 1) =
        copySafe (byteLoop m dst dist len) (dst + len) (dst - dist + len) 1 := by
      rw [byteLoop, copySafe, show dst + len - dist = dst - dist + len by omega]; rfl
    rwa [hread]

/-- Whole chunks, each read from bytes that are already there because the distance is at least `W` (42 R161). -/
theorem chunkCopies_expanded {W : Nat} (hW : W ≤ dist) (n : Nat) :
    Expanded m dst dist (n * W) (chunkCopies m dst (dst - dist) W n) := by
  induction n with
  | zero => rw [Nat.zero_mul]; exact .zero m dst dist
  | succ n ih =>
    rw [Nat.succ_mul]
    exact ih.copy hdst rfl (by omega)

theorem wideCopy_expanded {W : Nat} (hpos : 0 < W) (hW : W ≤ dist) (len : Nat) :
    Expanded m dst dist len (wideCopy m dst dist len W) := by
  have hrem := Nat.mod_lt len hpos
  have hcopy := (chunkCopies_expanded hdst hW (m := m) (len / W)).copy hdst (o := len / W * W)
    (k := len % W) rfl (by omega)
  rwa [Nat.div_add_mod'] at hcopy

/-- Each pass doubles the pattern that stands, so it starts in phase; the last one copies what remains (42 R163). -/
theorem doublingCopy_expanded (hdist : 1 ≤ dist) (fuel : Nat) {m' : Memory} {n remaining : Nat}
    (h : Expanded m dst dist n m') (hphase : remaining ≠ 0 → n % dist = 0) (hfuel : remaining ≤ fuel) :
    Expanded m dst dist (n + remaining) (doublingCopy m' (dst - dist) (dist + n) remaining fuel) := by
  induction fuel generalizing m' n remaining with
  | zero =>
    obtain rfl : remaining = 0 := by omega
    exact h
  | succ fuel ih =>
    rw [doublingCopy]
    split
    next hzero => rw [hzero]; exact h
    next hpos =>
      have hcopy := h.copy hdst (o := 0) (k := min (dist + n) remaining) (by rw [hphase hpos, Nat.zero_mod]) (by omega)
      have hnext := ih hcopy (remaining := remaining - min (dist + n) remaining) (fun hmore => ?doubled) (by omega)
      case doubled =>
        rw [Nat.min_eq_left (by omega), Nat.add_mod, Nat.add_mod_left, hphase hpos, Nat.zero_mod]
      have hend : dst - dist + (dist + n) = dst + n := by omega
      have htotal : n + min (dist + n) remaining + (remaining - min (dist + n) remaining) = n + remaining := by omega
      rw [← Nat.add_assoc, htotal] at hnext
      rwa [hend]

theorem narrowCopy_expanded (hdist : 1 ≤ dist) (len : Nat) :
    Expanded m dst dist len (narrowCopy m dst dist len) := by
  have h := doublingCopy_expanded hdst hdist len (.zero m dst dist) (fun _ => Nat.zero_mod dist) (Nat.le_refl len)
  rwa [Nat.zero_add] at h

end

/-- Stores of one chunk that holds the unit, whose size divides the width, so every chunk starts in phase (42 R162). -/
theorem chunkStores_expanded (m : Memory) (dst : Nat) {dist W : Nat} (hdist : 1 ≤ dist) (hW : dist ∣ W) (n : Nat) :
    Expanded m dst dist (n * W) (chunkStores m dst W (fill (Memory.read m (dst - dist) dist) W) n) := by
  induction n with
  | zero => rw [Nat.zero_mul]; exact .zero m dst dist
  | succ n ih =>
    have hphase (j : Nat) : (n * W + j) % dist = j % dist := by
      obtain ⟨q, rfl⟩ := hW
      rw [Nat.mul_left_comm, Nat.mul_add_mod]
    have hw := ih.write (v := fill (Memory.read m (dst - dist) dist) W) fun j hj => by
      rw [fill_length] at hj
      rw [fill_read_getElem? _ _ hdist hj, hphase]
    rw [fill_length] at hw
    rwa [Nat.succ_mul]

/-- A unit size divides every chunk width. -/
theorem dvd_bytes_of_fillDistance {f : FillSet} {dist : Nat} (h : fillDistance f dist = true) (w : ChunkWidth) :
    dist ∣ w.bytes := by
  simp only [fillDistance, List.any_eq_true, Bool.and_eq_true, beq_iff_eq] at h
  obtain ⟨k, -, -, rfl⟩ := h
  cases k <;> cases w <;> decide

/-- The engine reaches at least `len` bytes, and at most `W - 1` more when the distance is below `W` (42 R160). -/
theorem engineCopy_expanded (f : FillSet) (w : ChunkWidth) (m : Memory) {dst dist : Nat} (len : Nat) (hdist : 1 ≤ dist)
    (hdst : dist ≤ dst) :
    ∃ n, len ≤ n ∧ n ≤ len + (if w.bytes ≤ dist then 0 else w.bytes - 1) ∧
      Expanded m dst dist n (engineCopy f w.bytes m dst dist len) := by
  have hW := ChunkWidth.bytes_pos w
  rw [engineCopy, regimeOf]
  by_cases hwide : w.bytes ≤ dist
  · rw [if_pos hwide, if_pos hwide]
    exact ⟨len, Nat.le_refl _, Nat.le_refl _, wideCopy_expanded hdst (by omega) hwide len⟩
  · rw [if_neg hwide, if_neg hwide]
    by_cases hfill : fillDistance f dist = true
    · rw [if_pos hfill]
      have hdm := Nat.div_add_mod' (len + w.bytes - 1) w.bytes
      have hlt := Nat.mod_lt (len + w.bytes - 1) (show 0 < w.bytes by omega)
      exact ⟨(len + w.bytes - 1) / w.bytes * w.bytes, by omega, by omega,
        chunkStores_expanded m dst hdist (dvd_bytes_of_fillDistance hfill w) _⟩
    · rw [if_neg hfill]
      exact ⟨len, Nat.le_refl _, Nat.le_add_right .., narrowCopy_expanded hdst hdist len⟩

/-! ## What the commands leave -/

/-- An overlap copy changes nothing before its destination. -/
theorem State.overlapEffect_readByte_before (s : State) {dst a : Nat} (dist len : Nat) (h : a < dst) :
    Memory.readByte (s.overlapEffect dst dist len).mem a = Memory.readByte s.mem a :=
  s.sameMemOutside_overlapEffect dst dist len a (by omega)

/-- The seed and the destination of an overlap copy are one pattern, from `dst - dist` on. -/
theorem State.overlapEffect_pattern (s : State) {dst dist len x : Nat} (hdst : dist ≤ dst) (hx : x < dist + len) :
    Memory.readByte (s.overlapEffect dst dist len).mem (dst - dist + x) =
      Memory.readByte s.mem (dst - dist + x % dist) := by
  by_cases hlt : x < dist
  · rw [s.overlapEffect_readByte_before _ _ (by omega), Nat.mod_eq_of_lt hlt]
  · obtain ⟨i, rfl⟩ := Nat.exists_eq_add_of_le (Nat.le_of_not_lt hlt)
    rw [show dst - dist + (dist + i) = dst + i by omega, s.overlapEffect_readByte_dst _ _ (by omega),
      Nat.add_mod_left]

/-- The draws of an overlap copy's slack, and where they land (42 R164). -/
theorem State.overlapEffect_slack (s : State) (dst : Nat) {dist : Nat} (len : Nat) (h : dist < s.W) :
    (s.overlapEffect dst dist len).draws = s.draws + (s.W - 1) ∧
      ∀ j < s.W - 1, Memory.readByte (s.overlapEffect dst dist len).mem (dst + len + j) =
        Config.freeByte (s.draws + j) := by
  have hslack : s.slackBytes dist = s.anyBytes (s.W - 1) := if_neg (by omega)
  rw [s.overlapEffect_frame, s.slackBytes_length_eq, if_pos h]
  refine ⟨rfl, fun j hj => ?_⟩
  rw [State.overlapEffect, State.setMem_mem, hslack, Memory.readByte_write_inside _ _ (by simpa using hj)]
  simp [State.anyBytes]

/-- The draws of a bulk copy's slack, and where they land (42 R167). -/
theorem State.unrolledEffect_slack (s : State) (dst src len : Nat) :
    (s.unrolledEffect dst src len).draws = s.draws + (s.W - 1) ∧
      ∀ j < s.W - 1, Memory.readByte (s.unrolledEffect dst src len).mem (dst + len + j) =
        Config.freeByte (s.draws + j) := by
  refine ⟨rfl, fun j hj => ?_⟩
  rw [State.unrolledEffect, State.setMem_mem, Memory.readByte_write_inside _ _ (by simpa using hj)]
  simp [State.anyBytes]

/-! ## The destination of a copy that completes -/

section
variable {s t : State} {ra rb rc : Reg} {i : Nat} (ht : t.run = .running) (hi : i < s.num rc)
include ht hi

theorem exec_cpsafe_readByte_dst (h : exec (.cpsafe ra rb rc) s = .next t) :
    Memory.readByte t.mem (s.num ra + i) = Memory.readByte s.mem (s.num rb + i) := by
  obtain hfault | ⟨hlen, -⟩ | ⟨-, -, -, -, rfl⟩ := exec_cpsafe_outcome h
  · exact absurd hfault (not_takeFault_of_running ht)
  · omega
  · exact copySafe_readByte_dst _ _ _ hi

theorem exec_cpunr_readByte_dst (h : exec (.cpunr ra rb rc) s = .next t) :
    Memory.readByte t.mem (s.num ra + i) = Memory.readByte s.mem (s.num rb + i) := by
  obtain hfault | ⟨hlen, -⟩ | ⟨-, -, -, -, rfl⟩ := exec_cpunr_outcome h
  · exact absurd hfault (not_takeFault_of_running ht)
  · omega
  · exact s.unrolledEffect_readByte_dst _ _ hi

theorem exec_cpovl_readByte_dst (h : exec (.cpovl ra rb rc) s = .next t) :
    Memory.readByte t.mem (s.num ra + i) = Memory.readByte s.mem (s.num ra - s.num rb + i % s.num rb) := by
  obtain hfault | ⟨-, hlen, -⟩ | ⟨-, -, -, -, rfl⟩ := exec_cpovl_outcome h
  · exact absurd hfault (not_takeFault_of_running ht)
  · omega
  · exact s.overlapEffect_readByte_dst _ _ hi

end

/-! ## The laws of the overlap copy -/

/-- Settles O32: `byteLoop_expanded`. -/
theorem byteLoopClosedForm : Obligations.ByteLoopClosedForm := fun _ _ _ len hdist hdst =>
  let h := byteLoop_expanded hdst hdist len
  ⟨h.dst_eq, h.outside⟩

/-- Settles O33: every schedule expands the pattern, as the loop does. -/
theorem engineRegimesComputeReference : Obligations.EngineRegimesComputeReference := by
  intro f w m dst dist len hdist hdst
  obtain ⟨n, hlen, hslack, hengine⟩ := engineCopy_expanded f w m len hdist hdst
  refine ⟨fun i hi => ?_, fun a ha => hengine.outside a (by omega)⟩
  rw [hengine.dst_eq i (by omega), (byteLoop_expanded hdst hdist len).dst_eq i hi]

/-- Settles O34: the second copy's seed lies in the pattern the first one left, in phase with its end. -/
theorem overlapCopySplits : Obligations.OverlapCopySplits := by
  intro s dst d a b hd hdst
  refine ⟨fun i hi => ?dst, fun x hx => ?outside⟩
  case dst =>
    rw [s.overlapEffect_readByte_dst _ _ hi]
    by_cases hfirst : i < a
    · rw [State.overlapEffect_readByte_before _ _ _ (by omega), s.overlapEffect_readByte_dst _ _ hfirst]
    · obtain ⟨j, rfl⟩ := Nat.exists_eq_add_of_le (Nat.le_of_not_lt hfirst)
      have hr := Nat.mod_lt j hd
      rw [← Nat.add_assoc, State.overlapEffect_readByte_dst _ _ _ (by omega : j < b),
        show dst + a - d + j % d = dst - d + (a + j % d) by omega, s.overlapEffect_pattern hdst (by omega),
        Nat.add_mod_mod]
  case outside =>
    have hW := s.W_pos
    have hsecond : ¬(dst + a ≤ x ∧ x < dst + a + if s.W ≤ d then b else b + s.W - 1) := by
      split at hx <;> split <;> omega
    have hfirst : ¬(dst ≤ x ∧ x < dst + if s.W ≤ d then a else a + s.W - 1) := by
      split at hx <;> split <;> omega
    exact ((s.overlapEffect dst d a).sameMemOutside_overlapEffect _ _ _ x hsecond).trans
      (s.sameMemOutside_overlapEffect _ _ _ x hfirst)

/-- Settles O35: an admitted copy leaves one pattern from the seed on, and a length above 0 bounds the distance. -/
theorem overlapCopyIsPeriodic : Obligations.OverlapCopyIsPeriodic := by
  intro s t ra rb rc _ h ht i hi
  obtain hfault | ⟨-, hlen, -⟩ | ⟨hdist, hlen, hseed, -, rfl⟩ := exec_cpovl_outcome h
  · exact absurd hfault (not_takeFault_of_running ht)
  · omega
  · obtain hzero | ⟨hback, -⟩ := hseed
    · omega
    · have hpat := s.overlapEffect_pattern hback (len := s.num rc) (x := i) (by omega)
      rw [State.advance_mem, s.overlapEffect_readByte_dst _ _ hi, ← hpat]
      congr 1
      omega

/-- Settles O36: at such a distance the pattern does not repeat, so each of the three writes byte `i` of the source. -/
theorem copiesAgreeAtWideDistance : Obligations.CopiesAgreeAtWideDistance := by
  intro s t u v ra rb rsrc rc _ ht hu hv hwide _ hsrc hovl hsafe hunr i hi
  have hmod : i % s.num rb = i := Nat.mod_eq_of_lt (by omega)
  rw [exec_cpovl_readByte_dst ht hi hovl, exec_cpsafe_readByte_dst hu hi hsafe, exec_cpunr_readByte_dst hv hi hunr,
    hsrc, hmod]
  exact ⟨rfl, rfl⟩

/-- Settles O19: the draws of the two effects with slack; a wide overlap copy draws none. -/
theorem slackBytesAreFree : Obligations.SlackBytesAreFree := by
  intro i s t ra rb rc _ hlen h ht
  have hovl (hi : i = .cpovl ra rb rc) : t = (s.overlapEffect (s.num ra) (s.num rb) (s.num rc)).advance := by
    subst hi
    obtain hfault | ⟨-, hzero, -⟩ | ⟨-, -, -, -, heq⟩ := exec_cpovl_outcome h
    · exact absurd hfault (not_takeFault_of_running ht)
    · exact absurd hzero hlen
    · exact heq
  refine ⟨fun hi hwide => ?wide, ?slack⟩
  case wide =>
    rw [hovl hi, State.advance_draws, s.overlapEffect_frame, s.slackBytes_length, if_pos hwide]
    rfl
  case slack =>
    rintro (rfl | ⟨hi, hnarrow⟩)
    · obtain hfault | ⟨hzero, -⟩ | ⟨-, -, -, -, rfl⟩ := exec_cpunr_outcome h
      · exact absurd hfault (not_takeFault_of_running ht)
      · exact absurd hzero hlen
      · exact s.unrolledEffect_slack _ _ _
    · rw [hovl hi]
      exact s.overlapEffect_slack _ _ hnarrow

end Sys2Proof.Machine

namespace Sys2Proof.Machine

/-! ## Slides of memories that agree on a table -/

theorem entry_congr {m m' : Memory} {eb base count i : Nat} (hi : i < count)
    (h : ∀ a, base ≤ a → a < base + eb * count → Memory.readByte m a = Memory.readByte m' a) :
    entry m eb base i = entry m' eb base i :=
  congrArg le <| Memory.read_congr fun _ hj =>
    let hmem := entry_byte_mem base hi hj
    h _ hmem.1 hmem.2

/-- The bytes of a slid table depend on the differences of its entries alone. -/
theorem slidBytes_congr {m m' : Memory} {eb base count w w' : Nat}
    (h : ∀ i < count, entry m eb base i - w = entry m' eb base i - w') :
    slidBytes m eb base count w = slidBytes m' eb base count w' := by
  simp only [slidBytes, slideEntry_eq]
  exact List.flatMap_congr fun i hi => by rw [h i (List.mem_range.mp hi)]

/-- What a table of slid bytes holds at an address inside it does not depend on the memory around. -/
theorem slideTable_readByte_inside {m m' : Memory} {eb base count w w' a : Nat}
    (h : ∀ i < count, entry m eb base i - w = entry m' eb base i - w') (ha : base ≤ a ∧ a < base + eb * count) :
    Memory.readByte (slideTable m eb base count w) a = Memory.readByte (slideTable m' eb base count w') a := by
  rw [slideTable, slideTable, slidBytes_congr h, Memory.readByte_write, Memory.readByte_write, slidBytes_length,
    if_pos ha, if_pos ha]

theorem slideTable_readByte_outside (m : Memory) {eb base count a : Nat} (w : Nat)
    (ha : ¬(base ≤ a ∧ a < base + eb * count)) :
    Memory.readByte (slideTable m eb base count w) a = Memory.readByte m a :=
  (slideTable_spec m eb base count w).2 a ha

/-- Memory after `SLIDE`: `head`, of `hn` entries, then `prev`, of `pn` entries (44 R201). -/
def slideBoth (m : Memory) (eb head hn prev pn w : Nat) : Memory := slideTable (slideTable m eb head hn w) eb prev pn w

section
variable {m m' : Memory} {eb head hn prev pn w w' : Nat}

/-- On two disjoint tables, the memories after two slides agree wherever the differences of the entries do and the
memories before agree. -/
theorem slideBoth_congr (hApart : RangesDisjoint head (eb * hn) prev (eb * pn))
    (hHead : ∀ i < hn, entry m eb head i - w = entry m' eb head i - w')
    (hPrev : ∀ i < pn, entry m eb prev i - w = entry m' eb prev i - w') {a : Nat}
    (ha : (head ≤ a ∧ a < head + eb * hn) ∨ (prev ≤ a ∧ a < prev + eb * pn) ∨
      Memory.readByte m a = Memory.readByte m' a) :
    Memory.readByte (slideBoth m eb head hn prev pn w) a = Memory.readByte (slideBoth m' eb head hn prev pn w') a := by
  by_cases hinPrev : prev ≤ a ∧ a < prev + eb * pn
  · refine slideTable_readByte_inside (fun i hi => ?_) hinPrev
    rw [entry_slideTable_apart _ _ hi (rangesDisjoint_comm.mp hApart),
      entry_slideTable_apart _ _ hi (rangesDisjoint_comm.mp hApart), hPrev i hi]
  · rw [slideBoth, slideBoth, slideTable_readByte_outside _ _ hinPrev, slideTable_readByte_outside _ _ hinPrev]
    by_cases hinHead : head ≤ a ∧ a < head + eb * hn
    · exact slideTable_readByte_inside hHead hinHead
    · rw [slideTable_readByte_outside _ _ hinHead, slideTable_readByte_outside _ _ hinHead]
      exact (ha.resolve_left hinHead).resolve_left hinPrev

/-- The entries of both tables after `SLIDE`, and the bytes outside them. -/
theorem slideBoth_spec (m : Memory) (w : Nat) (hApart : RangesDisjoint head (eb * hn) prev (eb * pn)) :
    (∀ i < hn, entry (slideBoth m eb head hn prev pn w) eb head i = entry m eb head i - w) ∧
      (∀ i < pn, entry (slideBoth m eb head hn prev pn w) eb prev i = entry m eb prev i - w) ∧
      ∀ a, ¬(head ≤ a ∧ a < head + eb * hn) → ¬(prev ≤ a ∧ a < prev + eb * pn) →
        Memory.readByte (slideBoth m eb head hn prev pn w) a = Memory.readByte m a := by
  refine ⟨fun i hi => ?_, fun i hi => ?_, fun a hHead hPrev => ?_⟩
  · rw [slideBoth, entry_slideTable_apart _ _ hi hApart, entry_slideTable_same _ _ _ _ hi]
  · rw [slideBoth, entry_slideTable_same _ _ _ _ hi, entry_slideTable_apart _ _ hi (rangesDisjoint_comm.mp hApart)]
  · rw [slideBoth, slideTable_readByte_outside _ _ hPrev, slideTable_readByte_outside _ _ hHead]

/-- Two slides are one by the sum of the windows (44 section 2). -/
theorem slideBoth_slideBoth (m : Memory) (w w' : Nat) (hApart : RangesDisjoint head (eb * hn) prev (eb * pn))
    (a : Nat) :
    Memory.readByte (slideBoth (slideBoth m eb head hn prev pn w) eb head hn prev pn w') a =
      Memory.readByte (slideBoth m eb head hn prev pn (w + w')) a := by
  obtain ⟨hHead, hPrev, hOut⟩ := slideBoth_spec m w hApart
  refine slideBoth_congr hApart (fun i hi => ?_) (fun i hi => ?_) ?_
  · rw [hHead i hi, Nat.sub_sub]
  · rw [hPrev i hi, Nat.sub_sub]
  · by_cases hinHead : head ≤ a ∧ a < head + eb * hn
    · exact .inl hinHead
    · by_cases hinPrev : prev ≤ a ∧ a < prev + eb * pn
      · exact .inr (.inl hinPrev)
      · exact .inr (.inr (hOut a hinHead hinPrev))

end

/-- A `SLIDE` that completes found its tables disjoint and slid both. -/
theorem exec_slide_completes {s t : State} {ra rb rc rd re : Reg} (h : exec (.slide ra rb rc rd re) s = .next t)
    (ht : t.run = .running) :
    RangesDisjoint (s.num ra) (s.EB * s.num rb) (s.num rc) (s.EB * s.num rd) ∧
      t = (s.setMem (slideBoth s.mem s.EB (s.num ra) (s.num rb) (s.num rc) (s.num rd) (s.num re))).advance := by
  obtain hfault | ⟨-, -, hApart, heq⟩ := exec_slide_outcome h
  · exact absurd hfault (not_takeFault_of_running ht)
  · exact ⟨hApart, heq⟩

/-- Settles O30: the tables and their addresses are the same in the second slide, and `slideBoth_slideBoth`. -/
theorem slidesAddUp : Obligations.SlidesAddUp := by
  intro s t u v ra rb rc rd r1 r2 r3 _ ht hu hv hsum hfirst hsecond honce a
  obtain ⟨hApart, rfl⟩ := exec_slide_completes hfirst ht
  obtain ⟨-, rfl⟩ := exec_slide_completes hsecond hu
  obtain ⟨-, rfl⟩ := exec_slide_completes honce hv
  rw [State.advance_mem, State.setMem_mem, State.advance_mem, State.setMem_mem, hsum]
  exact (slideBoth_slideBoth s.mem _ _ hApart a).symm

end Sys2Proof.Machine

namespace Sys2Proof.Machine

/-! ## Position -/

/-- The command pointer is no input of a command. -/
theorem sameInputs_setCpc (i : Instr) (s : State) (p : Word) : SameInputs i s { s with cpc := p } :=
  ⟨rfl, rfl, rfl, rfl, fun _ _ => rfl, fun _ _ => rfl⟩

/-- One effect at two positions moves `cpc` by as much from either: by 0, or by 4. -/
theorem SameEffect.moves_cpc {i : Instr} {s : State} {p : Word} {x x' : Result}
    (hx : SameEffect i s { s with cpc := p } x x') :
    x' = mapNext (fun t => { t with cpc := p + (t.cpc - s.cpc) }) x := by
  have hstay : p + (s.cpc - s.cpc) = p := by rw [BitVec.sub_self, BitVec.add_zero]
  have hmove : p + (s.cpc + 4 - s.cpc) = p + 4 := by rw [BitVec.add_comm s.cpc, BitVec.add_sub_cancel]
  cases hx with
  | fault | stop => simp only [raise, mapNext, State.takeFault_cpc, State.setRun_cpc, hstay]; rfl
  | skip | reg | chunk | mem =>
    simp only [complete, mapNext, State.advance_cpc, State.setReg_cpc, State.setChunk_cpc, State.setMem_cpc,
      State.drawn_cpc, hmove]
    rfl

/-- Settles O55: a command is a function of its inputs, and `cpc` is none of them. -/
theorem positionIndependence : Obligations.PositionIndependence :=
  fun i s p => (exec_sameEffect (sameInputs_setCpc i s p)).moves_cpc

/-! ## Copies of memories that agree on what is read, at an address where they agree -/

section
variable {m m' : Memory} {a : Nat} (ha : Memory.readByte m a = Memory.readByte m' a)
include ha

theorem Memory.readByte_write_congr (x : Nat) (v : List Byte) :
    Memory.readByte (Memory.write m x v) a = Memory.readByte (Memory.write m' x v) a := by
  rw [Memory.readByte_write, Memory.readByte_write, ha]

theorem copySafe_readByte_congr {dst src len : Nat}
    (hsrc : ∀ i < len, Memory.readByte m (src + i) = Memory.readByte m' (src + i)) :
    Memory.readByte (copySafe m dst src len) a = Memory.readByte (copySafe m' dst src len) a := by
  rw [copySafe, copySafe, Memory.read_congr hsrc, Memory.readByte_write_congr ha]

/-- An overlap copy reads the seed, and of that no more than `len` bytes. -/
theorem copyOverlap_readByte_congr {dst dist len : Nat} (hdist : dist ≠ 0)
    (hseed : ∀ j < min dist len, Memory.readByte m (dst - dist + j) = Memory.readByte m' (dst - dist + j)) :
    Memory.readByte (copyOverlap m dst dist len) a = Memory.readByte (copyOverlap m' dst dist len) a := by
  have hpattern : patternBytes m (dst - dist) dist len = patternBytes m' (dst - dist) dist len := by
    refine List.map_congr_left fun i hi => hseed _ ?_
    have hlen := List.mem_range.mp hi
    have hle := Nat.mod_le i dist
    have hlt := Nat.mod_lt i (Nat.pos_of_ne_zero hdist)
    omega
  rw [copyOverlap, copyOverlap, hpattern, Memory.readByte_write_congr ha]

end

/-! ## What a command's result depends on in memory (20 R63) -/

/-- The two outcomes differ in data memory alone, and there in no address of a set. -/
inductive SameButMem (P : Nat → Prop) : Result → Result → Prop
  | next (t : State) (m : Memory) (h : ∀ a, P a → Memory.readByte m a = Memory.readByte t.mem a) :
      SameButMem P (.next t) (.next (t.setMem m))

/-- The same, of two states that complete. -/
theorem SameButMem.complete {P : Nat → Prop} {u u' : State} (hu : u' = u.setMem u'.mem)
    (h : ∀ a, P a → Memory.readByte u'.mem a = Memory.readByte u.mem a) :
    SameButMem P (Machine.complete u) (Machine.complete u') := by
  rw [hu]
  exact .next u.advance u'.mem h

/-- Two next states that differ in data memory alone. -/
theorem SameButMem.of_next {P : Nat → Prop} {t t' : State} (h : SameButMem P (.next t) (.next t')) :
    t' = t.setMem t'.mem ∧ ∀ a, P a → Memory.readByte t'.mem a = Memory.readByte t.mem a := by
  cases h with
  | next _ m h => exact ⟨rfl, h⟩

theorem SameButMem.ite {P : Nat → Prop} {p : Prop} [Decidable p] {x x' y y' : Result}
    (hx : p → SameButMem P x x') (hy : ¬p → SameButMem P y y') :
    SameButMem P (if p then x else y) (if p then x' else y') := by
  split
  next hp => exact hx hp
  next hp => exact hy hp

section
variable {i : Instr} {s : State} {m : Memory}
  (hread : ∀ a, mayRead i s a → Memory.readByte m a = Memory.readByte s.mem a)
  (hwrite : ∀ a, mayWrite i s a → Memory.readByte m a = Memory.readByte s.mem a)

include hwrite in
theorem sameButMem_raise (c : Cause) (v : Word) : SameButMem (mayWrite i s) (raise s c v) (raise (s.setMem m) c v) :=
  .next (s.takeFault c v) m hwrite

include hread in
/-- A run of bytes the command may read. -/
theorem memRead_of_mayRead {a n : Nat} (h : ∀ x, a ≤ x → x < a + n → mayRead i s x) :
    (s.setMem m).memRead a n = s.memRead a n :=
  Memory.read_congr fun j hj => hread _ (h _ (by omega) (by omega))

include hread hwrite in
/-- The four fills. -/
theorem fillChunk_sameButMem (k : FillUnit) {cd : CReg} {ra : Reg}
    (h : ∀ x, s.num ra ≤ x → x < s.num ra + k.bytes → mayRead i s x) :
    SameButMem (mayWrite i s) (fillChunk k cd ra s) (fillChunk k cd ra (s.setMem m)) := by
  simp only [fillChunk, State.setMem_cfg, State.num_setMem, State.validRange_setMem, State.reg_setMem, State.W_setMem,
    memRead_of_mayRead hread h]
  exact .ite (fun _ => .ite (fun _ => .complete rfl hwrite) fun _ => sameButMem_raise hwrite ..)
    fun _ => sameButMem_raise hwrite ..

end

/-- A command looks at no byte of data memory outside its two sets: on memories that agree there, its outcomes are the
same and its memories agree on what it may write. -/
theorem exec_setMem {i : Instr} {s : State} {m : Memory}
    (hread : ∀ a, mayRead i s a → Memory.readByte m a = Memory.readByte s.mem a)
    (hwrite : ∀ a, mayWrite i s a → Memory.readByte m a = Memory.readByte s.mem a) :
    SameButMem (mayWrite i s) (exec i s) (exec i (s.setMem m)) := by
  have hraise := sameButMem_raise hwrite
  cases i with
  | endRun => exact .next (s.setRun .done) m hwrite
  | seti rd imm => exact .complete (u := s.setReg rd _) rfl hwrite
  | chunksz rd => exact .complete (u := s.setReg rd _) rfl hwrite
  | cpsafe ra rb rc =>
    simp only [exec, execCpsafe, State.num_setMem, State.reg_setMem, State.validRange_setMem, State.setMem_mem]
    refine .ite (fun _ => .complete rfl hwrite) fun hlen => .ite (fun _ => hraise ..) fun _ =>
      .ite (fun _ => hraise ..) fun _ => .ite (fun _ => hraise ..) fun _ => .complete rfl fun a ha => ?_
    exact copySafe_readByte_congr (hwrite a ha) fun i hi => hread _ ⟨by omega, by omega⟩
  | cpovl ra rb rc =>
    simp only [exec, execCpovl, State.backSource, State.num_setMem, State.reg_setMem, State.validRange_setMem,
      State.W_setMem]
    refine .ite (fun _ => hraise ..) fun hdist => .ite (fun _ => .complete rfl hwrite) fun hlen =>
      .ite (fun _ => hraise ..) fun hseed => .ite (fun _ => hraise ..) fun _ => .complete rfl fun a ha => ?_
    have hback : s.num rb ≤ s.num ra := by
      have hvalid : BackRangeValid s (s.num ra) (s.num rb) (min (s.num rb) (s.num rc)) :=
        (s.validRange_sub_iff _ _ _).mp (by simpa using hseed)
      exact (hvalid.resolve_left (by omega)).1
    exact Memory.readByte_write_congr
      (copyOverlap_readByte_congr (hwrite a ha) hdist fun j hj => hread _ ⟨by omega, by omega⟩) _ _
  | cpunr ra rb rc =>
    simp only [exec, execCpunr, State.num_setMem, State.reg_setMem, State.validRange_setMem, State.W_setMem]
    refine .ite (fun _ => .complete rfl hwrite) fun hlen => .ite (fun _ => hraise ..) fun _ =>
      .ite (fun _ => hraise ..) fun _ => .ite (fun _ => hraise ..) fun _ => .complete rfl fun a ha => ?_
    exact Memory.readByte_write_congr
      (copySafe_readByte_congr (hwrite a ha) fun i hi => hread _ ⟨by omega, by omega, by omega⟩) _ _
  | cload cd ra =>
    simp only [exec, execCload, State.num_setMem, State.validRange_setMem, State.reg_setMem, State.W_setMem,
      memRead_of_mayRead hread fun x hlo hhi => ⟨hlo, hhi⟩]
    exact .ite (fun _ => .complete rfl hwrite) fun _ => hraise ..
  | cstore ra cs =>
    simp only [exec, execCstore, State.num_setMem, State.validRange_setMem, State.reg_setMem, State.W_setMem,
      State.chunk_setMem]
    exact .ite (fun _ => .complete rfl fun a ha => Memory.readByte_write_congr (hwrite a ha) _ _) fun _ => hraise ..
  | cfill1 cd ra => exact fillChunk_sameButMem hread hwrite .k1 fun x hlo hhi => ⟨hlo, hhi⟩
  | cfill2 cd ra => exact fillChunk_sameButMem hread hwrite .k2 fun x hlo hhi => ⟨hlo, hhi⟩
  | cfill4 cd ra => exact fillChunk_sameButMem hread hwrite .k4 fun x hlo hhi => ⟨hlo, hhi⟩
  | cfill8 cd ra => exact fillChunk_sameButMem hread hwrite .k8 fun x hlo hhi => ⟨hlo, hhi⟩
  | cksum rd ra rb rc =>
    simp only [exec, execCksum, State.sumState, State.num_setMem, State.validRange_setMem, State.reg_setMem,
      memRead_of_mayRead hread fun x hlo hhi => ⟨hlo, hhi⟩]
    exact .ite (fun _ => .complete rfl hwrite) fun _ => hraise ..
  | slide ra rb rc rd re =>
    simp only [exec, execSlide, State.num_setMem, State.reg_setMem, State.validRange_setMem, State.EB_setMem,
      State.setMem_mem]
    refine .ite (fun _ => hraise ..) fun _ => .ite (fun _ => hraise ..) fun _ => .ite (fun _ => hraise ..) fun _ =>
      .ite (fun _ => hraise ..) fun _ => .ite (fun _ => hraise ..) fun hApart => .complete rfl fun a ha => ?_
    refine slideBoth_congr ((disjoint_iff_rangesDisjoint ..).mp (by simpa using hApart)) (fun i hi => ?_)
      (fun i hi => ?_) (.inr (.inr (hwrite a ha)))
    · rw [entry_congr hi fun x hlo hhi => hread x (.inl ⟨hlo, hhi⟩)]
    · rw [entry_congr hi fun x hlo hhi => hread x (.inr ⟨hlo, hhi⟩)]

/-! ## Two commands without a conflict (60 R291) -/

theorem mayWrite_setMem (i : Instr) (s : State) (m : Memory) : mayWrite i (s.setMem m) = mayWrite i s := by
  cases i <;> rfl

/-- The command `i` on `s` writes no byte that `j` on `s'` reads or writes. -/
def WritesApartFrom (i : Instr) (s : State) (j : Instr) (s' : State) : Prop :=
  ∀ a, mayWrite i s a → ¬mayRead j s' a ∧ ¬mayWrite j s' a

theorem writesApartFrom_of_no_conflict {i j : Instr} {s s' : State} (h : ∀ a, ¬conflictAt i s j s' a) :
    WritesApartFrom i s j s' ∧ WritesApartFrom j s' i s :=
  ⟨fun a hi => ⟨fun hr => h a (.inl ⟨hi, .inl hr⟩), fun hw => h a (.inl ⟨hi, .inr hw⟩)⟩,
    fun a hj => ⟨fun hr => h a (.inr ⟨hj, hr⟩), fun hw => h a (.inl ⟨hw, .inr hj⟩)⟩⟩

/-- A command on the memory another command left does what it does without that one, when the other writes nothing it
reads or writes: the same outside data memory, its own bytes in its set, the other's memory outside. -/
theorem exec_after {i j : Instr} {s s' t u' w : State} (hmem : s'.mem = s.mem)
    (hchunk : ∀ c, (s.chunk c).length = s.W) (hchunk' : ∀ c, (s'.chunk c).length = s'.W)
    (hapart : WritesApartFrom i s j s') (hi : exec i s = .next t) (hj : exec j s' = .next u')
    (hw : exec j (s'.setMem t.mem) = .next w) :
    w = u'.setMem w.mem ∧ (∀ a, mayWrite j s' a → Memory.readByte w.mem a = Memory.readByte u'.mem a) ∧
      ∀ a, ¬mayWrite j s' a → Memory.readByte w.mem a = Memory.readByte t.mem a := by
  have hsame {a : Nat} (ha : ¬mayWrite i s a) : Memory.readByte t.mem a = Memory.readByte s'.mem a :=
    hmem ▸ exec_readByte_of_not_mayWrite hchunk hi ha
  have h := exec_setMem (i := j) (s := s') (m := t.mem) (fun a ha => hsame fun hwr => (hapart a hwr).1 ha)
    (fun a ha => hsame fun hwr => (hapart a hwr).2 ha)
  rw [hj, hw] at h
  obtain ⟨hstate, hbytes⟩ := h.of_next
  refine ⟨hstate, hbytes, fun a ha => ?_⟩
  rw [← mayWrite_setMem j s' t.mem] at ha
  exact exec_readByte_of_not_mayWrite (s := s'.setMem t.mem) hchunk' hw ha

/-- Settles O56: each command does in second place what it does in first (`exec_after`); a byte is the one command's,
the other's, or neither's. -/
theorem disjointCommandsCommute : Obligations.DisjointCommandsCommute := by
  intro i j s s' t t' u u' hmem hchunk hchunk' hconflict ht ht' hu' hu
  obtain ⟨hij, hji⟩ := writesApartFrom_of_no_conflict hconflict
  obtain ⟨hstate', hin', hout'⟩ := exec_after hmem hchunk hchunk' hij ht hu' ht'
  obtain ⟨hstate, hin, hout⟩ := exec_after hmem.symm hchunk' hchunk hji hu' ht hu
  refine ⟨fun a => ?bytes, ?_⟩
  case bytes =>
    by_cases hi : mayWrite i s a
    · rw [hin a hi, hout' a (hij a hi).2]
    by_cases hj : mayWrite j s' a
    · rw [hin' a hj, hout a hi]
    · rw [hout a hi, hout' a hj, exec_readByte_of_not_mayWrite hchunk' hu' hj,
        exec_readByte_of_not_mayWrite hchunk ht hi, hmem]
  rw [hstate, hstate']
  exact ⟨fun _ => rfl, fun _ => rfl, fun _ => rfl, fun _ => rfl, ⟨rfl, rfl, rfl⟩, ⟨rfl, rfl, rfl⟩⟩

/-! ## Two instances with other backends (45 R231) -/

/-- A command that writes no operand register leaves two states that agree on these in agreement. -/
theorem sameRegs_of_exec {i : Instr} {s s' t t' : State} (hw : writesReg i = []) (hregs : SameRegs s s')
    (h : exec i s = .next t) (h' : exec i s' = .next t') : SameRegs t t' := fun r => by
  have hr : r ∉ writesReg i := hw ▸ List.not_mem_nil
  rw [exec_reg_of_not_mem_writesReg hr h', exec_reg_of_not_mem_writesReg hr h, hregs r]

/-- Two copies that take each destination byte from the same address of memories that agree. -/
theorem readByte_eq_of_copied {s s' t t' : State} {dst len a : Nat} {src : Nat → Nat} (hmem : SameMem s s')
    (h : ∀ i < len, Memory.readByte t.mem (dst + i) = Memory.readByte s.mem (src i))
    (h' : ∀ i < len, Memory.readByte t'.mem (dst + i) = Memory.readByte s'.mem (src i))
    (ha : dst ≤ a ∧ a < dst + len) : Memory.readByte t.mem a = Memory.readByte t'.mem a := by
  obtain ⟨i, rfl⟩ := Nat.exists_eq_add_of_le ha.1
  have hi : i < len := by omega
  rw [h i hi, h' i hi, hmem]

/-- Settles O54: each of the five commands writes what its rule gives from registers and bytes the two states agree
on. -/
theorem resultsIgnoreBackend : Obligations.ResultsIgnoreBackend := by
  intro i s t s' t' hfree hregs hmem hwidth _ _ h h' ht ht'
  have hnum (r : Reg) : s'.num r = s.num r := congrArg BitVec.toNat (hregs r)
  cases i with
  | cpsafe ra rb rc =>
    exact ⟨sameRegs_of_exec rfl hregs h h', fun a =>
      readByte_eq_of_copied hmem (fun i hi => exec_cpsafe_readByte_dst ht hi h) fun i hi => by
        simpa only [hnum] using exec_cpsafe_readByte_dst ht' (hnum rc ▸ hi) h'⟩
  | cpovl ra rb rc =>
    exact ⟨sameRegs_of_exec rfl hregs h h', fun a =>
      readByte_eq_of_copied hmem (fun i hi => exec_cpovl_readByte_dst ht hi h) fun i hi => by
        simpa only [hnum] using exec_cpovl_readByte_dst ht' (hnum rc ▸ hi) h'⟩
  | cpunr ra rb rc =>
    exact ⟨sameRegs_of_exec rfl hregs h h', fun a =>
      readByte_eq_of_copied hmem (fun i hi => exec_cpunr_readByte_dst ht hi h) fun i hi => by
        simpa only [hnum] using exec_cpunr_readByte_dst ht' (hnum rc ▸ hi) h'⟩
  | cksum rd ra rb rc =>
    refine ⟨fun r => ?_, fun a ha => ha.elim⟩
    obtain hfault | ⟨-, rfl⟩ := exec_cksum_outcome h
    · exact absurd hfault (not_takeFault_of_running ht)
    obtain hfault | ⟨-, rfl⟩ := exec_cksum_outcome h'
    · exact absurd hfault (not_takeFault_of_running ht')
    have hdata : s'.memRead (s.num rb) (s.num rc) = s.memRead (s.num rb) (s.num rc) :=
      Memory.read_congr fun i _ => hmem _
    by_cases hr : r = rd
    · subst hr
      rw [State.reg_advance, State.reg_advance, State.reg_setReg_same, State.reg_setReg_same, State.sumState,
        State.sumState, hnum, hnum, hregs, hdata]
    · rw [State.reg_advance, State.reg_advance, State.reg_setReg_ne _ _ hr, State.reg_setReg_ne _ _ hr, hregs]
  | slide ra rb rc rd re =>
    refine ⟨sameRegs_of_exec rfl hregs h h', fun a _ => ?_⟩
    obtain ⟨hApart, rfl⟩ := exec_slide_completes h ht
    obtain ⟨-, rfl⟩ := exec_slide_completes h' ht'
    have hEB : s'.EB = s.EB := congrArg EntryWidth.bytes hwidth.symm
    have hentry (base k : Nat) : entry s.mem s.EB base k = entry s'.mem s.EB base k :=
      congrArg le (Memory.read_congr fun _ _ => (hmem _).symm)
    rw [State.advance_mem, State.setMem_mem, State.advance_mem, State.setMem_mem, hEB, hnum, hnum, hnum, hnum, hnum]
    exact slideBoth_congr hApart (fun k _ => by rw [hentry]) (fun k _ => by rw [hentry]) (.inr (.inr (hmem a).symm))
  | endRun | seti | chunksz | cload | cstore | cfill1 | cfill2 | cfill4 | cfill8 => cases hfree

end Sys2Proof.Machine

namespace Sys2Proof.Machine

/-! ## What the assembler accepts is well formed -/

/-- A result that is no command or a well-formed one. -/
def WellFormedOnly (o : Option Instr) : Prop := ∀ i, o = some i → i.WellFormed

theorem WellFormedOnly.none : WellFormedOnly Option.none := fun _ h => by cases h

theorem WellFormedOnly.some {i : Instr} (h : i.WellFormed) : WellFormedOnly (Option.some i) := fun _ hi => by
  cases hi; exact h

theorem WellFormedOnly.bind {α : Type} {x : Option α} {f : α → Option Instr} (h : ∀ a, WellFormedOnly (f a)) :
    WellFormedOnly (x >>= f) := by
  cases x with
  | none => exact .none
  | some a => exact h a

theorem asmSeti_wellFormedOnly (rd : Reg) (imm : Nat) : WellFormedOnly (asmSeti rd imm) := by
  unfold asmSeti
  split
  next himm => exact .some (decide_eq_true himm)
  next => exact .none

theorem asmR3_wellFormedOnly {make : Reg → Reg → Reg → Instr} (hmake : ∀ a b c, (make a b c).WellFormed)
    (ops : List (List Char)) : WellFormedOnly (asmR3 make ops) := by
  unfold asmR3
  split
  · exact .bind fun a => .bind fun b => .bind fun c => .some (hmake a b c)
  · exact .none

theorem asmCR_wellFormedOnly {make : CReg → Reg → Instr} (hmake : ∀ c a, (make c a).WellFormed)
    (ops : List (List Char)) : WellFormedOnly (asmCR make ops) := by
  unfold asmCR
  split
  · exact .bind fun c => .bind fun a => .some (hmake c a)
  · exact .none

theorem expandCfill_wellFormedOnly (cd : CReg) (ra : Reg) (k : Nat) : WellFormedOnly (expandCfill cd ra k) := by
  unfold expandCfill
  split
  case h_5 => exact .none
  all_goals exact .some rfl

/-- A reading of a line that is an error or a well-formed command. -/
def AcceptsWellFormed (r : Except AsmError Instr) : Prop := ∀ i, r = .ok i → i.WellFormed

theorem AcceptsWellFormed.error (e : AsmError) : AcceptsWellFormed (.error e) := fun _ h => by cases h

/-- The answer `asmCommand` makes of the operands' reading. -/
def orBadOperands : Option Instr → Except AsmError Instr
  | some i => .ok i
  | none => .error .badOperands

theorem AcceptsWellFormed.known {r : Option Instr} (h : WellFormedOnly r) : AcceptsWellFormed (orBadOperands r) := by
  cases r with
  | none => exact .error _
  | some i => intro j hj; cases hj; exact h i rfl

theorem AcceptsWellFormed.ite {p : Prop} [Decidable p] {x y : Except AsmError Instr} (hx : AcceptsWellFormed x)
    (hy : AcceptsWellFormed y) : AcceptsWellFormed (if p then x else y) := by
  split
  · exact hx
  · exact hy

/-- The command of a line is well formed: `SETI` checks its immediate, and no other mnemonic has anything to check. -/
theorem asmCommand_acceptsWellFormed (m : List Char) (ops : List (List Char)) :
    AcceptsWellFormed (asmCommand m ops) := by
  have hR3 {make : Reg → Reg → Reg → Instr} (h : ∀ a b c, (make a b c).WellFormed) :=
    AcceptsWellFormed.known (asmR3_wellFormedOnly h ops)
  have hCR {make : CReg → Reg → Instr} (h : ∀ c a, (make c a).WellFormed) :=
    AcceptsWellFormed.known (asmCR_wellFormedOnly h ops)
  refine .ite (.known ?endRun) <| .ite (.known ?seti) <| .ite (.known ?chunksz) <| .ite (hR3 fun _ _ _ => rfl) <|
    .ite (hR3 fun _ _ _ => rfl) <| .ite (hR3 fun _ _ _ => rfl) <| .ite (hCR fun _ _ => rfl) <| .ite (.known ?cstore) <|
    .ite (hCR fun _ _ => rfl) <| .ite (hCR fun _ _ => rfl) <| .ite (hCR fun _ _ => rfl) <| .ite (hCR fun _ _ => rfl) <|
    .ite (.known ?cfill) <| .ite (.known ?cksum) <| .ite (.known ?slide) <| .error _
  case endRun =>
    split
    · exact .some rfl
    · exact .none
  case seti =>
    split
    · exact .bind fun r => .bind fun n => asmSeti_wellFormedOnly r n
    · exact .none
  case chunksz =>
    split
    · exact .bind fun r => .some rfl
    · exact .none
  case cstore =>
    split
    · exact .bind fun a => .bind fun c => .some rfl
    · exact .none
  case cfill =>
    split
    · exact .bind fun c => .bind fun a => .bind fun k => expandCfill_wellFormedOnly c a k
    · exact .none
  case cksum =>
    split
    · exact .bind fun d => .bind fun a => .bind fun b => .bind fun c => .some rfl
    · exact .none
  case slide =>
    split
    · exact .bind fun a => .bind fun b => .bind fun c => .bind fun d => .bind fun e => .some rfl
    · exact .none

theorem assembleLine_wellFormed {line : List Char} {i : Instr} (h : assembleLine line = .ok (some i)) :
    i.WellFormed := by
  unfold assembleLine at h
  dsimp only at h
  split at h
  · cases h
  · split at h <;> cases h
    next hi => exact asmCommand_acceptsWellFormed _ _ _ hi

/-! ## The texts of commands are read back -/

@[simp] theorem asmR3_regText (make : Reg → Reg → Reg → Instr) (a b c : Reg) :
    asmR3 make [regText a, regText b, regText c] = some (make a b c) := by
  simp [asmR3, readReg_regText]

@[simp] theorem asmCR_texts (make : CReg → Reg → Instr) (c : CReg) (a : Reg) :
    asmCR make [cregText c, regText a] = some (make c a) := by
  simp [asmCR, readReg_regText, readCReg_cregText]

/-- A mnemonic with operands that are read as `r` assembles to `r`. -/
theorem assembleLine_of_asmCommand {m : String} {ops : List (List Char)} {r : Except AsmError Instr}
    (h : asmCommand m.toList ops = r) (hm : PlainText m.toList := by simp [PlainText, isBlank])
    (hne : ops ≠ [] := by simp)
    (ho : ∀ t ∈ ops, PlainText t := by
      simp [plainText_regText, plainText_cregText, plainText_decText, plainText_hexText]) :
    assembleLine (lineText m ops) = r.map some :=
  h ▸ assembleLine_lineText hm hne ho

theorem asmSeti_of_le (rd : Reg) {imm : Nat} (h : imm ≤ 0xFFFFF) : asmSeti rd imm = some (.seti rd imm) := if_pos h

theorem asmSeti_of_lt (rd : Reg) {imm : Nat} (h : 0xFFFFF < imm) : asmSeti rd imm = none := if_neg (by omega)

/-- Settles O7: what is accepted is well formed, and that is all the encoding needs. -/
theorem assembledLinesEncode : Obligations.AssembledLinesEncode := fun _ _ h =>
  let hwf := assembleLine_wellFormed h
  ⟨hwf, decode_encode hwf⟩

/-- Settles O8: a line is its mnemonic and its operands (`assembleLine_lineText`), and each operand's text is read
back. -/
theorem commandTextAssembles : Obligations.CommandTextAssembles := by
  refine ⟨by decide, by decide, fun r n hn => ?seti, fun r n hn => ?range, fun r => ?chunksz, fun a b c => ?copies,
    fun c a => ?chunks, fun d a b c => ?cksum, fun a b c d e => ?slide, fun line comment => ?comment⟩
  case seti =>
    have hseti (t : List Char) (ht : readNumber t = some n) :
        asmCommand "SETI".toList [regText r, t] = .ok (.seti r n) := by
      simp [asmCommand, readReg_regText, ht, asmSeti_of_le r hn]
    exact ⟨assembleLine_of_asmCommand (hseti _ (readNumber_decText n)),
      assembleLine_of_asmCommand (hseti _ (readNumber_hexText n))⟩
  case range =>
    exact assembleLine_of_asmCommand (r := .error .badOperands)
      (by simp [asmCommand, readReg_regText, readNumber_decText, asmSeti_of_lt r hn])
  case chunksz =>
    exact assembleLine_of_asmCommand (r := .ok (.chunksz r)) (by simp [asmCommand, readReg_regText])
  case copies =>
    exact ⟨assembleLine_of_asmCommand (r := .ok (.cpsafe a b c)) (by simp [asmCommand]),
      assembleLine_of_asmCommand (r := .ok (.cpovl a b c)) (by simp [asmCommand]),
      assembleLine_of_asmCommand (r := .ok (.cpunr a b c)) (by simp [asmCommand])⟩
  case chunks =>
    have hcfill (k : Nat) : assembleLine (lineText "CFILL" [cregText c, regText a, decText k]) =
        (orBadOperands (expandCfill c a k)).map some := by
      refine assembleLine_of_asmCommand ?_
      simp only [asmCommand, readCReg_cregText, readReg_regText, readNumber_decText]
      rfl
    refine ⟨assembleLine_of_asmCommand (r := .ok (.cload c a)) (by simp [asmCommand]),
      assembleLine_of_asmCommand (r := .ok (.cstore a c)) (by simp [asmCommand, readReg_regText, readCReg_cregText]),
      assembleLine_of_asmCommand (r := .ok (.cfill1 c a)) (by simp [asmCommand]),
      assembleLine_of_asmCommand (r := .ok (.cfill2 c a)) (by simp [asmCommand]),
      assembleLine_of_asmCommand (r := .ok (.cfill4 c a)) (by simp [asmCommand]),
      assembleLine_of_asmCommand (r := .ok (.cfill8 c a)) (by simp [asmCommand]),
      hcfill 1, hcfill 2, hcfill 4, hcfill 8, fun k hk => ?_⟩
    rw [hcfill, expandCfill_eq_none hk]
    rfl
  case cksum =>
    exact assembleLine_of_asmCommand (r := .ok (.cksum d a b c)) (by simp [asmCommand, readReg_regText])
  case slide =>
    exact assembleLine_of_asmCommand (r := .ok (.slide a b c d e)) (by simp [asmCommand, readReg_regText])
  case comment => simp only [assembleLine, stripComment_comment]

end Sys2Proof.Machine
